-- ==== Sys2Proof/Word.lean ====
section
/-! DEFINITION. The two bit-vector types of the block: a bus byte (R8 `DATA_WIDTH`) and a command word (R111). -/

namespace Sys2Proof

/-- A bus byte: every data path of the block is one byte wide (R24). -/
abbrev Byte := BitVec 8

/-- The command word HOST presents on the port `cmd`: 24 bits, bit 0 the least significant (R10, R111). -/
abbrev Command := BitVec 24

end Sys2Proof
end

