-- ==== Sys2Proof/Config.lean ====
section
/-! DEFINITION. The parameters of rule R8: what is fixed for the block and what is an argument of the model. -/

namespace Sys2Proof

/-- `DEV_ADDR`, the 7-bit bus address of the one target device (R8, R60). -/
def devAddr : BitVec 7 := 0x68

/-- `BASE_YEAR`, the base of the device's year register (R8, R197). -/
def baseYear : Nat := 2000

/-- `OSC_HALT_REG` is OPEN between two registers (R8, R201, conflict C5). -/
inductive OscHaltReg where
  /-- register `0x00`, where the DS1307 has its clock-halt bit. -/
  | seconds
  /-- register `0x07`, the source's words read literally. -/
  | control
  deriving DecidableEq, Repr

/-- The arguments of the model (R8). The five status codes are parameters whose numbers no rule depends on
(R120, decision D7). `State.cfg` holds one; no step writes it. -/
structure Config where
  /-- `SOURCE_CLOCK`, in Hz. -/
  sourceClock : Nat
  /-- `TARGET_FREQ`, in Hz. -/
  targetFreq : Nat
  /-- `ST_SLA_W_ACK`, "address+write acknowledged". -/
  stSlaWAck : Byte
  /-- `ST_SLA_R_ACK`, "address+read acknowledged". -/
  stSlaRAck : Byte
  /-- `ST_DATA_ACK`, "data byte acknowledged". -/
  stDataAck : Byte
  /-- `ST_RX_ACK`, "data received, ACK returned". -/
  stRxAck : Byte
  /-- `ST_RX_NACK`, "data received, NACK returned". -/
  stRxNack : Byte
  /-- `WAIT_BOUND`; only `none` is admitted (R265, U13). -/
  waitBound : Option Nat
  /-- `DEV_SIZE`, the number of byte registers of the reference device (R8, R102). -/
  devSize : Nat
  /-- `OSC_HALT_REG`. -/
  oscHaltReg : OscHaltReg
  deriving DecidableEq, Repr

/-- The values R8 gives: the source's design point and the status defaults of decision D7.
DESIGN CHOICE for `oscHaltReg`, which R8 leaves OPEN (notes/assumptions/5.md). -/
def Config.designPoint : Config where
  sourceClock := 16000000
  targetFreq := 100000
  stSlaWAck := 0x18
  stSlaRAck := 0x40
  stDataAck := 0x28
  stRxAck := 0x50
  stRxNack := 0x58
  waitBound := none
  devSize := 64
  oscHaltReg := .control

end Sys2Proof
end

