-- ==== Sys2Proof/Machine/Divisor.lean ====
section
/-! DEFINITION. The bus clock divisor of INIT (R141) and the bit rate it gives (R270). -/

namespace Sys2Proof.Machine

/-- `DIV_VALUE = (SOURCE_CLOCK / TARGET_FREQ - 16) / 2`: both divisions round toward zero, the inner one first (R141). -/
def divValue (c : Config) : Nat := (c.sourceClock / c.targetFreq - 16) / 2

/-- The bit rate of the bus in bits per second at divisor `div`: `SOURCE_CLOCK / (16 + 2 * DIV)` (R270).
The model has no time, so no step uses it. -/
def bitRate (c : Config) (div : Byte) : Nat := c.sourceClock / (16 + 2 * div.toNat)

end Sys2Proof.Machine
end

