-- ==== Sys2Proof/Syntax.lean ====
section
/-! DEFINITION. The seven commands of the opcode map (R113), one constructor per row of spec/opcode_table.json. -/

namespace Sys2Proof

/-- A command HOST issues, its operands taken from the fields as they stand (R114). -/
inductive Instr where
  /-- INIT (R140). -/
  | init
  /-- START (R144). -/
  | start
  /-- STOP (R147). -/
  | stop
  /-- WRITEBYTE `byte` (R150). -/
  | writebyte (byte : Byte)
  /-- READBYTE `sendAck`: `true` is `ack`, `false` is `nack` (R155). -/
  | readbyte (sendAck : Bool)
  /-- READREG `registerAddress` (R171). -/
  | readreg (ra : Byte)
  /-- WRITEREG `registerAddress, byte` (R175). -/
  | writereg (ra : Byte) (d : Byte)
  deriving DecidableEq, Repr

end Sys2Proof
end

