-- ==== Sys2Proof/WellFormed.lean ====
section
/-! DEFINITION. What a well-formed configuration is (R9) and what a well-formed command is (R112, R115). -/

namespace Sys2Proof

/-- The five status parameters are pairwise distinct (R9). -/
def Config.statusDistinct (c : Config) : Bool :=
  decide [c.stSlaWAck, c.stSlaRAck, c.stDataAck, c.stRxAck, c.stRxNack].Nodup

/-- Rule R9's conditions, with `WAIT_BOUND = none`, the one value the spec admits (R265, U13). -/
def Config.wf (c : Config) : Bool :=
  decide (0 < c.targetFreq) && decide (16 ≤ c.sourceClock / c.targetFreq) &&
    decide (Machine.divValue c ≤ 255) && c.statusDistinct && c.waitBound.isNone

/-- Every term of `Instr` is a command of the block: an operand's type admits exactly the values its field
admits (every byte is legal, R67, R152 (d), R173 (c), R177 (b); the flag of format F is one bit, R112), and a
must-be-zero field is no part of a term. So there is no ill-formed command; the ill-formed inputs are words
(refused by `decode`, R116) and configurations (refused by `Config.wf`). -/
def Instr.wf (i : Instr) : Bool :=
  match i with
  | .init => true
  | .start => true
  | .stop => true
  | .writebyte _ => true
  | .readbyte _ => true
  | .readreg _ => true
  | .writereg _ _ => true

end Sys2Proof
end

