-- ==== Sys2Proof/Decode.lean ====
section
/-! DEFINITION. The command word (R111, R112), the decoder, total on every word and rejecting by name (R115, R116),
the encoder, and the opcode map as masks and patterns (R113). -/

namespace Sys2Proof

/-- Why a word is reserved (R116). -/
inductive Reserved where
  /-- `op` is no opcode of R113. -/
  | opcode (op : Byte)
  /-- the must-be-zero bits of field `a` are not zero (R115). -/
  | fieldA (op a : Byte)
  /-- the must-be-zero field `b` is not zero (R115). -/
  | fieldB (op b : Byte)
  deriving DecidableEq, Repr

/-- `cmd[23:16]` (R111). -/
def opField (w : Command) : Byte := w.extractLsb' 16 8

/-- `cmd[15:8]` (R111). -/
def aField (w : Command) : Byte := w.extractLsb' 8 8

/-- `cmd[7:0]` (R111). -/
def bField (w : Command) : Byte := w.extractLsb' 0 8

/-- `op ++ a ++ b` (R111). -/
def word (op a b : Byte) : Command := op ++ a ++ b

/-- Format N: `a` and `b` must be zero (R112). -/
def formatN (w : Command) (i : Instr) : Except Reserved Instr :=
  if aField w ≠ 0 then .error (.fieldA (opField w) (aField w))
  else if bField w ≠ 0 then .error (.fieldB (opField w) (bField w))
  else .ok i

/-- Format A: `a` is the operand byte, `b` must be zero (R112). -/
def formatA (w : Command) (f : Byte → Instr) : Except Reserved Instr :=
  if bField w ≠ 0 then .error (.fieldB (opField w) (bField w)) else .ok (f (aField w))

/-- Format F: `a[0]` is the flag, `a[7:1]` and `b` must be zero (R112). -/
def formatF (w : Command) (f : Bool → Instr) : Except Reserved Instr :=
  if (aField w).extractLsb' 1 7 ≠ 0 then .error (.fieldA (opField w) (aField w))
  else if bField w ≠ 0 then .error (.fieldB (opField w) (bField w))
  else .ok (f ((aField w).getLsbD 0))

/-- Format AB: two operand bytes (R112). -/
def formatAB (w : Command) (f : Byte → Byte → Instr) : Except Reserved Instr :=
  .ok (f (aField w) (bField w))

/-- The command a word selects, or why the word is reserved (R113, R115, R116). -/
def decode (w : Command) : Except Reserved Instr :=
  match (opField w).toNat with
  | 0x01 => formatN w .init
  | 0x02 => formatN w .start
  | 0x03 => formatN w .stop
  | 0x04 => formatA w .writebyte
  | 0x05 => formatF w .readbyte
  | 0x10 => formatA w .readreg
  | 0x11 => formatAB w .writereg
  | _ => .error (.opcode (opField w))

/-- The word of a command, from the formats and opcodes of R112 and R113. -/
def encode (i : Instr) : Command :=
  match i with
  | .init => word 0x01 0 0
  | .start => word 0x02 0 0
  | .stop => word 0x03 0 0
  | .writebyte b => word 0x04 b 0
  | .readbyte a => word 0x05 (if a then 1 else 0) 0
  | .readreg ra => word 0x10 ra 0
  | .writereg ra d => word 0x11 ra d

/-- One row of the opcode map: a word `w` selects it when `w &&& mask = pattern` (R113). -/
structure OpcodeRow where
  mnemonic : String
  pattern : Command
  mask : Command
  deriving DecidableEq, Repr

/-- The seven rows of R113, as printed there. -/
def opcodeTable : List OpcodeRow :=
  [⟨"INIT", 0x010000, 0xFFFFFF⟩,
   ⟨"START", 0x020000, 0xFFFFFF⟩,
   ⟨"STOP", 0x030000, 0xFFFFFF⟩,
   ⟨"WRITEBYTE", 0x040000, 0xFF00FF⟩,
   ⟨"READBYTE", 0x050000, 0xFFFEFF⟩,
   ⟨"READREG", 0x100000, 0xFF00FF⟩,
   ⟨"WRITEREG", 0x110000, 0xFF0000⟩]

/-- The word `w` selects the row (R113). -/
def OpcodeRow.selects (r : OpcodeRow) (w : Command) : Bool := w &&& r.mask == r.pattern

/-- The mnemonic of a command (R121). -/
def mnemonic (i : Instr) : String :=
  match i with
  | .init => "INIT"
  | .start => "START"
  | .stop => "STOP"
  | .writebyte _ => "WRITEBYTE"
  | .readbyte _ => "READBYTE"
  | .readreg _ => "READREG"
  | .writereg _ _ => "WRITEREG"

/-- The command in the word `w` of `nbits` bits, bit 0 the least significant. A command is one 24-bit word
(R117), so bits from 24 up select nothing, and the word is presented whole on a 24-bit port (R110): no byte order
exists (R65). -/
def decodeTableWord (nbits w : Nat) : Option Instr :=
  if w % 2 ^ nbits < 2 ^ 24 then
    match decode (BitVec.ofNat 24 (w % 2 ^ nbits)) with
    | .ok i => some i
    | .error _ => none
  else none

end Sys2Proof
end

