-- ==== Sys2Proof/Machine/State.lean ====
section
/-! DEFINITION. The state of the block (R20), the inputs of its step relation (R13 to R16), the hidden state of the BUS
agent that the spec describes (R95 to R108), the reasons a step stops, and the state after reset (R41). -/

namespace Sys2Proof.Machine

/-! ## The registers' own types -/

/-- The phase handed to the BUS agent (R33). -/
inductive PhReq where
  /-- no phase. -/
  | none
  /-- a start condition; `rep` is 1 for a repeated start. -/
  | start (rep : Bool)
  /-- a stop condition. -/
  | stop
  /-- one byte out, taken from `DATA`. -/
  | tx
  /-- one byte in, answered with `ACKEN`. -/
  | rx
  deriving DecidableEq, Repr

/-- The document's BusState, the value of the ghost register `PHASE` (R37). -/
inductive BusState where
  | idle
  | started
  | addressPhase
  | dataPhase
  | stopped
  | error
  deriving DecidableEq, Repr

/-- The registers that can be `undef`, the state of a register that holds no value (R11, R41). -/
inductive UndefReg where
  | ir
  | ok
  | rdata
  | div
  | acken
  | status
  | data
  deriving DecidableEq, Repr

/-! ## Hidden state of the BUS agent (R39): the reference device and the wires -/

/-- Byte registers by address: strictly rising addresses, no entry equal to what an unlisted address reads as. -/
abbrev Memory := List Host.Cell

/-- The reference device's `mode` (R102). -/
inductive DevMode where
  | idle
  | awaitAddr
  | wrPtr
  | wrData
  | rd
  | off
  deriving DecidableEq, Repr

/-- The reference device, a test fixture of the spec (R102). -/
structure RefDevice where
  /-- `mem`, `DEV_SIZE` bytes. -/
  mem : Memory
  /-- `ptr`, the register pointer. -/
  ptr : Nat
  mode : DevMode
  /-- fault switch: a device answers at `DEV_ADDR`. -/
  present : Bool
  /-- fault switch: the register pointer byte is not acknowledged. -/
  nackPtr : Bool
  /-- fault switch: a data byte is not acknowledged and not stored. -/
  nackData : Bool
  deriving DecidableEq, Repr

/-- The levels one agent leaves on the two open-drain lines: `true` released, `false` driven low (R95). -/
structure Lines where
  scl : Bool
  sda : Bool
  deriving DecidableEq, Repr

/-- What the master does in one instant of a phase on the wires (R96 to R99). -/
inductive WireAct where
  | pullSda
  | releaseSda
  | pullScl
  | releaseScl
  /-- wait until SCL and SDA both read 1 (R96, `Start(0)`). -/
  | awaitIdle
  /-- wait until SCL reads 1: where a device stretches the clock (R100). -/
  | awaitSclHigh
  /-- sample SDA. -/
  | sampleSda
  deriving DecidableEq, Repr

/-- The wires' part of the hidden state (R95 to R101). -/
structure WireState where
  /-- what the master drives. -/
  drive : Lines
  /-- the acts still to do of the phase under way; `none`: no phase is under way on the wires. -/
  todo : Option (List WireAct)
  /-- the levels sampled in the phase under way, oldest first. -/
  bits : List Bool
  /-- the levels the last instant of the phase under way left on the lines; `none` before its first instant. -/
  seen : Option Lines
  /-- a start or a stop that the master did not make was seen in the phase under way (R74, R101). -/
  illegal : Bool
  /-- a `Tx` or `Rx` phase has completed since the last `Start` phase (R101). -/
  byteSeen : Bool
  deriving DecidableEq, Repr

/-- The hidden state of the BUS agent, as far as the spec describes an instance of it (R39). -/
structure BusAgent where
  dev : RefDevice
  wire : WireState
  deriving DecidableEq, Repr

/-! ## Inputs of the step relation -/

/-- A host-side output port (R110). -/
inductive HostPort where
  | busy
  | ok
  | rdata
  deriving DecidableEq, Repr

/-- One turn of the schedule: which agent moves, and what it chooses (R13 to R16). The choices are inputs of the step
relation (R40); a claim about every state is a claim about every schedule. -/
inductive Move where
  /-- ENGINE's turn (R15). -/
  | engine
  /-- HOST presents a command word on `cmd` with `cmd_valid = 1` (R14, R110). -/
  | hostIssue (w : Command)
  /-- interrupt context presents a command word (R13, R261). -/
  | irqIssue (w : Command)
  /-- HOST reads an output port (R14). -/
  | hostRead (p : HostPort)
  /-- BUS completes the phase; `status` and, for `Rx`, `data` are its draws, under no law (R71). -/
  | bus (status data : Byte)
  /-- BUS completes the phase as the reference device does (R103 to R106). -/
  | busDevice
  /-- BUS lets one instant pass on the wires; `others` is what the other agents leave on the lines (R95 to R101). -/
  | busWire (others : Lines)
  /-- the reset event (R250). -/
  | reset
  deriving DecidableEq, Repr

/-! ## The state -/

/-- The registers of R20, in its order (S0 to S14), then three fields of the model's own: the configuration, the
schedule of inputs, and the BUS agent's hidden state. `Option.none` in a register is the spec's own `undef` (R11, U2). -/
structure State where
  /-- S0 `IR`, the command HOST issued (R22). -/
  ir : Option Command
  /-- S1 `BUSY` (R27). -/
  busy : Bool
  /-- S2 `OK` (R28). -/
  ok : Option Bool
  /-- S3 `RDATA` (R23). -/
  rdata : Option Byte
  /-- S4 `SEQ`, the block's program counter (R25). -/
  seq : BitVec 3
  /-- S5 `SUB` (R26). -/
  sub : Bool
  /-- S6 `EN` (R30). -/
  en : Bool
  /-- S7 `DIV` (R36). -/
  div : Option Byte
  /-- S8 `ACKEN` (R32). -/
  acken : Option Bool
  /-- S9 `ACTIVE` (R31). -/
  active : Bool
  /-- S10 `PH_REQ` (R33). -/
  phReq : PhReq
  /-- S11 `PH_DONE` (R34). -/
  phDone : Bool
  /-- S12 `STATUS` (R35). -/
  status : Option Byte
  /-- S13 `DATA` (R21). -/
  data : Option Byte
  /-- S14 `PHASE`, the ghost register (R37). -/
  phase : BusState
  /-- the configuration (R8); no step writes it. -/
  cfg : Config
  /-- the turns still to come, the next first; after the last one only ENGINE has turns. -/
  schedule : List Move
  /-- the BUS agent's hidden state (R39); no ENGINE or HOST step reads or writes it. -/
  bus : BusAgent
  deriving DecidableEq, Repr

/-! ## The reasons a step stops -/

/-- A step that stops with a fault: an agent reads a register in state `undef`, and the spec says that the reading agent
faults (R11, U2). Safe: the model gives no value where the spec gives none. -/
inductive Fault where
  /-- HOST reads the port `ok` while `OK` is `undef` (`hostRead`; R236, V-D92). Safe. -/
  | hostReadsUndefOk
  /-- HOST reads the port `rdata` while `RDATA` is `undef` (`hostRead`; R23, R236). Safe. -/
  | hostReadsUndefRdata
  /-- ENGINE reads a register in state `undef` (`completeStep`, `engineTurn`; R11). No run from reset does. Safe. -/
  | engineReadsUndef (r : UndefReg)
  /-- BUS reads a register in state `undef` (`outstanding`; R11). No run from reset does. Safe. -/
  | busReadsUndef (r : UndefReg)
  deriving DecidableEq, Repr

/-- An input the model gives no meaning (R236). -/
inductive Refusal where
  /-- an instruction that has no meaning yet, by its mnemonic; no arm of `exec` raises it. Safe. -/
  | notModelled (mnemonic : String)
  /-- HOST issues a word that matches no row of the opcode map (`hostIssue`; R116). Safe. -/
  | reservedWord (why : Reserved)
  /-- HOST issues a command while `BUSY = 1` (`hostIssue`; R14). Unsafe where a host breaks this duty (D15). -/
  | commandWhileBusy
  /-- a command comes from interrupt context (`irqIssue`; R14, R261). Unsafe where a host breaks this duty (D15). -/
  | commandFromInterrupt
  /-- HOST issues a command other than INIT while `EN = 0` (`hostIssue`; R14, R266). Safe. -/
  | commandWhileDisabled
  /-- the configuration is not well formed (`step`; R9). Safe. -/
  | illFormedConfiguration
  deriving DecidableEq, Repr

/-- What a step answers. -/
abbrev Result := Host.Outcome State Fault Refusal

/-! ## Reset -/

/-- The reference device's initial state (R102): `mode = Idle`, `ptr = 0`, no fault switch set. -/
def RefDevice.initial : RefDevice where
  mem := []
  ptr := 0
  mode := .idle
  present := true
  nackPtr := false
  nackData := false

/-- Idle wires: both lines released (R95). DESIGN CHOICE for `byteSeen` (notes/assumptions/9.md). -/
def WireState.initial : WireState where
  drive := ⟨true, true⟩
  todo := none
  bits := []
  seen := none
  illegal := false
  byteSeen := true

/-- The machine right after reset: the "reset" column of R20 (R41, R250). -/
def State.reset : State where
  ir := none
  busy := false
  ok := none
  rdata := none
  seq := 0
  sub := false
  en := false
  div := none
  acken := none
  active := false
  phReq := .none
  phDone := false
  status := none
  data := none
  phase := .idle
  cfg := .designPoint
  schedule := []
  bus := ⟨.initial, .initial⟩

end Sys2Proof.Machine
end

