-- ==== Sys2Proof/Machine/Flags.lean ====
section
/-! DEFINITION. The accept sets (R151, R156), the ghost state's transitions (R38), and the flags a byte primitive writes. -/

namespace Sys2Proof.Machine

/-- The write accept set, the whole 8-bit value compared (R151). -/
def writeAccepted (c : Config) (status : Byte) : Bool :=
  status == c.stSlaWAck || status == c.stSlaRAck || status == c.stDataAck

/-- The read accept set, the whole 8-bit value compared (R156). -/
def readAccepted (c : Config) (status : Byte) : Bool :=
  status == c.stRxAck || status == c.stRxNack

/-- `PHASE` after a byte primitive that completes with `OK = 1` (R38, column "byte ok"). -/
def byteOk (p : BusState) : BusState :=
  match p with
  | .idle => .error
  | .started => .addressPhase
  | .addressPhase => .dataPhase
  | .dataPhase => .dataPhase
  | .stopped => .error
  | .error => .error

/-- `OK` and `PHASE` after WRITEBYTE's phase (R150). -/
def txFlags (accepted : Bool) (s : State) : State :=
  if accepted then { s with ok := some true, phase := byteOk s.phase }
  else { s with ok := some false, phase := .error }

/-- `OK`, `RDATA` and `PHASE` after READBYTE's phase; `byte` is the byte received (R155). -/
def rxFlags (accepted : Bool) (byte : Byte) (s : State) : State :=
  if accepted then { s with ok := some true, rdata := some byte, phase := byteOk s.phase }
  else { s with ok := some false, rdata := none, phase := .error }

end Sys2Proof.Machine
end

