-- ==== Sys2Proof/Machine/Operands.lean ====
section
/-! DEFINITION. Operand assembly (R114), the address byte (R118), the codes of `PH_REQ` (R33), and the host-side ports (R110). -/

namespace Sys2Proof.Machine

/-- `IR_OP`, `IR_A`, `IR_B`: the fields of the command in `IR` (R22). -/
def irOp (s : State) : Option Byte := s.ir.map opField

def irA (s : State) : Option Byte := s.ir.map aField

def irB (s : State) : Option Byte := s.ir.map bField

/-- The address byte: the 7-bit address shifted left by one with the read/write bit appended, write 0, read 1 (R118). -/
def addressByte (a : BitVec 7) (read : Bool) : Byte :=
  (a.setWidth 8 <<< 1) ||| (if read then 1 else 0)

/-- `SLA_W`, the address byte of a write to the one target device (R118). -/
def slaW : Byte := addressByte devAddr false

/-- `SLA_R`, the address byte of a read from the one target device (R118). -/
def slaR : Byte := addressByte devAddr true

/-- The 3-bit codes of `PH_REQ` (R33). -/
def phReqCode (p : PhReq) : BitVec 3 :=
  match p with
  | .none => 0
  | .start false => 1
  | .start true => 5
  | .stop => 2
  | .tx => 3
  | .rx => 4

/-- The phase a code of `PH_REQ` stands for; codes 6 and 7 are never written (R33). -/
def phReqOfCode (c : BitVec 3) : Option PhReq :=
  match c.toNat with
  | 0 => some .none
  | 1 => some (.start false)
  | 2 => some .stop
  | 3 => some .tx
  | 4 => some .rx
  | 5 => some (.start true)
  | _ => none

/-- The output port `busy` (R110). -/
def portBusy (s : State) : Bool := s.busy

/-- The output port `ok`; `none` is `undef` (R110). -/
def portOk (s : State) : Option Bool := s.ok

/-- The output port `rdata`; `none` is `undef` (R110). -/
def portRdata (s : State) : Option Byte := s.rdata

end Sys2Proof.Machine
end

