-- ==== Sys2Proof/Machine/Ops.lean ====
section
/-! DEFINITION. The pseudocode primitives (R12), the failure outcome (R227), the four primitive bodies in their two ENGINE
steps (R143), and the sequencer that runs them (R170). -/

namespace Sys2Proof.Machine

/-! ## The pseudocode primitives of R12 -/

/-- `issue(req)`: hands one phase to the BUS agent (R12). -/
def issue (req : PhReq) (s : State) : State := { s with phReq := req, phDone := false }

/-- `retire`: ends the phase (R12). -/
def retire (s : State) : State := { s with phReq := .none, phDone := false }

/-- `finish`: ends the command (R12). -/
def finish (s : State) : State := { s with busy := false, seq := 0, sub := false }

/-- `fail`: the failure outcome, the one exception of the block; nothing is saved and control goes nowhere (R12, R227). -/
def fail (s : State) : State := finish { s with ok := some false, phase := .error }

/-- READREG's failure of a `P_TX` step: `RDATA <- undef; fail` (R171, R227). -/
def failRead (s : State) : State := fail { s with rdata := none }

/-! ## The primitive bodies -/

/-- The bodies `P_START`, `P_STOP`, `P_TX(b)`, `P_RX(a)` (R143). -/
inductive Primitive where
  | start
  | stop
  | tx (b : Byte)
  | rx (ack : Bool)
  deriving DecidableEq, Repr

/-- The issue step of a body, `SUB = 0` (R144, R147, R150, R155). START hands over the value `ACTIVE` had. -/
def issueStep (p : Primitive) (s : State) : State :=
  match p with
  | .start => { issue (.start s.active) { s with active := true } with sub := true }
  | .stop => { issue .stop s with sub := true }
  | .tx b => { issue .tx { s with data := some b } with sub := true }
  | .rx a => { issue .rx { s with acken := some a } with sub := true }

/-- The completion step of a body, `SUB = 1` and `PH_DONE = 1`, up to its `next` (R144, R147, R150, R155).
START and STOP do not read `STATUS`; reading a register in state `undef` is a fault (R11). -/
def completeStep (p : Primitive) (s : State) : Except Fault State :=
  match p with
  | .start => .ok { retire s with phase := .started, sub := false }
  | .stop => .ok { retire s with active := false, phase := .stopped, sub := false }
  | .tx _ =>
    match s.status with
    | none => .error (.engineReadsUndef .status)
    | some st => .ok { txFlags (writeAccepted s.cfg st) (retire s) with sub := false }
  | .rx _ =>
    match s.status, s.data with
    | none, _ => .error (.engineReadsUndef .status)
    | some st, some d => .ok { rxFlags (readAccepted s.cfg st) d (retire s) with sub := false }
    | some st, none =>
      if readAccepted s.cfg st then .error (.engineReadsUndef .data)
      else .ok { rxFlags false 0 (retire s) with sub := false }

/-! ## The sequencer -/

/-- What a completion step continues with (R143, R171, R175). -/
inductive Next where
  /-- `SEQ <- n`. -/
  | goto (n : BitVec 3)
  | finish
  | fail
  /-- `RDATA <- undef; fail`. -/
  | failRead
  deriving DecidableEq, Repr

/-- The effect of `next`. -/
def applyNext (n : Next) (s : State) : State :=
  match n with
  | .goto k => { s with seq := k }
  | .finish => finish s
  | .fail => fail s
  | .failRead => failRead s

/-- A row of a step table (R171, R175): a body and what follows it. -/
inductive TableRow where
  /-- the same `next` whatever `OK` holds. -/
  | always (p : Primitive) (n : Next)
  /-- one `next` when the body ends with `OK = 1`, another when it ends with `OK = 0`. -/
  | test (p : Primitive) (good bad : Next)
  deriving DecidableEq, Repr

/-- The body of a row. -/
def rowBody (r : TableRow) : Primitive :=
  match r with
  | .always p _ => p
  | .test p _ _ => p

/-- What a row continues with, after its body has written `OK` (R178). -/
def rowNext (r : TableRow) (s : State) : Next :=
  match r with
  | .always _ n => n
  | .test _ good bad => if s.ok = some true then good else bad

/-- One ENGINE step at a row (R143): the issue step, then the completion step, which is enabled only when
`PH_DONE = 1`. Until then ENGINE has no step: it spins, and nothing bounds the wait (R12 `await`, R226). -/
def runRow (r : TableRow) (s : State) : Result :=
  if s.sub = false then .next (issueStep (rowBody r) s)
  else if s.phDone = false then .next s
  else
    match completeStep (rowBody r) s with
    | .error f => .fault f
    | .ok t => .next (applyNext (rowNext r t) t)

/-- One ENGINE step of a register transaction: the row the sequencer is at (R170). No row: ENGINE has no step (R15). -/
def runTable (rows : List TableRow) (s : State) : Result :=
  match rows[s.seq.toNat]? with
  | some r => runRow r s
  | none => .next s

end Sys2Proof.Machine
end

