-- ==== Sys2Proof/Machine/ConformingBus.lean ====
section
/-! DEFINITION. The status codes outside the accept sets and the conforming bus (R74). The numbers are the spec's, from
general knowledge (G2); only the reference device, the wire level and tests use them. -/

namespace Sys2Proof.Machine

def stStart : Byte := 0x08

def stRepStart : Byte := 0x10

def stSlaWNack : Byte := 0x20

def stSlaRNack : Byte := 0x48

def stDataNack : Byte := 0x30

def stArbLost : Byte := 0x38

def stBusError : Byte := 0x00

def stNoInfo : Byte := 0xF8

/-- The phase as the BUS agent sees it: the request with the register the BUS step reads (R71). -/
inductive BusPhase where
  | start (rep : Bool)
  | stop
  | tx (b : Byte)
  | rx (ack : Bool)
  deriving DecidableEq, Repr

/-- The status of an address byte: bit 0 tells a read from a write (R74). -/
def addressStatus (c : Config) (b : Byte) (acked : Bool) : Byte :=
  match b.getLsbD 0, acked with
  | false, true => c.stSlaWAck
  | false, false => stSlaWNack
  | true, true => c.stSlaRAck
  | true, false => stSlaRNack

/-- The status of a later byte (R74). -/
def dataStatus (c : Config) (acked : Bool) : Byte := if acked then c.stDataAck else stDataNack

/-- The status of a received byte (R74). -/
def receiveStatus (c : Config) (ack : Bool) : Byte := if ack then c.stRxAck else c.stRxNack

/-- The status of a start (R74). -/
def startStatus (rep : Bool) : Byte := if rep then stRepStart else stStart

/-- The status of a phase with which nothing went wrong on the bus (R74); `first`: the byte is the first after a start;
`acked`: a byte out was acknowledged. -/
def phaseStatus (c : Config) (p : BusPhase) (first acked : Bool) : Byte :=
  match p with
  | .start rep => startStatus rep
  | .stop => stNoInfo
  | .tx b => if first then addressStatus c b acked else dataStatus c acked
  | .rx ack => receiveStatus c ack

/-- The answers of a conforming bus to a phase (R74), the two rows for any phase among them. -/
def conforms (c : Config) (p : BusPhase) (first : Bool) (status : Byte) : Bool :=
  [stArbLost, stBusError, phaseStatus c p first true, phaseStatus c p first false].contains status

end Sys2Proof.Machine
end

