-- ==== Sys2Proof/Machine/Memory.lean ====
section
/-! DEFINITION. The device register space of the reference device (R61, R102) as plain data in one canonical form. -/

namespace Sys2Proof.Machine

/-- What an unlisted register reads as. DESIGN CHOICE: the spec gives `mem` "as the test says" (notes/assumptions/8.md). -/
def unlistedByte : Byte := 0

/-- The byte at address `a`. -/
def memRead (m : Memory) (a : Nat) : Byte :=
  match m with
  | [] => unlistedByte
  | (x, v) :: rest => if x = a then v else memRead rest a

/-- Stores `b` at address `a`, keeping the canonical form: storing what an unlisted address reads as removes the entry. -/
def memWrite (m : Memory) (a : Nat) (b : Byte) : Memory :=
  match m with
  | [] => if b = unlistedByte then [] else [(a, b)]
  | (x, v) :: rest =>
    if a < x then (if b = unlistedByte then (x, v) :: rest else (a, b) :: (x, v) :: rest)
    else if a = x then (if b = unlistedByte then rest else (a, b) :: rest)
    else (x, v) :: memWrite rest a b

/-- Every address of `m` lies above `lo`, strictly rising, with no entry equal to an unlisted byte. -/
def Memory.wfAbove (lo : Nat) (m : Memory) : Bool :=
  match m with
  | [] => true
  | (x, v) :: rest => decide (lo < x) && v != unlistedByte && Memory.wfAbove x rest

/-- The canonical form of a memory. -/
def Memory.wf (m : Memory) : Bool :=
  match m with
  | [] => true
  | (x, v) :: rest => v != unlistedByte && Memory.wfAbove x rest

end Sys2Proof.Machine
end

