-- ==== Sys2Proof/Machine/RefDevice.lean ====
section
/-! DEFINITION. The reference device: what it answers to each phase (R103 to R106). -/

namespace Sys2Proof.Machine

/-- What the BUS agent writes at the end of a phase: `STATUS`, and `DATA` for `Rx` (R71). -/
structure BusAnswer where
  status : Byte
  data : Byte
  deriving DecidableEq, Repr

/-- The device is present and the address byte is its own (R104). -/
def deviceAddressed (dev : RefDevice) (b : Byte) : Bool :=
  dev.present && b.extractLsb' 1 7 == devAddr

/-- A `Tx` phase with byte `b` (R104): the device after it and the status. -/
def deviceTx (c : Config) (b : Byte) (dev : RefDevice) : RefDevice × Byte :=
  match dev.mode with
  | .awaitAddr =>
    if deviceAddressed dev b then
      ({ dev with mode := if b.getLsbD 0 then .rd else .wrPtr }, addressStatus c b true)
    else ({ dev with mode := .off }, addressStatus c b false)
  | .wrPtr =>
    if dev.nackPtr then ({ dev with mode := .off }, stDataNack)
    else ({ dev with ptr := b.toNat % c.devSize, mode := .wrData }, c.stDataAck)
  | .wrData =>
    if dev.nackData then ({ dev with mode := .off }, stDataNack)
    else ({ dev with mem := memWrite dev.mem dev.ptr b, ptr := (dev.ptr + 1) % c.devSize }, c.stDataAck)
  | .off => (dev, stDataNack)
  | .idle => (dev, stNoInfo)
  | .rd => (dev, stNoInfo)

/-- An `Rx` phase answered with `ack` (R105): the device after it and the byte. A released data line reads ones. -/
def deviceRx (c : Config) (ack : Bool) (dev : RefDevice) : RefDevice × Byte :=
  match dev.mode with
  | .rd =>
    ({ dev with ptr := (dev.ptr + 1) % c.devSize, mode := if ack then .rd else .off }, memRead dev.mem dev.ptr)
  | .idle => (dev, 0xFF)
  | .awaitAddr => (dev, 0xFF)
  | .wrPtr => (dev, 0xFF)
  | .wrData => (dev, 0xFF)
  | .off => (dev, 0xFF)

/-- The reference device's step (R103 to R106); in a phase other than `Rx` the answer's `data` is not used. -/
def deviceStep (c : Config) (p : BusPhase) (dev : RefDevice) : RefDevice × BusAnswer :=
  match p with
  | .start rep => ({ dev with mode := .awaitAddr }, ⟨startStatus rep, 0⟩)
  | .stop => ({ dev with mode := .idle }, ⟨stNoInfo, 0⟩)
  | .tx b => ((deviceTx c b dev).1, ⟨(deviceTx c b dev).2, 0⟩)
  | .rx ack => ((deviceRx c ack dev).1, ⟨receiveStatus c ack, (deviceRx c ack dev).2⟩)

end Sys2Proof.Machine
end

