-- ==== Sys2Proof/Machine/Wire.lean ====
section
/-! DEFINITION. The wire-level refinement of a phase (R95 to R101), informative in the spec: the master's acts, one an
instant, on two open-drain lines, and the answer they end with. -/

namespace Sys2Proof.Machine

/-- The levels on the lines: a released line reads 1 unless another agent drives it low (R95). -/
def lineLevels (master others : Lines) : Lines :=
  ⟨master.scl && others.scl, master.sda && others.sda⟩

/-- One data bit out, while SCL is 0 (R97). -/
def wireBitOut (level : Bool) : List WireAct :=
  [if level then .releaseSda else .pullSda, .releaseScl, .awaitSclHigh, .pullScl]

/-- One bit in: SDA is sampled while SCL reads 1 (R97, R98). -/
def wireBitIn : List WireAct := [.releaseScl, .awaitSclHigh, .sampleSda, .pullScl]

/-- The bits of a byte, most significant first (R66, R97). -/
def bitsMsbFirst (b : Byte) : List Bool :=
  [b.getLsbD 7, b.getLsbD 6, b.getLsbD 5, b.getLsbD 4, b.getLsbD 3, b.getLsbD 2, b.getLsbD 1, b.getLsbD 0]

/-- The byte whose bits were sampled, most significant first (R98). -/
def byteOfBits (bits : List Bool) : Byte :=
  bits.foldl (fun acc bit => (acc <<< 1) ||| (if bit then 1 else 0)) 0

/-- The master's acts in a phase (R96 to R99).
DESIGN CHOICE (notes/assumptions/9.md): R97 and R99 let the master move SDA "while SCL is 0" and do not say how SCL gets
there on a bus whose SCL is released. In a `Tx` with no start before it, and in a `Stop` on an idle bus, the first act
moves SDA at whatever level SCL has; the master neither waits for SCL to be 0 nor pulls it first. -/
def wireActs (p : BusPhase) : List WireAct :=
  match p with
  | .start false => [.awaitIdle, .pullSda, .pullScl]
  | .start true => [.releaseSda, .releaseScl, .awaitSclHigh, .pullSda, .pullScl]
  | .stop => [.pullSda, .releaseScl, .awaitSclHigh, .releaseSda]
  | .tx b => (bitsMsbFirst b).flatMap wireBitOut ++ .releaseSda :: wireBitIn
  | .rx ack =>
    .releaseSda :: (List.replicate 8 wireBitIn).flatten ++ wireBitOut (!ack) ++ [.releaseSda]

/-- The master can do the act at these line levels; otherwise it waits, with no bound (R100). -/
def wireReady (a : WireAct) (level : Lines) : Bool :=
  match a with
  | .awaitIdle => level.scl && level.sda
  | .awaitSclHigh => level.scl
  | .pullSda => true
  | .releaseSda => true
  | .pullScl => true
  | .releaseScl => true
  | .sampleSda => true

/-- The act's effect on what the master drives and has sampled. -/
def wirePerform (a : WireAct) (level : Lines) (w : WireState) : WireState :=
  match a with
  | .pullSda => { w with drive := { w.drive with sda := false } }
  | .releaseSda => { w with drive := { w.drive with sda := true } }
  | .pullScl => { w with drive := { w.drive with scl := false } }
  | .releaseScl => { w with drive := { w.drive with scl := true } }
  | .awaitIdle => w
  | .awaitSclHigh => w
  | .sampleSda => { w with bits := w.bits ++ [level.sda] }

/-- A phase not yet under way on the wires begins: nothing is sampled and nothing seen in it. -/
def wireBegin (p : BusPhase) (w : WireState) : WireState :=
  match w.todo with
  | some _ => w
  | none => { w with todo := some (wireActs p), bits := [], seen := none, illegal := false }

/-- SDA moved while SCL stayed 1: a start or a stop on the bus (R96, R99). -/
def startOrStopSeen (before after : Lines) : Bool :=
  before.scl && after.scl && before.sda != after.sda

/-- What the other agents did since the last instant of the phase: a start or a stop among it is none of the master's, and
there is no other master (R233), so it is illegal (R74; what counts as illegal is DESIGN CHOICE, notes/assumptions/9.md). -/
def wireObserve (others : Lines) (w : WireState) : WireState :=
  match w.seen with
  | some before => { w with illegal := w.illegal || startOrStopSeen before (lineLevels w.drive others) }
  | none => w

/-- The master does its next act, or waits with it. -/
def wireAct (others : Lines) (w : WireState) : WireState :=
  match w.todo with
  | some (a :: rest) =>
    if wireReady a (lineLevels w.drive others) then
      { wirePerform a (lineLevels w.drive others) w with todo := some rest }
    else w
  | some [] => w
  | none => w

/-- One instant of the phase `p` on the wires. -/
def wireInstant (p : BusPhase) (others : Lines) (w : WireState) : WireState :=
  let w := wireAct others (wireObserve others (wireBegin p w))
  { w with seen := some (lineLevels w.drive others) }

/-- The status code and the byte a wire-level phase leaves (R101): the row of R74 for an illegal start or stop where one
was seen; else the phase's own row, a byte acknowledged when SDA was sampled 0. -/
def wireAnswer (c : Config) (p : BusPhase) (w : WireState) : BusAnswer where
  status := if w.illegal then stBusError else phaseStatus c p (!w.byteSeen) (w.bits == [false])
  data :=
    match p with
    | .start _ => 0
    | .stop => 0
    | .tx _ => 0
    | .rx _ => byteOfBits w.bits

/-- What the master drives between phases: SCL low inside a transaction, both lines released after a stop (R96 to R99).
It is what the last act of the phase leaves; for a phase answered without the wires it says the same. -/
def restDrive (p : BusPhase) : Lines :=
  match p with
  | .start _ => ⟨false, false⟩
  | .stop => ⟨true, true⟩
  | .tx _ => ⟨false, true⟩
  | .rx _ => ⟨false, true⟩

/-- The wires when a phase has completed: no phase is under way, and a byte has or has not been moved since the last
start (R101). -/
def wireDone (p : BusPhase) (w : WireState) : WireState :=
  { w with
    drive := restDrive p
    todo := none
    bits := []
    seen := none
    illegal := false
    byteSeen :=
      match p with
      | .start _ => false
      | .stop => w.byteSeen
      | .tx _ => true
      | .rx _ => true }

end Sys2Proof.Machine
end

