-- ==== Sys2Proof/Machine/Bus.lean ====
section
/-! DEFINITION. The BUS agent's step (R71): by a free draw, by the reference device, or by one instant on the wires. -/

namespace Sys2Proof.Machine

/-- The phase for which a BUS step is enabled (R16), with the register that step reads (R71); a BUS step that reads a
register in state `undef` faults (R11). -/
def outstanding (s : State) : Except Fault (Option BusPhase) :=
  if s.phDone then .ok none
  else
    match s.phReq with
    | .none => .ok none
    | .start rep => .ok (some (.start rep))
    | .stop => .ok (some .stop)
    | .tx =>
      match s.data with
      | none => .error (.busReadsUndef .data)
      | some b => .ok (some (.tx b))
    | .rx =>
      match s.acken with
      | none => .error (.busReadsUndef .acken)
      | some a => .ok (some (.rx a))

/-- The BUS step's writes (R71): `STATUS`, `PH_DONE`, for `Rx` also `DATA`; after a `Tx` `DATA` is unchanged (D20). -/
def completePhase (p : BusPhase) (a : BusAnswer) (s : State) : State :=
  { s with
    status := some a.status
    phDone := true
    data :=
      match p with
      | .start _ => s.data
      | .stop => s.data
      | .tx _ => s.data
      | .rx _ => some a.data
    bus := { s.bus with wire := wireDone p s.bus.wire } }

/-- A BUS turn: `k` is the step for the outstanding phase; a turn for which no BUS step is enabled passes (R16). -/
def busTurn (k : BusPhase → State → State) (s : State) : Result :=
  match outstanding s with
  | .error f => .fault f
  | .ok none => .next s
  | .ok (some p) => .next (k p s)

/-- The BUS agent of R71: any status and any byte. -/
def busFree (status data : Byte) (s : State) : Result :=
  busTurn (fun p s => completePhase p ⟨status, data⟩ s) s

/-- The reference device as the BUS agent: it always takes its step when it is enabled (R107). -/
def busDevice (s : State) : Result :=
  busTurn
    (fun p s =>
      completePhase p (deviceStep s.cfg p s.bus.dev).2
        { s with bus := { s.bus with dev := (deviceStep s.cfg p s.bus.dev).1 } })
    s

/-- The wires after one instant of a phase; the last act completes the phase (R101). -/
def wireTurn (others : Lines) (p : BusPhase) (s : State) : State :=
  let w := wireInstant p others s.bus.wire
  let t := { s with bus := { s.bus with wire := w } }
  if w.todo = some [] then completePhase p (wireAnswer s.cfg p w) t else t

/-- The wire-level BUS agent (R95 to R101). -/
def busWire (others : Lines) (s : State) : Result := busTurn (wireTurn others) s

end Sys2Proof.Machine
end

