-- ==== Sys2Proof/Machine/Agents.lean ====
section
/-! DEFINITION. HOST's steps (R14), interrupt context, which has none (R13), and the reset event (R250). -/

namespace Sys2Proof.Machine

/-- The effect of HOST's issue step: `IR <- cmd; BUSY <- 1; SEQ <- 0; SUB <- 0` (R14). -/
def latchCommand (w : Command) (s : State) : State :=
  { s with ir := some w, busy := true, seq := 0, sub := false }

/-- HOST's step "issue command" (R14, R116, R236): enabled when `BUSY = 0` and `EN = 1`, or when `BUSY = 0` and the
command is INIT. -/
def hostIssue (w : Command) (s : State) : Result :=
  if s.busy then .refused .commandWhileBusy
  else
    match decode w with
    | .error r => .refused (.reservedWord r)
    | .ok i => if s.en || i == .init then .next (latchCommand w s) else .refused .commandWhileDisabled

/-- Interrupt context has no step against the block (R13, R261). -/
def irqIssue (_w : Command) (_s : State) : Result := .refused .commandFromInterrupt

/-- HOST reads a port; the read changes nothing (R14), and reading `undef` is a fault of HOST: the spec says so of these
two ports in R236 ("this one is a fault of HOST's program"), R23 ("a HOST that reads `RDATA` in state `undef` faults"),
U2 ("Treatment: fault"), U15, V-D92 and V-D93. -/
def hostRead (p : HostPort) (s : State) : Result :=
  match p with
  | .busy => .next s
  | .ok => if (portOk s).isSome then .next s else .fault .hostReadsUndefOk
  | .rdata => if (portRdata s).isSome then .next s else .fault .hostReadsUndefRdata

/-- The reset event (R250): every register to its reset value; a command in flight is dropped and nothing is sent on
the bus. The BUS agent is not reset (R251); of the wires only what the master does is: a phase under way ends where it
is and the master releases both lines.
DESIGN CHOICE (notes/assumptions/9.md): where the master held SDA low with SCL released (inside a start, a stop or a 0
bit), the release raises SDA while SCL is 1, the edge that R99 calls a stop and `startOrStopSeen` would see; the model
counts it as no stop sent (R250), and nothing looks at it, since no phase is under way. -/
def resetEvent (s : State) : Result :=
  .next
    { State.reset with
      cfg := s.cfg
      schedule := s.schedule
      bus :=
        { s.bus with
          wire := { WireState.initial with byteSeen := s.bus.wire.byteSeen } } }

end Sys2Proof.Machine
end

