-- ==== Sys2Proof/Machine/Primitives.lean ====
section
/-! DEFINITION. The meanings of the five bus primitive commands (R140 to R157): each answers one ENGINE step. -/

namespace Sys2Proof.Machine

/-- INIT (R140): one ENGINE step, no bus phase. -/
def execInit (s : State) : Result :=
  .next (finish { s with div := some (BitVec.ofNat 8 (divValue s.cfg)), en := true })

/-- START (R144): `P_START`, whose `next` is `finish` (R143). -/
def execStart (s : State) : Result := runRow (.always .start .finish) s

/-- STOP (R147): `P_STOP`, then `finish`. -/
def execStop (s : State) : Result := runRow (.always .stop .finish) s

/-- WRITEBYTE (R150): `P_TX(byte)`, then `finish` whether or not it succeeded. -/
def execWritebyte (byte : Byte) (s : State) : Result := runRow (.always (.tx byte) .finish) s

/-- READBYTE (R155): `P_RX(sendAck)`, then `finish` whether or not it succeeded. -/
def execReadbyte (sendAck : Bool) (s : State) : Result := runRow (.always (.rx sendAck) .finish) s

end Sys2Proof.Machine
end

