-- ==== Sys2Proof/Machine/Transactions.lean ====
section
/-! DEFINITION. The meanings of the two register transaction commands and their step tables (R171, R175): each answers
one ENGINE step. -/

namespace Sys2Proof.Machine

/-- READREG's step table, `SEQ` 0 to 6 (R171). A failed read still goes to the stop (decision D11). -/
def readregTable (ra : Byte) : List TableRow :=
  [.always .start (.goto 1),
   .test (.tx slaW) (.goto 2) .failRead,
   .test (.tx ra) (.goto 3) .failRead,
   .always .start (.goto 4),
   .test (.tx slaR) (.goto 5) .failRead,
   .test (.rx false) (.goto 6) (.goto 6),
   .always .stop .finish]

/-- WRITEREG's step table, `SEQ` 0 to 4 (R175). -/
def writeregTable (ra d : Byte) : List TableRow :=
  [.always .start (.goto 1),
   .test (.tx slaW) (.goto 2) .fail,
   .test (.tx ra) (.goto 3) .fail,
   .test (.tx d) (.goto 4) .fail,
   .always .stop .finish]

/-- READREG (R170, R171). -/
def execReadreg (ra : Byte) (s : State) : Result := runTable (readregTable ra) s

/-- WRITEREG (R170, R175). -/
def execWritereg (ra d : Byte) (s : State) : Result := runTable (writeregTable ra d) s

end Sys2Proof.Machine
end

