-- ==== Sys2Proof/Machine/Dispatch.lean ====
section
/-! DEFINITION. One ENGINE step of a command (R15): one arm per constructor of Instr. -/

namespace Sys2Proof.Machine

def exec (i : Instr) (s : State) : Host.Outcome State Fault Refusal :=
  match i with
  | .init => Sys2Proof.Machine.execInit s
  | .start => Sys2Proof.Machine.execStart s
  | .stop => Sys2Proof.Machine.execStop s
  | .writebyte byte => Sys2Proof.Machine.execWritebyte byte s
  | .readbyte sendAck => Sys2Proof.Machine.execReadbyte sendAck s
  | .readreg ra => Sys2Proof.Machine.execReadreg ra s
  | .writereg ra d => Sys2Proof.Machine.execWritereg ra d s

end Sys2Proof.Machine
end

