-- ==== Sys2Proof/Machine/Engine.lean ====
section
/-! DEFINITION. ENGINE's turn (R15): the command in `IR` is decoded and one of its steps is run. -/

namespace Sys2Proof.Machine

/-- ENGINE's turn: enabled only when `BUSY = 1`; with `BUSY = 0` the block does nothing (R15, R252). `IR` holds a
command of the opcode map whenever `BUSY = 1`, since `hostIssue` refuses every other word. -/
def engineTurn (s : State) : Result :=
  if s.busy then
    match s.ir with
    | none => .fault (.engineReadsUndef .ir)
    | some w =>
      match decode w with
      | .error r => .refused (.reservedWord r)
      | .ok i => exec i s
  else .next s

/-- One turn of the agent the schedule names (R13 to R16). -/
def turn (m : Move) (s : State) : Result :=
  match m with
  | .engine => engineTurn s
  | .hostIssue w => hostIssue w s
  | .irqIssue w => irqIssue w s
  | .hostRead p => hostRead p s
  | .bus status data => busFree status data s
  | .busDevice => busDevice s
  | .busWire others => busWire others s
  | .reset => resetEvent s

/-- `s` with the command word `w` issued (R14), so that ENGINE's next turn runs it: `IR` latched, `BUSY = 1`, no phase
outstanding, the turn ENGINE's. A command other than INIT is issued only with `EN = 1`, which is therefore set. -/
def presentCommand (w : Command) (s : State) : State :=
  { retire (latchCommand w s) with
    en := s.en || !(decode w == .ok .init)
    schedule := .engine :: s.schedule }

end Sys2Proof.Machine
end

