-- ==== Sys2Proof/Machine/Step.lean ====
section
/-! DEFINITION. The step function: one turn of the schedule (R13 to R16). -/

namespace Sys2Proof.Machine

/-- One step. An ill-formed configuration is refused (R9). The next turn of the schedule is taken; when the schedule
has run out, every further turn is ENGINE's: HOST issues nothing more and BUS never steps again (R16, R17, R226). -/
def step (s : State) : Host.Outcome State Fault Refusal :=
  if s.cfg.wf then
    match s.schedule with
    | [] => engineTurn s
    | m :: rest => turn m { s with schedule := rest }
  else .refused .illFormedConfiguration

/-- `s` with the instruction `w` of `nbits` bits issued, so that the next step runs it (R14; notes/assumptions/2.md). -/
def State.withFetchWord (s : State) (nbits w : Nat) : State :=
  presentCommand (BitVec.ofNat 24 (w % 2 ^ nbits)) s

end Sys2Proof.Machine
end

