-- ==== Sys2Proof/Machine/TimeCodec.lean ====
section
/-! DEFINITION. The companion codec of the device's time registers (R190 to R199), pure functions with no state. -/

namespace Sys2Proof.Machine

/-- A calendar/time value (R190). -/
structure ClockValue where
  year : Nat
  month : Nat
  day : Nat
  hour : Nat
  minute : Nat
  second : Nat
  /-- 1 is PM; meaningless when `h12` is false. -/
  pm : Bool
  /-- the 12-hour convention is in effect. -/
  h12 : Bool
  deriving DecidableEq, Repr

/-- Equality of ClockValues: with `h12 = 0` whatever `pm` holds (R190). -/
def clockEq (a b : ClockValue) : Bool :=
  a.year == b.year && a.month == b.month && a.day == b.day && a.hour == b.hour && a.minute == b.minute &&
    a.second == b.second && a.h12 == b.h12 && (!a.h12 || a.pm == b.pm)

/-- The largest hour of the convention (R190, conflict C6). -/
def maxHour (h12 : Bool) : Nat := if h12 then 12 else 23

/-- The codec's domain (R190, R195, R197). -/
def clockInDomain (c : ClockValue) : Bool :=
  decide (baseYear ≤ c.year) && decide (c.year ≤ baseYear + 99) && decide (1 ≤ c.month) && decide (c.month ≤ 12) &&
    decide (1 ≤ c.day) && decide (c.day ≤ 31) && decide (c.hour ≤ maxHour c.h12) && decide (c.minute ≤ 59) &&
    decide (c.second ≤ 59)

/-- The tens widths of the plain fields (R192). -/
def secondsTens : Nat := 3

def minutesTens : Nat := 3

def dayTens : Nat := 2

def monthTens : Nat := 1

def yearTens : Nat := 4

/-- `bcd_dec(v, w) = v[4 + w - 1 : 4] * 10 + v[3:0]`; a nibble above 9 is not rejected (R191, R193). -/
def bcdDec (v : Byte) (w : Nat) : Nat := (v.extractLsb' 4 w).toNat * 10 + (v.extractLsb' 0 4).toNat

/-- `bcd_enc(n) = ((n / 10) << 4) | (n % 10)`, for `n` within its field's range (R196). -/
def bcdEnc (n : Nat) : Byte := (BitVec.ofNat 8 (n / 10) <<< 4) ||| BitVec.ofNat 8 (n % 10)

/-- Encoding a plain field of range `lo` to `hi`: outside the range, and always from 100 up, the codec refuses (R196,
U7). -/
def encodeField (lo hi n : Nat) : Option Byte := if lo ≤ n ∧ n ≤ hi ∧ n < 100 then some (bcdEnc n) else none

/-- What the hours register decodes to. -/
structure Hours where
  hour : Nat
  pm : Bool
  h12 : Bool
  deriving DecidableEq, Repr

/-- Decoding the hours register (R194): one tens bit in 12-hour mode, two in 24-hour mode; bit 7 is ignored. -/
def hoursDecode (v : Byte) : Hours :=
  if v.getLsbD 6 then ⟨bcdDec v 1, v.getLsbD 5, true⟩ else ⟨bcdDec v 2, false, false⟩

/-- Encoding the hours register (R195); outside the domain of the convention the codec refuses. -/
def hoursEncode (h : Hours) : Option Byte :=
  if h.hour ≤ maxHour h.h12 then
    some (if h.h12 then 0x40 ||| ((if h.pm then 1 else 0 : Byte) <<< 5) ||| bcdEnc h.hour else bcdEnc h.hour)
  else none

/-- Decoding the year register (R197). -/
def yearDecode (v : Byte) : Nat := baseYear + bcdDec v yearTens

/-- Encoding a year, 2000 to 2099; other years are refused (R197). -/
def yearEncode (y : Nat) : Option Byte := if baseYear ≤ y then encodeField 0 99 (y - baseYear) else none

/-- Decoding the seven bytes read from `0x00` to `0x06`; the day-of-week register is not used (R198). -/
def decodeClock (r0 r1 r2 _r3 r4 r5 r6 : Byte) : ClockValue where
  second := bcdDec r0 secondsTens
  minute := bcdDec r1 minutesTens
  hour := (hoursDecode r2).hour
  pm := (hoursDecode r2).pm
  h12 := (hoursDecode r2).h12
  day := bcdDec r4 dayTens
  month := bcdDec r5 monthTens
  year := yearDecode r6

/-- The six bytes of an encoded ClockValue, for registers `0x00`, `0x01`, `0x02`, `0x04`, `0x05`, `0x06`; nothing is
specified for `0x03` (R198). -/
structure ClockBytes where
  r0 : Byte
  r1 : Byte
  r2 : Byte
  r4 : Byte
  r5 : Byte
  r6 : Byte
  deriving DecidableEq, Repr

/-- Encoding a ClockValue (R198); a value outside the domain is refused (U7). -/
def encodeClock (c : ClockValue) : Option ClockBytes := do
  let r0 ← encodeField 0 59 c.second
  let r1 ← encodeField 0 59 c.minute
  let r2 ← hoursEncode ⟨c.hour, c.pm, c.h12⟩
  let r4 ← encodeField 1 31 c.day
  let r5 ← encodeField 1 12 c.month
  let r6 ← yearEncode c.year
  return ⟨r0, r1, r2, r4, r5, r6⟩

/-! ## The device's registers -/

/-- What a register address of the target device holds (R61). -/
inductive DeviceRegister where
  | seconds
  | minutes
  | hours
  | dayOfWeek
  | day
  | month
  | year
  | control
  | storage
  deriving DecidableEq, Repr

/-- The register map (R61). -/
def deviceRegister (ra : Byte) : DeviceRegister :=
  match ra.toNat with
  | 0 => .seconds
  | 1 => .minutes
  | 2 => .hours
  | 3 => .dayOfWeek
  | 4 => .day
  | 5 => .month
  | 6 => .year
  | 7 => .control
  | _ => .storage

/-- The six named settings of the control register (R200). -/
inductive SquareWave where
  | off
  | alwaysOn
  | hz1
  | khz4
  | khz8
  | khz32
  deriving DecidableEq, Repr

/-- The control register's byte for a setting (R200). -/
def squareWaveByte (m : SquareWave) : Byte :=
  match m with
  | .off => 0x00
  | .alwaysOn => 0x80
  | .hz1 => 0x10
  | .khz4 => 0x11
  | .khz8 => 0x12
  | .khz32 => 0x13

/-- The register that holds the oscillator-halt flag in bit 7 (R201). -/
def oscHaltAddress (r : OscHaltReg) : Byte :=
  match r with
  | .seconds => 0x00
  | .control => 0x07

/-- The oscillator-halt flag in the byte read: 1 halts the device's clock (R201). -/
def oscHalted (v : Byte) : Bool := v.getLsbD 7

/-- The byte written back to clear the flag: an and with `0x7F` (R201). -/
def oscStart (v : Byte) : Byte := v &&& 0x7F

end Sys2Proof.Machine
end

