-- ==== Sys2Proof/Machine/Assembly.lean ====
section
/-! DEFINITION. The command syntax (R121), one command a line, and the pseudo-commands (R122), with the device setup of
boot (R253, R201). -/

namespace Sys2Proof.Machine

/-- The runs of consecutive digit characters: the first character, its value, how many characters. The spec writes
capitals (R113); small letters are the reader's own (notes/assumptions/17.md). -/
def digitRuns : List (Char × Nat × Nat) := [('0', 0, 10), ('A', 10, 6), ('a', 10, 6)]

/-- The place in a run of the character `c`, as a value. -/
def valueInRun (c : Char) (run : Char × Nat × Nat) : Option Nat :=
  let place := c.toNat - run.1.toNat
  if run.1.toNat ≤ c.toNat ∧ place < run.2.2 then some (run.2.1 + place) else none

/-- The value of a hexadecimal digit. -/
def hexValue (c : Char) : Option Nat := digitRuns.findSome? (valueInRun c)

/-- The hexadecimal digit of a value below 16, a capital from ten up. -/
def hexDigit (n : Nat) : Char :=
  if n < 10 then Char.ofNat ('0'.toNat + n) else Char.ofNat ('A'.toNat + (n - 10))

/-- A byte operand, `0xNN`. -/
def hexByte (b : Byte) : List Char := ['0', 'x', hexDigit (b.toNat / 16), hexDigit (b.toNat % 16)]

/-- A byte operand's value. -/
def readByteOperand (cs : List Char) : Option Byte :=
  match cs with
  | ['0', 'x', h, l] => do
    let h ← hexValue h
    let l ← hexValue l
    return BitVec.ofNat 8 (h * 16 + l)
  | _ => none

/-- The operand of READBYTE (R121). -/
def readFlagOperand (cs : List Char) : Option Bool :=
  match cs with
  | ['a', 'c', 'k'] => some true
  | ['n', 'a', 'c', 'k'] => some false
  | _ => none

/-- A command as its line (R121). -/
def commandLine (i : Instr) : List Char :=
  match i with
  | .init => ['I', 'N', 'I', 'T']
  | .start => ['S', 'T', 'A', 'R', 'T']
  | .stop => ['S', 'T', 'O', 'P']
  | .writebyte b => ['W', 'R', 'I', 'T', 'E', 'B', 'Y', 'T', 'E', ' '] ++ hexByte b
  | .readbyte true => ['R', 'E', 'A', 'D', 'B', 'Y', 'T', 'E', ' ', 'a', 'c', 'k']
  | .readbyte false => ['R', 'E', 'A', 'D', 'B', 'Y', 'T', 'E', ' ', 'n', 'a', 'c', 'k']
  | .readreg ra => ['R', 'E', 'A', 'D', 'R', 'E', 'G', ' '] ++ hexByte ra
  | .writereg ra d => ['W', 'R', 'I', 'T', 'E', 'R', 'E', 'G', ' '] ++ hexByte ra ++ [',', ' '] ++ hexByte d

/-- The line up to its comment: `;` starts a comment (R121). -/
def stripComment (cs : List Char) : List Char := cs.takeWhile (· != ';')

/-- The words of a line, parted by spaces; a comma is a word of its own. -/
def tokens (cs : List Char) : List (List Char) :=
  match cs with
  | [] => []
  | c :: rest =>
    if c == ' ' then [] :: tokens rest
    else if c == ',' then [] :: [','] :: tokens rest
    else
      match tokens rest with
      | [] => [[c]]
      | t :: ts => (c :: t) :: ts

/-- The command of a line (R121); `none` where the line is no command. -/
def parseLine (cs : List Char) : Option Instr :=
  match (tokens (stripComment cs)).filter (· != []) with
  | [['I', 'N', 'I', 'T']] => some .init
  | [['S', 'T', 'A', 'R', 'T']] => some .start
  | [['S', 'T', 'O', 'P']] => some .stop
  | [['W', 'R', 'I', 'T', 'E', 'B', 'Y', 'T', 'E'], b] => (readByteOperand b).map .writebyte
  | [['R', 'E', 'A', 'D', 'B', 'Y', 'T', 'E'], a] => (readFlagOperand a).map .readbyte
  | [['R', 'E', 'A', 'D', 'R', 'E', 'G'], ra] => (readByteOperand ra).map .readreg
  | [['W', 'R', 'I', 'T', 'E', 'R', 'E', 'G'], ra, [','], d] => do
    let ra ← readByteOperand ra
    let d ← readByteOperand d
    return .writereg ra d
  | _ => none

/-- The pseudo-commands of R122. -/
inductive Pseudo where
  | addrw
  | addrr
  | gettime
  | setsqw (v : Byte)
  deriving DecidableEq, Repr

/-- The fixed expansion of a pseudo-command (R122). -/
def expand (p : Pseudo) : List Instr :=
  match p with
  | .addrw => [.writebyte slaW]
  | .addrr => [.writebyte slaR]
  | .gettime => [.readreg 0, .readreg 1, .readreg 2, .readreg 3, .readreg 4, .readreg 5, .readreg 6]
  | .setsqw v => [.writereg 0x07 v]

/-- Device setup, first part: the read of the register with the oscillator-halt flag (R201, R253). -/
def setupRead (r : OscHaltReg) : List Instr := [.readreg (oscHaltAddress r)]

/-- Device setup, second part: the byte `v` read is written back with the flag cleared, and the square-wave mode is
chosen (R201, R200, R253). DESIGN CHOICE for the order of the two writes, which R253 says the source does not give
(notes/assumptions/24.md). -/
def setupWrite (r : OscHaltReg) (v : Byte) (m : SquareWave) : List Instr :=
  .writereg (oscHaltAddress r) (oscStart v) :: expand (.setsqw (squareWaveByte m))

end Sys2Proof.Machine
end

