-- ==== Sys2Proof/Machine/BigStep.lean ====
section
/-! DEFINITION. The big-step reading of the commands: one transition per primitive (R161), and a register transaction as
the walk of its step table over the BUS agent's answers (R171, R172, R175, R176). Claims compare the steps with it. -/

namespace Sys2Proof.Machine

/-- A row of R161's table that completes: the state after the body, up to its `next`, given the BUS step's answer. -/
def primitiveOutcome (p : Primitive) (a : BusAnswer) (s : State) : State :=
  let s := { s with status := some a.status, phReq := .none, phDone := false, sub := false }
  match p with
  | .start => { s with active := true, phase := .started }
  | .stop => { s with active := false, phase := .stopped }
  | .tx b =>
    if writeAccepted s.cfg a.status then { s with data := some b, ok := some true, phase := byteOk s.phase }
    else { s with data := some b, ok := some false, phase := .error }
  | .rx ack =>
    if readAccepted s.cfg a.status then
      { s with
        data := some a.data
        acken := some ack
        ok := some true
        rdata := some a.data
        phase := byteOk s.phase }
    else
      { s with
        data := some a.data
        acken := some ack
        ok := some false
        rdata := none
        phase := .error }

/-- The body of a primitive command that uses the bus (R143). -/
def primitiveOf (i : Instr) : Option Primitive :=
  match i with
  | .init => none
  | .start => some .start
  | .stop => some .stop
  | .writebyte b => some (.tx b)
  | .readbyte a => some (.rx a)
  | .readreg _ => none
  | .writereg _ _ => none

/-- The step table of a register transaction (R171, R175). -/
def tableOf (i : Instr) : List TableRow :=
  match i with
  | .init => []
  | .start => []
  | .stop => []
  | .writebyte _ => []
  | .readbyte _ => []
  | .readreg ra => readregTable ra
  | .writereg ra d => writeregTable ra d

/-- The walk of a step table over the answers: the state it ends in and how many phases it issued. The walk ends at the
end of the table, at a row whose `next` ends the command, or where the answers run out (the hang). -/
def walkTable (rows : List TableRow) (answers : List BusAnswer) (s : State) : State × Nat :=
  match rows, answers with
  | [], _ => (s, 0)
  | _ :: _, [] => (s, 0)
  | r :: rows, a :: answers =>
    let t := primitiveOutcome (rowBody r) a s
    match rowNext r t with
    | .goto n => ((walkTable rows answers { t with seq := n }).1, (walkTable rows answers { t with seq := n }).2 + 1)
    | .finish => (finish t, 1)
    | .fail => (fail t, 1)
    | .failRead => (failRead t, 1)

/-- The turns in which one phase is issued by ENGINE, answered by BUS and completed by ENGINE (R143). -/
def phaseTurns (a : BusAnswer) : List Move := [.engine, .bus a.status a.data, .engine]

/-- The turns in which the same phase is answered by the reference device. -/
def phaseTurnsDevice : List Move := [.engine, .busDevice, .engine]

/-- The turns of one command whose phases are answered by `answers` in order. -/
def commandTurns (i : Instr) (answers : List BusAnswer) : List Move :=
  .hostIssue (encode i) :: answers.flatMap phaseTurns

/-- The turns of one command with `n` phases on the reference device. -/
def commandTurnsDevice (i : Instr) (n : Nat) : List Move :=
  .hostIssue (encode i) :: (List.replicate n phaseTurnsDevice).flatten

/-- The sequence of primitive commands that READREG `ra` stands for (R180). -/
def readregPrimitives (ra : Byte) : List Instr :=
  [.start, .writebyte slaW, .writebyte ra, .start, .writebyte slaR, .readbyte false, .stop]

/-- The sequence of primitive commands that WRITEREG `ra`, `d` stands for (R180). -/
def writeregPrimitives (ra d : Byte) : List Instr :=
  [.start, .writebyte slaW, .writebyte ra, .writebyte d, .stop]

/-- The turns of a sequence of one-phase commands, each with its answer. -/
def sequenceTurns (cmds : List Instr) (answers : List BusAnswer) : List Move :=
  match cmds, answers with
  | i :: cmds, a :: answers => commandTurns i [a] ++ sequenceTurns cmds answers
  | _, _ => []

end Sys2Proof.Machine
end

