-- ==== Sys2Proof/Safety.lean ====
section
/-! DEFINITION. The invariant of the block, and what counts as a safe run, in the terms claims use. -/

namespace Sys2Proof.Safety

open Sys2Proof.Machine

/-- `k` steps of the machine. -/
def run (k : Nat) (s : State) : Result := Host.Core.run core k s

/-- The row of its step table that command `i` is at, for the commands that use the bus (R143, R171, R175); a primitive
command has one row, at `SEQ = 0` (R25). -/
def rowAt (i : Instr) (seq : BitVec 3) : Option TableRow :=
  match i with
  | .init => none
  | .start => [TableRow.always .start .finish][seq.toNat]?
  | .stop => [TableRow.always .stop .finish][seq.toNat]?
  | .writebyte b => [TableRow.always (.tx b) .finish][seq.toNat]?
  | .readbyte a => [TableRow.always (.rx a) .finish][seq.toNat]?
  | .readreg ra => (readregTable ra)[seq.toNat]?
  | .writereg ra d => (writeregTable ra d)[seq.toNat]?

/-- No phase is outstanding. -/
def NoPhase (s : State) : Prop := s.phReq = .none ∧ s.phDone = false

/-- The registers of the phase a body has issued: the request, the register the BUS agent reads, and, once the phase has
completed, the registers the completion step reads. -/
def PhaseOut (p : Primitive) (s : State) : Prop :=
  match p with
  | .start => (∃ rep, s.phReq = .start rep) ∧ s.active = true
  | .stop => s.phReq = .stop
  | .tx b => s.phReq = .tx ∧ s.data = some b ∧ (s.phDone = true → s.status ≠ none)
  | .rx a => s.phReq = .rx ∧ s.acken = some a ∧ (s.phDone = true → s.status ≠ none ∧ s.data ≠ none)

/-- The command `i` is in progress: INIT is at its one step; any other command was issued with `EN = 1`, is at a row of
its table, has a phase outstanding exactly when `SUB = 1`, and past its first row has `ACTIVE = 1`. -/
def InProgress (i : Instr) (s : State) : Prop :=
  match i with
  | .init => s.seq = 0 ∧ s.sub = false ∧ NoPhase s
  | _ =>
    s.en = true ∧ (s.seq ≠ 0 → s.active = true) ∧
      ∃ r, rowAt i s.seq = some r ∧ if s.sub then PhaseOut (rowBody r) s else NoPhase s

/-- The ghost state is inside a transaction. -/
def inTransaction (p : BusState) : Bool :=
  match p with
  | .idle => false
  | .started => true
  | .addressPhase => true
  | .dataPhase => true
  | .stopped => false
  | .error => false

/-- The invariant of the machine. It rules out states no run reaches: a phase with no command, a command `IR` does not
hold, a completed phase that left no status. -/
structure Inv (s : State) : Prop where
  /-- the configuration is well formed (R9). -/
  config : s.cfg.wf = true
  /-- with `BUSY = 0` the sequencer is at rest and no phase is outstanding (R17, R25). -/
  idle : s.busy = false → s.seq = 0 ∧ s.sub = false ∧ NoPhase s
  /-- with `BUSY = 1` the command in `IR` is in progress (R14, R15). -/
  command : s.busy = true → ∃ w i, s.ir = some w ∧ decode w = .ok i ∧ InProgress i s
  /-- `EN = 1` only after INIT, which wrote `DIV` (R140). -/
  divisor : s.en = true → s.div = some (BitVec.ofNat 8 (divValue s.cfg))
  /-- the ghost state is inside a transaction only while `ACTIVE = 1` (R31, R38). -/
  ghost : inTransaction s.phase = true → s.active = true

/-- The reference device is well formed (R102): canonical memory inside `DEV_SIZE`, the pointer below it. -/
def DeviceWf (s : State) : Prop :=
  Memory.wf s.bus.dev.mem = true ∧ (∀ c ∈ s.bus.dev.mem, c.1 < s.cfg.devSize) ∧ s.bus.dev.ptr < s.cfg.devSize

/-- The faults of HOST's own program (R236); every other fault is one of the block. -/
def hostFault (f : Fault) : Bool :=
  match f with
  | .hostReadsUndefOk => true
  | .hostReadsUndefRdata => true
  | .engineReadsUndef _ => false
  | .busReadsUndef _ => false

/-- A step is safe when it goes on, when HOST's own program faults, or when the input is one the spec refuses HOST: the
block itself reads no register in state `undef` and finds no reserved word in `IR`. -/
def SafeStep (s : State) : Prop :=
  match step s with
  | .next _ => True
  | .fault f => hostFault f = true
  | .refused _ =>
    (∃ w rest, s.schedule = .hostIssue w :: rest) ∨ (∃ w rest, s.schedule = .irqIssue w :: rest)

/-- The state after an issue step: the phase handed over, `SUB = 1` (R12, R143). -/
def issued (req : PhReq) (s : State) : State := { s with phReq := req, phDone := false, sub := true }

/-- The state after a completion step that goes on at step `n` (R12, R170). -/
def wentOn (n : BitVec 3) (s : State) : State :=
  { s with phReq := .none, phDone := false, sub := false, seq := n }

/-- The state after a completion step that ends the command (R12, R143). -/
def ended (s : State) : State :=
  { s with phReq := .none, phDone := false, sub := false, seq := 0, busy := false }

/-- `STATUS` in the write accept set, spelled out (R151). -/
def InWriteSet (c : Config) (st : Byte) : Prop := st = c.stSlaWAck ∨ st = c.stSlaRAck ∨ st = c.stDataAck

/-- `STATUS` in the read accept set, spelled out (R156). -/
def InReadSet (c : Config) (st : Byte) : Prop := st = c.stRxAck ∨ st = c.stRxNack

/-- A result with `f` applied to the next state. -/
def mapNext (f : State → State) (r : Result) : Result :=
  match r with
  | .next s => .next (f s)
  | .fault e => .fault e
  | .refused e => .refused e

/-- A BUS agent's turn. -/
def isBusTurn (m : Move) : Bool :=
  match m with
  | .engine => false
  | .hostIssue _ => false
  | .irqIssue _ => false
  | .hostRead _ => false
  | .bus _ _ => true
  | .busDevice => true
  | .busWire _ => true
  | .reset => false

/-- The wires after the instants `others` of phase `p`. -/
def wireRun (p : BusPhase) (others : List Lines) (w : WireState) : WireState :=
  others.foldl (fun w o => wireInstant p o w) w

/-- The registers and parameters a claim about the block alone compares: all of State but the BUS agent's hidden state. -/
def sameBlock (s t : State) : Prop := { s with bus := t.bus } = t

end Sys2Proof.Safety
end

