-- ==== Sys2Proof/Certificates/Slice0/Obligations.lean ====
section
/-! DEFINITION. The statements for the provers, from the numbered rules of the spec. -/

open Sys2Proof Sys2Proof.Machine Sys2Proof.Safety

/-! ## Configuration and encoding -/

/-- R9: the conditions of a well-formed configuration, with the one admitted `WAIT_BOUND` (R265); any other is refused. -/
def Obligations.ConfigurationWellFormedness : Prop :=
  ∀ c : Config,
    (c.wf = true ↔
      0 < c.targetFreq ∧ 16 ≤ c.sourceClock / c.targetFreq ∧ (c.sourceClock / c.targetFreq - 16) / 2 ≤ 255 ∧
        c.stSlaWAck ≠ c.stSlaRAck ∧ c.stSlaWAck ≠ c.stDataAck ∧ c.stSlaWAck ≠ c.stRxAck ∧
        c.stSlaWAck ≠ c.stRxNack ∧ c.stSlaRAck ≠ c.stDataAck ∧ c.stSlaRAck ≠ c.stRxAck ∧
        c.stSlaRAck ≠ c.stRxNack ∧ c.stDataAck ≠ c.stRxAck ∧ c.stDataAck ≠ c.stRxNack ∧
        c.stRxAck ≠ c.stRxNack ∧ c.waitBound = none) ∧
    (c.wf = false → ∀ s : State, s.cfg = c → step s = .refused .illFormedConfiguration)

/-- Decode and encode agree: the word of every command decodes to it, at every value of every operand (R113, R114). -/
def Obligations.DecodeInvertsEncode : Prop := ∀ i : Instr, i.wf = true → decode (encode i) = .ok i

/-- No two words select one command: a word that decodes is the command's word, must-be-zero fields included (R115). -/
def Obligations.EncodeInvertsDecode : Prop := ∀ (w : Command) (i : Instr), decode w = .ok i → encode i = w

/-- R113: which word selects which command, by match and mask, with the operands of the row; the rows are disjoint. -/
def Obligations.OpcodeMapSelectsCommands : Prop :=
  (∀ w : Command,
    (decode w = .ok .init ↔ w &&& 0xFFFFFF = 0x010000) ∧
    (decode w = .ok .start ↔ w &&& 0xFFFFFF = 0x020000) ∧
    (decode w = .ok .stop ↔ w &&& 0xFFFFFF = 0x030000) ∧
    (∀ b, decode w = .ok (.writebyte b) ↔ w &&& 0xFF00FF = 0x040000 ∧ b = w.extractLsb' 8 8) ∧
    (∀ a, decode w = .ok (.readbyte a) ↔ w &&& 0xFFFEFF = 0x050000 ∧ a = w.getLsbD 8) ∧
    (∀ ra, decode w = .ok (.readreg ra) ↔ w &&& 0xFF00FF = 0x100000 ∧ ra = w.extractLsb' 8 8) ∧
    (∀ ra d, decode w = .ok (.writereg ra d) ↔
      w &&& 0xFF0000 = 0x110000 ∧ ra = w.extractLsb' 8 8 ∧ d = w.extractLsb' 0 8)) ∧
  ∀ w : Command, ∀ r₁ ∈ opcodeTable, ∀ r₂ ∈ opcodeTable, r₁.selects w = true → r₂.selects w = true → r₁ = r₂

/-- R116, R115: a word that matches no row is reserved, and HOST's step that would issue it does not exist; the reserved
opcodes and the non-zero must-be-zero fields select no row. With `EN = 0` the command is refused on two grounds: that the
refusal is then named `reservedWord` is the model's choice (DESIGN CHOICE, notes/assumptions/13.md). -/
def Obligations.ReservedWordsAreRefused : Prop :=
  (∀ w : Command, (∀ r ∈ opcodeTable, r.selects w = false) →
    ∃ e, decode w = .error e ∧ ∀ s : State, s.busy = false → hostIssue w s = .refused (.reservedWord e)) ∧
  (∀ w : Command,
    let op := (w.extractLsb' 16 8).toNat
    op = 0 ∨ (0x06 ≤ op ∧ op ≤ 0x0F) ∨ 0x12 ≤ op ∨
      ((op = 1 ∨ op = 2 ∨ op = 3) ∧ (w.extractLsb' 8 8 ≠ 0 ∨ w.extractLsb' 0 8 ≠ 0)) ∨
      ((op = 4 ∨ op = 0x10) ∧ w.extractLsb' 0 8 ≠ 0) ∨
      (op = 5 ∧ (w.extractLsb' 9 7 ≠ 0 ∨ w.extractLsb' 0 8 ≠ 0)) →
    ∀ r ∈ opcodeTable, r.selects w = false)

/-- The words of the spec's vectors V-D1 to V-D15 decode as the vectors say. -/
def Obligations.SampleWordsDecode : Prop :=
  decode 0x010000 = .ok .init ∧ decode 0x020000 = .ok .start ∧ decode 0x030000 = .ok .stop ∧
    decode 0x04D000 = .ok (.writebyte 0xD0) ∧ decode 0x050100 = .ok (.readbyte true) ∧
    decode 0x050000 = .ok (.readbyte false) ∧ decode 0x100200 = .ok (.readreg 0x02) ∧
    decode 0x110710 = .ok (.writereg 0x07 0x10) ∧ decode 0x11FFFF = .ok (.writereg 0xFF 0xFF) ∧
    ∀ w ∈ ([0x000000, 0x010001, 0x04D001, 0x050200, 0x100201, 0x120000, 0x060000, 0xFF0000] : List Command),
      ∃ e, decode w = .error e

/-- R118: the address byte has the device address in bits 7 to 1 and the read/write bit in bit 0. -/
def Obligations.AddressByteLayout : Prop :=
  (∀ (a : BitVec 7) (read : Bool),
    (addressByte a read).extractLsb' 1 7 = a ∧ (addressByte a read).getLsbD 0 = read) ∧
  slaW = 0xD0 ∧ slaR = 0xD1

/-- The syntax of R121: every command's line reads back as the command (decision D25, the spec's own syntax). -/
def Obligations.CommandLineRoundTrip : Prop := ∀ i : Instr, parseLine (commandLine i) = some i

/-! ## The step, HOST and reset -/

/-- A step on ENGINE's turn runs the command that `IR` decodes to, whether the turn stands in the schedule or the schedule
has run out (R15; the schedule is the model's own, notes/assumptions/1.md). -/
def Obligations.StepRunsTheDecodedCommand : Prop :=
  ∀ (s : State) (w : Command) (i : Instr),
    s.cfg.wf = true → s.busy = true → s.ir = some w → decode w = .ok i →
      (s.schedule = [] → step s = exec i s) ∧
      (∀ rest, s.schedule = .engine :: rest → step s = exec i { s with schedule := rest })

/-- R14, R236: HOST's issue step, its guard and its effect; the inputs that are refused; HOST's reads, which change
nothing and fault on a register in state `undef`. Where two refusals hold at once (a reserved word with `BUSY = 1` or with
`EN = 0`) the name of the refusal is the model's choice: busy, reserved, disabled (DESIGN CHOICE,
notes/assumptions/13.md). -/
def Obligations.HostStepsAndRefusedInputs : Prop :=
  ∀ (s : State) (rest : List Move),
    (s.cfg.wf = false → step s = .refused .illFormedConfiguration) ∧
    (s.cfg.wf = true →
      (∀ w, s.schedule = .hostIssue w :: rest →
        (s.busy = true → step s = .refused .commandWhileBusy) ∧
        (s.busy = false → (∀ r ∈ opcodeTable, r.selects w = false) → ∃ e, step s = .refused (.reservedWord e)) ∧
        (∀ i, s.busy = false → decode w = .ok i →
          (s.en = true ∨ i = .init →
            step s = .next
              { s with schedule := rest, ir := some w, busy := true, seq := 0, sub := false }) ∧
          (s.en = false → i ≠ .init → step s = .refused .commandWhileDisabled))) ∧
      (∀ w, s.schedule = .irqIssue w :: rest → step s = .refused .commandFromInterrupt) ∧
      (s.schedule = .hostRead .busy :: rest → step s = .next { s with schedule := rest }) ∧
      (s.schedule = .hostRead .ok :: rest →
        (s.ok = none → step s = .fault .hostReadsUndefOk) ∧
        (s.ok ≠ none → step s = .next { s with schedule := rest })) ∧
      (s.schedule = .hostRead .rdata :: rest →
        (s.rdata = none → step s = .fault .hostReadsUndefRdata) ∧
        (s.rdata ≠ none → step s = .next { s with schedule := rest })))

/-- R250, R41: the reset event puts every register to its reset value, `undef` where the spec says so; nothing is handed
to the BUS agent, whose device keeps its state (R251). `State.reset` holds the same values; that no turn is scheduled
in it is the model's own choice (notes/assumptions/1.md). -/
def Obligations.ResetPutsResetValues : Prop :=
  (State.reset.busy = false ∧ State.reset.seq = 0 ∧ State.reset.sub = false ∧ State.reset.en = false ∧
    State.reset.active = false ∧ State.reset.phReq = .none ∧ State.reset.phDone = false ∧
    State.reset.phase = .idle ∧ State.reset.ir = none ∧ State.reset.ok = none ∧ State.reset.rdata = none ∧
    State.reset.div = none ∧ State.reset.acken = none ∧ State.reset.status = none ∧ State.reset.data = none ∧
    State.reset.schedule = []) ∧
  ∀ (s : State) (rest : List Move), s.cfg.wf = true → s.schedule = .reset :: rest →
    ∃ t, step s = .next t ∧ t.busy = false ∧ t.seq = 0 ∧ t.sub = false ∧ t.en = false ∧ t.active = false ∧
      t.phReq = .none ∧ t.phDone = false ∧ t.phase = .idle ∧ t.ir = none ∧ t.ok = none ∧ t.rdata = none ∧
      t.div = none ∧ t.acken = none ∧ t.status = none ∧ t.data = none ∧
      t.cfg = s.cfg ∧ t.schedule = rest ∧ t.bus.dev = s.bus.dev

/-- The block does nothing until HOST issues a command (R252): with `BUSY = 0`, however many turns ENGINE and BUS get. -/
def Obligations.IdleBlockDoesNothing : Prop :=
  ∀ (k : Nat) (s : State), s.cfg.wf = true → s.busy = false → s.phReq = .none → s.phDone = false →
    (∀ m ∈ s.schedule, m = .engine ∨ isBusTurn m = true) →
      run k s = .next { s with schedule := s.schedule.drop k }

/-! ## The primitive commands -/

/-- R140, R141: INIT writes the divisor, enables the bus hardware and ends; the divisor fits its register in a
well-formed configuration and is 72 at the design point. -/
def Obligations.InitResult : Prop :=
  (∀ s : State,
    exec .init s = .next
      { s with
        div := some (BitVec.ofNat 8 ((s.cfg.sourceClock / s.cfg.targetFreq - 16) / 2))
        en := true
        busy := false
        seq := 0
        sub := false }) ∧
  (∀ c : Config, c.wf = true →
    16 ≤ c.sourceClock / c.targetFreq ∧ (BitVec.ofNat 8 (divValue c)).toNat = (c.sourceClock / c.targetFreq - 16) / 2) ∧
  (∀ s : State, s.cfg.wf = false → step s = .refused .illFormedConfiguration) ∧
  divValue .designPoint = 72

/-- R144: START hands over a start condition, a repeated one when `ACTIVE = 1`, and sets `ACTIVE`; when the phase has
completed it ends with `PHASE = Started`, whatever `STATUS` holds. -/
def Obligations.StartResult : Prop :=
  ∀ s : State,
    (s.sub = false → exec .start s = .next (issued (.start s.active) { s with active := true })) ∧
    (s.sub = true → s.phDone = true → exec .start s = .next (ended { s with phase := .started }))

/-- R147: STOP hands over a stop condition; when the phase has completed it ends with `ACTIVE = 0` and
`PHASE = Stopped`. -/
def Obligations.StopResult : Prop :=
  ∀ s : State,
    (s.sub = false → exec .stop s = .next (issued .stop s)) ∧
    (s.sub = true → s.phDone = true → exec .stop s = .next (ended { s with active := false, phase := .stopped }))

/-- R150, R151: WRITEBYTE hands over its byte; when the phase has completed `OK` is 1 exactly when the whole `STATUS`
equals one of the three codes, and nothing more is done on failure. -/
def Obligations.WritebyteResult : Prop :=
  ∀ (byte : Byte) (s : State),
    (s.sub = false → exec (.writebyte byte) s = .next (issued .tx { s with data := some byte })) ∧
    (∀ st, s.sub = true → s.phDone = true → s.status = some st →
      (InWriteSet s.cfg st →
        exec (.writebyte byte) s = .next (ended { s with ok := some true, phase := byteOk s.phase })) ∧
      (¬InWriteSet s.cfg st →
        exec (.writebyte byte) s = .next (ended { s with ok := some false, phase := .error })))

/-- R155, R156: READBYTE hands over a reception with its acknowledge bit; when the phase has completed `OK` is 1 and
`RDATA` the byte received exactly when the whole `STATUS` equals one of the two codes, whatever `sendAck`; otherwise
`RDATA` is `undef`. -/
def Obligations.ReadbyteResult : Prop :=
  ∀ (sendAck : Bool) (s : State),
    (s.sub = false → exec (.readbyte sendAck) s = .next (issued .rx { s with acken := some sendAck })) ∧
    (∀ st d, s.sub = true → s.phDone = true → s.status = some st → s.data = some d →
      (InReadSet s.cfg st →
        exec (.readbyte sendAck) s =
          .next (ended { s with ok := some true, rdata := some d, phase := byteOk s.phase })) ∧
      (¬InReadSet s.cfg st →
        exec (.readbyte sendAck) s = .next (ended { s with ok := some false, rdata := none, phase := .error })))

/-- R143: while `SUB = 1` and `PH_DONE = 0` ENGINE has no step; nothing bounds the wait. -/
def Obligations.BusCommandsWaitForThePhase : Prop :=
  ∀ (i : Instr) (s : State), i ≠ .init → s.sub = true → s.phDone = false → exec i s = .next s

/-- R151, R156: in a well-formed configuration three status values succeed for WRITEBYTE and the other 253 fail, two
succeed for READBYTE and the other 254 fail, and no value succeeds for both. -/
def Obligations.AcceptSetSizes : Prop :=
  ∀ c : Config, c.wf = true →
    ((List.range 256).filter (fun n => writeAccepted c (BitVec.ofNat 8 n))).length = 3 ∧
    ((List.range 256).filter (fun n => readAccepted c (BitVec.ofNat 8 n))).length = 2 ∧
    ∀ st : Byte, writeAccepted c st = true → readAccepted c st = false

/-- R38: the transitions of the ghost register, one per completing primitive; INIT does not change it. -/
def Obligations.GhostPhaseTransitions : Prop :=
  (∀ (p : Primitive) (s t : State), completeStep p s = .ok t →
    match p with
    | .start => t.phase = .started
    | .stop => t.phase = .stopped
    | _ =>
      (t.ok = some false ∧ t.phase = .error) ∨
      (t.ok = some true ∧
        t.phase =
          match s.phase with
          | .idle => .error
          | .started => .addressPhase
          | .addressPhase => .dataPhase
          | .dataPhase => .dataPhase
          | .stopped => .error
          | .error => .error)) ∧
  ∀ s t : State, exec .init s = .next t → t.phase = s.phase

/-! ## The register transactions -/

/-- R171: READREG's step table. With `SUB = 0` the body of the step is issued; with `SUB = 1` and `PH_DONE = 1` it is
completed and the table's `then` follows. A failed `P_TX` step ends the command with `RDATA = undef`, no stop and
`ACTIVE` unchanged; the read step goes to the stop whatever it ends with. -/
def Obligations.ReadregStepTable : Prop :=
  ∀ (ra : Byte) (s : State),
    (s.sub = false →
      (s.seq = 0 → exec (.readreg ra) s = .next (issued (.start s.active) { s with active := true })) ∧
      (s.seq = 1 → exec (.readreg ra) s = .next (issued .tx { s with data := some slaW })) ∧
      (s.seq = 2 → exec (.readreg ra) s = .next (issued .tx { s with data := some ra })) ∧
      (s.seq = 3 → exec (.readreg ra) s = .next (issued (.start s.active) { s with active := true })) ∧
      (s.seq = 4 → exec (.readreg ra) s = .next (issued .tx { s with data := some slaR })) ∧
      (s.seq = 5 → exec (.readreg ra) s = .next (issued .rx { s with acken := some false })) ∧
      (s.seq = 6 → exec (.readreg ra) s = .next (issued .stop s))) ∧
    (s.sub = true → s.phDone = true →
      (s.seq = 0 → exec (.readreg ra) s = .next (wentOn 1 { s with phase := .started })) ∧
      (s.seq = 3 → exec (.readreg ra) s = .next (wentOn 4 { s with phase := .started })) ∧
      (∀ st, s.status = some st → s.seq = 1 ∨ s.seq = 2 ∨ s.seq = 4 →
        (InWriteSet s.cfg st →
          exec (.readreg ra) s = .next (wentOn (s.seq + 1) { s with ok := some true, phase := byteOk s.phase })) ∧
        (¬InWriteSet s.cfg st →
          exec (.readreg ra) s = .next (ended { s with ok := some false, rdata := none, phase := .error }))) ∧
      (∀ st d, s.status = some st → s.data = some d → s.seq = 5 →
        (InReadSet s.cfg st →
          exec (.readreg ra) s =
            .next (wentOn 6 { s with ok := some true, rdata := some d, phase := byteOk s.phase })) ∧
        (¬InReadSet s.cfg st →
          exec (.readreg ra) s = .next (wentOn 6 { s with ok := some false, rdata := none, phase := .error }))) ∧
      (s.seq = 6 → exec (.readreg ra) s = .next (ended { s with active := false, phase := .stopped })))

/-- R175: WRITEREG's step table. A failed `P_TX` step ends the command with no stop and `ACTIVE` unchanged. -/
def Obligations.WriteregStepTable : Prop :=
  ∀ (ra d : Byte) (s : State),
    (s.sub = false →
      (s.seq = 0 → exec (.writereg ra d) s = .next (issued (.start s.active) { s with active := true })) ∧
      (s.seq = 1 → exec (.writereg ra d) s = .next (issued .tx { s with data := some slaW })) ∧
      (s.seq = 2 → exec (.writereg ra d) s = .next (issued .tx { s with data := some ra })) ∧
      (s.seq = 3 → exec (.writereg ra d) s = .next (issued .tx { s with data := some d })) ∧
      (s.seq = 4 → exec (.writereg ra d) s = .next (issued .stop s))) ∧
    (s.sub = true → s.phDone = true →
      (s.seq = 0 → exec (.writereg ra d) s = .next (wentOn 1 { s with phase := .started })) ∧
      (∀ st, s.status = some st → s.seq = 1 ∨ s.seq = 2 ∨ s.seq = 3 →
        (InWriteSet s.cfg st →
          exec (.writereg ra d) s = .next (wentOn (s.seq + 1) { s with ok := some true, phase := byteOk s.phase })) ∧
        (¬InWriteSet s.cfg st →
          exec (.writereg ra d) s = .next (ended { s with ok := some false, phase := .error }))) ∧
      (s.seq = 4 → exec (.writereg ra d) s = .next (ended { s with active := false, phase := .stopped })))

/-! ## What each command leaves unchanged -/

/-- INIT writes `DIV`, `EN`, `BUSY`, `SEQ` and `SUB` and nothing else (R140). -/
def Obligations.InitFrame : Prop :=
  ∀ s t : State, exec .init s = .next t →
    t.ir = s.ir ∧ t.ok = s.ok ∧ t.rdata = s.rdata ∧ t.acken = s.acken ∧ t.active = s.active ∧ t.phReq = s.phReq ∧
      t.phDone = s.phDone ∧ t.status = s.status ∧ t.data = s.data ∧ t.phase = s.phase ∧ t.cfg = s.cfg ∧
      t.schedule = s.schedule ∧ t.bus = s.bus ∧ ∀ a, memRead t.bus.dev.mem a = memRead s.bus.dev.mem a

/-- START and STOP leave the results `OK` and `RDATA`, the data and status registers, the enable, the divisor and every
device register unchanged (R144, R147). -/
def Obligations.StartStopFrame : Prop :=
  ∀ (i : Instr) (s t : State), i = .start ∨ i = .stop → exec i s = .next t →
    t.ir = s.ir ∧ t.ok = s.ok ∧ t.rdata = s.rdata ∧ t.en = s.en ∧ t.div = s.div ∧ t.acken = s.acken ∧
      t.status = s.status ∧ t.data = s.data ∧ t.cfg = s.cfg ∧ t.schedule = s.schedule ∧ t.bus = s.bus ∧
      ∀ a, memRead t.bus.dev.mem a = memRead s.bus.dev.mem a

/-- WRITEBYTE and WRITEREG leave `RDATA`, `ACKEN`, `STATUS`, the enable, the divisor and every device register
unchanged; a device stores a byte only in a BUS step. WRITEBYTE also leaves `ACTIVE` unchanged (R150, R175, R177). -/
def Obligations.WriteCommandsFrame : Prop :=
  ∀ (i : Instr) (s t : State), (∃ b, i = .writebyte b) ∨ (∃ ra d, i = .writereg ra d) → exec i s = .next t →
    t.ir = s.ir ∧ t.rdata = s.rdata ∧ t.en = s.en ∧ t.div = s.div ∧ t.acken = s.acken ∧ t.status = s.status ∧
      ((∃ b, i = .writebyte b) → t.active = s.active) ∧ t.cfg = s.cfg ∧ t.schedule = s.schedule ∧ t.bus = s.bus ∧
      ∀ a, memRead t.bus.dev.mem a = memRead s.bus.dev.mem a

/-- READBYTE and READREG leave `STATUS`, the enable, the divisor and every device register unchanged. READBYTE also
leaves `ACTIVE` and `DATA` unchanged, since only the BUS step writes the byte received (R155, R171). -/
def Obligations.ReadCommandsFrame : Prop :=
  ∀ (i : Instr) (s t : State), (∃ a, i = .readbyte a) ∨ (∃ ra, i = .readreg ra) → exec i s = .next t →
    t.ir = s.ir ∧ t.en = s.en ∧ t.div = s.div ∧ t.status = s.status ∧
      ((∃ a, i = .readbyte a) → t.active = s.active ∧ t.data = s.data) ∧ t.cfg = s.cfg ∧
      t.schedule = s.schedule ∧ t.bus = s.bus ∧ ∀ a, memRead t.bus.dev.mem a = memRead s.bus.dev.mem a

/-! ## The BUS agent -/

/-- R71: the BUS step writes any status, for `Rx` also any byte, and sets `PH_DONE`; it writes no other register. It is
enabled only for a phase handed over and not yet completed (R16); that any other turn of the BUS agent passes, as a next
state with the turn taken, is the model's choice (DESIGN CHOICE, notes/assumptions/1.md). -/
def Obligations.BusStepWrites : Prop :=
  (∀ (s : State) (m : Move) (rest : List Move),
    s.cfg.wf = true → s.schedule = m :: rest → isBusTurn m = true → s.phReq = .none ∨ s.phDone = true →
      step s = .next { s with schedule := rest }) ∧
  ∀ (s : State) (rest : List Move) (st d : Byte),
    s.cfg.wf = true → s.schedule = .bus st d :: rest → s.phReq ≠ .none → s.phDone = false →
    (s.phReq = .tx → s.data ≠ none) → (s.phReq = .rx → s.acken ≠ none) →
      ∃ t, step s = .next t ∧
        sameBlock
          { s with
            schedule := rest
            status := some st
            phDone := true
            data := if s.phReq = .rx then some d else s.data } t

/-- The reference device's answers to `Start`, `Stop` and `Rx` (R103, R105, R106; a fixture from general knowledge). -/
def Obligations.DeviceStartStopRx : Prop :=
  ∀ (s : State) (rest : List Move), s.cfg.wf = true → s.schedule = .busDevice :: rest → s.phDone = false →
    (∀ rep, s.phReq = .start rep →
      ∃ t, step s = .next t ∧ t.bus.dev = { s.bus.dev with mode := .awaitAddr } ∧
        sameBlock { s with schedule := rest, phDone := true, status := some (if rep then 0x10 else 0x08) } t) ∧
    (s.phReq = .stop →
      ∃ t, step s = .next t ∧ t.bus.dev = { s.bus.dev with mode := .idle } ∧
        sameBlock { s with schedule := rest, phDone := true, status := some 0xF8 } t) ∧
    (∀ a, s.phReq = .rx → s.acken = some a →
      ∃ t, step s = .next t ∧
        t.bus.dev =
          (if s.bus.dev.mode = .rd then
            { s.bus.dev with
              ptr := (s.bus.dev.ptr + 1) % s.cfg.devSize
              mode := if a then .rd else .off }
          else s.bus.dev) ∧
        sameBlock
          { s with
            schedule := rest
            phDone := true
            status := some (if a then s.cfg.stRxAck else s.cfg.stRxNack)
            data := some (if s.bus.dev.mode = .rd then memRead s.bus.dev.mem s.bus.dev.ptr else 0xFF) } t)

/-- The reference device's answer to `Tx`, by its mode (R104; a fixture from general knowledge). -/
def Obligations.DeviceTransmit : Prop :=
  ∀ (s : State) (rest : List Move) (b : Byte),
    s.cfg.wf = true → s.schedule = .busDevice :: rest → s.phDone = false → s.phReq = .tx → s.data = some b →
      ∃ t st, step s = .next t ∧ sameBlock { s with schedule := rest, phDone := true, status := some st } t ∧
        (s.bus.dev.mode = .awaitAddr → s.bus.dev.present = true → b.extractLsb' 1 7 = 0x68#7 →
          (b.getLsbD 0 = false → t.bus.dev = { s.bus.dev with mode := .wrPtr } ∧ st = s.cfg.stSlaWAck) ∧
          (b.getLsbD 0 = true → t.bus.dev = { s.bus.dev with mode := .rd } ∧ st = s.cfg.stSlaRAck)) ∧
        (s.bus.dev.mode = .awaitAddr → s.bus.dev.present = false ∨ b.extractLsb' 1 7 ≠ 0x68#7 →
          t.bus.dev = { s.bus.dev with mode := .off } ∧ st = if b.getLsbD 0 then 0x48 else 0x20) ∧
        (s.bus.dev.mode = .wrPtr →
          (s.bus.dev.nackPtr = false →
            t.bus.dev = { s.bus.dev with ptr := b.toNat % s.cfg.devSize, mode := .wrData } ∧
              st = s.cfg.stDataAck) ∧
          (s.bus.dev.nackPtr = true → t.bus.dev = { s.bus.dev with mode := .off } ∧ st = 0x30)) ∧
        (s.bus.dev.mode = .wrData →
          (s.bus.dev.nackData = false →
            t.bus.dev =
                { s.bus.dev with
                  mem := memWrite s.bus.dev.mem s.bus.dev.ptr b
                  ptr := (s.bus.dev.ptr + 1) % s.cfg.devSize } ∧
              st = s.cfg.stDataAck) ∧
          (s.bus.dev.nackData = true → t.bus.dev = { s.bus.dev with mode := .off } ∧ st = 0x30)) ∧
        (s.bus.dev.mode = .off → t.bus.dev = s.bus.dev ∧ st = 0x30) ∧
        (s.bus.dev.mode = .idle ∨ s.bus.dev.mode = .rd → t.bus.dev = s.bus.dev ∧ st = 0xF8)

/-- Device memory over one step of any agent: the one store is the reference device's, of a `Tx` byte in mode `WrData`
with no fault switch set, at the register pointer (R104); every other register of the device reads as before. That a free
turn or a wire turn which answers a data byte leaves the device's registers as they were is the model's choice (DESIGN
CHOICE, notes/assumptions/12.md). -/
def Obligations.DeviceMemoryFrame : Prop :=
  ∀ s t : State, Memory.wf s.bus.dev.mem = true → step s = .next t →
    (∀ rest b, s.schedule = .busDevice :: rest → s.phDone = false → s.phReq = .tx → s.data = some b →
      s.bus.dev.mode = .wrData → s.bus.dev.nackData = false →
        memRead t.bus.dev.mem s.bus.dev.ptr = b ∧
          ∀ a, a ≠ s.bus.dev.ptr → memRead t.bus.dev.mem a = memRead s.bus.dev.mem a) ∧
    (¬(∃ rest b, s.schedule = .busDevice :: rest ∧ s.phDone = false ∧ s.phReq = .tx ∧ s.data = some b ∧
      s.bus.dev.mode = .wrData ∧ s.bus.dev.nackData = false) →
        ∀ a, memRead t.bus.dev.mem a = memRead s.bus.dev.mem a)

/-- The wire level refines the phase level: one instant on the wires changes no register of the block, or does what a
BUS step of R71 with some byte and the status of R74 does: `ST_BUS_ERROR` when an illegal start or stop was seen in the
phase, else the row of the phase, a byte out acknowledged when the one level sampled is 0 (R95 to R101, from general
knowledge). What counts as illegal is the model's choice (DESIGN CHOICE, notes/assumptions/9.md). -/
def Obligations.WireInstantRefinesBusStep : Prop :=
  ∀ (s t : State) (others : Lines) (rest : List Move),
    s.schedule = .busWire others :: rest → step s = .next t →
      sameBlock { s with schedule := rest } t ∨
      ∃ p st d u, outstanding s = .ok (some p) ∧
        (let w := wireInstant p others s.bus.wire
         st = if w.illegal then 0x00 else phaseStatus s.cfg p (!s.bus.wire.byteSeen) (w.bits == [false])) ∧
        conforms s.cfg p (!s.bus.wire.byteSeen) st = true ∧
        step { s with schedule := .bus st d :: rest } = .next u ∧ sameBlock u t

/-- A byte out on the wires: bit `7 - i` is on SDA while SCL is released for the `i`-th time, most significant bit
first, and the acknowledge bit is what the other agents leave on SDA (R97, from general knowledge). -/
def Obligations.WireTransmitShiftsMsbFirst : Prop :=
  ∀ (b : Byte) (ackLevel : Bool) (w : WireState), w.todo = none → w.bits = [] →
    let others := List.replicate 33 (⟨true, true⟩ : Lines) ++ List.replicate 4 ⟨true, ackLevel⟩
    (∀ i, i < 8 → (wireRun (.tx b) (others.take (4 * i + 3)) w).drive = ⟨true, b.getLsbD (7 - i)⟩) ∧
    (wireRun (.tx b) others w).todo = some [] ∧ (wireRun (.tx b) others w).bits = [ackLevel] ∧
    (wireRun (.tx b) others w).drive = ⟨false, true⟩

/-- A byte in on the wires: the levels another agent leaves on SDA are the byte, most significant bit first, and the
master drives SDA low for ACK and releases it for NACK (R98, from general knowledge). -/
def Obligations.WireReceiveShiftsMsbFirst : Prop :=
  ∀ (d : Byte) (ack : Bool) (w : WireState), w.todo = none → w.bits = [] →
    let others :=
      (⟨true, true⟩ : Lines) ::
        ((bitsMsbFirst d).flatMap (fun level => List.replicate 4 ⟨true, level⟩) ++ List.replicate 5 ⟨true, true⟩)
    byteOfBits (wireRun (.rx ack) others w).bits = d ∧ (wireRun (.rx ack) others w).todo = some [] ∧
    (wireRun (.rx ack) (others.take 36) w).drive = ⟨true, !ack⟩ ∧
    (wireRun (.rx ack) others w).drive = ⟨false, true⟩

/-! ## Invariants and rules over the whole machine -/

/-- The invariant and the reference device's well-formedness hold after reset. -/
def Obligations.InvariantHoldsAtReset : Prop := Inv State.reset ∧ DeviceWf State.reset

/-- Every step of every agent keeps the invariant. -/
def Obligations.EveryStepKeepsInvariant : Prop := ∀ s t : State, Inv s → step s = .next t → Inv t

/-- Every step keeps the device's memory canonical and inside `DEV_SIZE`, and the pointer below it (R102). -/
def Obligations.EveryStepKeepsDeviceWf : Prop := ∀ s t : State, DeviceWf s → step s = .next t → DeviceWf t

/-- From a state that meets the invariant the block reads no register in state `undef` and finds no reserved word in
`IR`: a step stops only for a read by HOST of a result that is `undef` or for an input the spec refuses (R11, R236). -/
def Obligations.BlockNeverReadsUndef : Prop := ∀ s : State, Inv s → SafeStep s

/-- Only the BUS step writes `STATUS`, the reset event apart (R35). -/
def Obligations.OnlyBusWritesStatus : Prop :=
  ∀ s t : State, step s = .next t → t.status ≠ s.status →
    ∃ m rest, s.schedule = m :: rest ∧ (isBusTurn m = true ∨ m = .reset)

/-- R30: INIT sets `EN`; nothing clears it but reset; while `EN = 0` HOST may issue only INIT. -/
def Obligations.EnableWriters : Prop :=
  ∀ s t : State, step s = .next t →
    (s.en = true → t.en = false → ∃ rest, s.schedule = .reset :: rest) ∧
    (s.en = false → t.en = true → ∃ w, s.ir = some w ∧ decode w = .ok .init) ∧
    (s.en = false → ∀ w rest, s.schedule = .hostIssue w :: rest → decode w = .ok .init) ∧
    ∀ u v : State, exec .init u = .next v → v.en = true

/-- `ACTIVE` is set by the issue step of START alone and cleared by the completion step of STOP alone, the reset event
apart; a failure leaves it as it is (R31). -/
def Obligations.ActiveWriters : Prop :=
  ∀ s t : State, step s = .next t → t.active ≠ s.active →
    (∃ rest, s.schedule = .reset :: rest) ∨
    (s.busy = true ∧ s.sub = false ∧ t.sub = true ∧ t.phReq = .start false ∧ t.active = true) ∨
    (s.busy = true ∧ s.sub = true ∧ s.phDone = true ∧ t.active = false ∧ t.phase = .stopped)

/-- `RDATA` is written only while a READBYTE or READREG completes a phase, the reset event apart (R23). -/
def Obligations.RdataWriters : Prop :=
  ∀ s t : State, step s = .next t → t.rdata ≠ s.rdata →
    (∃ rest, s.schedule = .reset :: rest) ∨
    (s.busy = true ∧ s.sub = true ∧ s.phDone = true ∧
      ∃ w i, s.ir = some w ∧ decode w = .ok i ∧ ((∃ a, i = .readbyte a) ∨ ∃ ra, i = .readreg ra))

/-- `IR` is written only by HOST's issue step, the reset event apart; no step changes the configuration, and a step takes
the next turn of the schedule (R22, R40; the schedule is the model's own). -/
def Obligations.CommandAndInputsFrame : Prop :=
  ∀ s t : State, step s = .next t →
    t.cfg = s.cfg ∧ t.schedule = s.schedule.tail ∧
    (t.ir ≠ s.ir → ∃ m rest, s.schedule = m :: rest ∧ (m = .reset ∨ ∃ w, m = .hostIssue w ∧ t.ir = some w))

/-- `SEQ` only counts up by one and is cleared at the end of a command; the highest value reached is 6 (R25, R170), on
every turn of ENGINE, whether it stands in the schedule or the schedule has run out (notes/assumptions/1.md). -/
def Obligations.SequencerCountsUp : Prop :=
  ∀ s t : State, Inv s → s.busy = true → (s.schedule = [] ∨ ∃ rest, s.schedule = .engine :: rest) →
    step s = .next t →
    t.seq.toNat ≤ 6 ∧ (t.seq = s.seq ∨ t.seq.toNat = s.seq.toNat + 1 ∨ (t.seq = 0 ∧ t.busy = false))

/-- At most one phase is outstanding: a phase is handed over only with `PH_REQ = None`, and a handed-over phase is
replaced only after it has completed, the reset event apart (R72). -/
def Obligations.AtMostOnePhaseOutstanding : Prop :=
  ∀ s t : State, Inv s → step s = .next t → t.phReq ≠ s.phReq → (∀ rest, s.schedule ≠ .reset :: rest) →
    (s.phReq = .none ∧ s.phDone = false ∧ t.phDone = false) ∨ (s.phDone = true ∧ t.phReq = .none)

/-- R37, R36: the ghost register and the divisor are read by no rule: from two states that differ only in `PHASE` and
`DIV`, runs of any length end alike, with the same values in every other register. -/
def Obligations.GhostPhaseAndDivisorAreNeverRead : Prop :=
  ∀ (k : Nat) (s : State) (p : BusState) (d : Option Byte),
    mapNext (fun t => { t with phase := .idle, div := none }) (run k { s with phase := p, div := d }) =
      mapNext (fun t => { t with phase := .idle, div := none }) (run k s)

/-- The result does not say why: a completion step on two statuses that are both outside both accept sets ends alike in
every register but `STATUS` (R181). -/
def Obligations.FailureHidesItsCause : Prop :=
  ∀ (i : Instr) (s : State) (st₁ st₂ : Byte),
    ¬InWriteSet s.cfg st₁ → ¬InReadSet s.cfg st₁ → ¬InWriteSet s.cfg st₂ → ¬InReadSet s.cfg st₂ →
      mapNext (fun t => { t with status := none }) (exec i { s with status := some st₁ }) =
        mapNext (fun t => { t with status := none }) (exec i { s with status := some st₂ })

/-! ## Whole commands -/

/-- A primitive command as one transition (R161): issued, answered by BUS with any status and any byte, and completed. -/
def Obligations.PrimitiveCommandBigStep : Prop :=
  ∀ (i : Instr) (p : Primitive) (a : BusAnswer) (s : State) (rest : List Move),
    primitiveOf i = some p → s.cfg.wf = true → s.busy = false → s.en = true →
    s.schedule = commandTurns i [a] ++ rest →
      ∃ t, run 4 s = .next t ∧
        sameBlock (finish { primitiveOutcome p a s with ir := some (encode i), schedule := rest }) t

/-- A register transaction is the walk of its step table over the BUS agent's answers, whatever they are: after the issue
step and three turns for each phase the walk takes, the machine is where the walk ends (R170, R171, R175). -/
def Obligations.TransactionIsTableWalk : Prop :=
  ∀ (i : Instr) (answers : List BusAnswer) (s : State) (rest : List Move),
    (∃ ra, i = .readreg ra) ∨ (∃ ra d, i = .writereg ra d) → s.cfg.wf = true → s.busy = false → s.en = true →
    let walk := walkTable (tableOf i) answers (latchCommand (encode i) s)
    s.schedule = commandTurns i (answers.take walk.2) ++ rest →
      ∃ t, run (1 + 3 * walk.2) s = .next t ∧ sameBlock { walk.1 with schedule := rest } t

/-- Liveness of a register transaction whose phases BUS answers: with seven answers at hand every READREG and WRITEREG
ends within its answers, with `BUSY = 0` and a result in `OK` (R220; it hangs only if BUS does not answer). -/
def Obligations.AnsweredTransactionsEnd : Prop :=
  ∀ (i : Instr) (answers : List BusAnswer) (s : State),
    (∃ ra, i = .readreg ra) ∨ (∃ ra d, i = .writereg ra d) → answers.length = 7 → s.cfg.wf = true →
    s.busy = false → s.en = true →
      ∃ n t, 2 ≤ n ∧ n ≤ 7 ∧
        run (1 + 3 * n) { s with schedule := commandTurns i (answers.take n) } = .next t ∧
        t.busy = false ∧ t.seq = 0 ∧ t.sub = false ∧ t.phReq = .none ∧ t.ok ≠ none

/-- READREG when every step succeeds (R171): the byte received is the result, and the transaction reached its stop. -/
def Obligations.ReadregSuccess : Prop :=
  ∀ (ra d d₀ d₁ d₂ d₃ d₄ d₆ st₀ st₁ st₂ st₃ st₄ st₅ st₆ : Byte) (s : State) (rest : List Move),
    s.cfg.wf = true → s.busy = false → s.en = true →
    InWriteSet s.cfg st₁ → InWriteSet s.cfg st₂ → InWriteSet s.cfg st₄ → InReadSet s.cfg st₅ →
    s.schedule =
      commandTurns (.readreg ra)
        [⟨st₀, d₀⟩, ⟨st₁, d₁⟩, ⟨st₂, d₂⟩, ⟨st₃, d₃⟩, ⟨st₄, d₄⟩, ⟨st₅, d⟩, ⟨st₆, d₆⟩] ++ rest →
      ∃ t, run 22 s = .next t ∧
        sameBlock
          { s with
            ir := some (encode (.readreg ra))
            busy := false
            ok := some true
            rdata := some d
            seq := 0
            sub := false
            acken := some false
            active := false
            phReq := .none
            phDone := false
            status := some st₆
            data := some d
            phase := .stopped
            schedule := rest } t

/-- R172: READREG's failure paths. After a failed `P_TX` step no later phase is issued, in particular no stop: the
command has ended with the schedule's later turns untaken. After a failed read the stop is sent. -/
def Obligations.ReadregFailurePaths : Prop :=
  ∀ (ra : Byte) (a₀ a₁ a₂ a₃ a₄ a₅ a₆ : BusAnswer) (s : State) (rest : List Move),
    s.cfg.wf = true → s.busy = false → s.en = true →
    let failed (t : State) := t.ok = some false ∧ t.rdata = none ∧ t.active = true ∧ t.phase = .error ∧
      t.busy = false ∧ t.phReq = .none ∧ t.schedule = rest
    (¬InWriteSet s.cfg a₁.status → s.schedule = commandTurns (.readreg ra) [a₀, a₁] ++ rest →
      ∃ t, run 7 s = .next t ∧ failed t) ∧
    (InWriteSet s.cfg a₁.status → ¬InWriteSet s.cfg a₂.status →
      s.schedule = commandTurns (.readreg ra) [a₀, a₁, a₂] ++ rest → ∃ t, run 10 s = .next t ∧ failed t) ∧
    (InWriteSet s.cfg a₁.status → InWriteSet s.cfg a₂.status → ¬InWriteSet s.cfg a₄.status →
      s.schedule = commandTurns (.readreg ra) [a₀, a₁, a₂, a₃, a₄] ++ rest →
      ∃ t, run 16 s = .next t ∧ failed t) ∧
    (InWriteSet s.cfg a₁.status → InWriteSet s.cfg a₂.status → InWriteSet s.cfg a₄.status →
      ¬InReadSet s.cfg a₅.status →
      s.schedule = commandTurns (.readreg ra) [a₀, a₁, a₂, a₃, a₄, a₅, a₆] ++ rest →
      ∃ t, run 22 s = .next t ∧ t.ok = some false ∧ t.rdata = none ∧ t.active = false ∧ t.phase = .stopped ∧
        t.busy = false ∧ t.phReq = .none ∧ t.schedule = rest)

/-- WRITEREG when every step succeeds (R175): `OK = 1`, `RDATA` unchanged, and the transaction reached its stop. -/
def Obligations.WriteregSuccess : Prop :=
  ∀ (ra d d₀ d₁ d₂ d₃ d₄ st₀ st₁ st₂ st₃ st₄ : Byte) (s : State) (rest : List Move),
    s.cfg.wf = true → s.busy = false → s.en = true →
    InWriteSet s.cfg st₁ → InWriteSet s.cfg st₂ → InWriteSet s.cfg st₃ →
    s.schedule =
      commandTurns (.writereg ra d) [⟨st₀, d₀⟩, ⟨st₁, d₁⟩, ⟨st₂, d₂⟩, ⟨st₃, d₃⟩, ⟨st₄, d₄⟩] ++ rest →
      ∃ t, run 16 s = .next t ∧
        sameBlock
          { s with
            ir := some (encode (.writereg ra d))
            busy := false
            ok := some true
            seq := 0
            sub := false
            active := false
            phReq := .none
            phDone := false
            status := some st₄
            data := some d
            phase := .stopped
            schedule := rest } t

/-- R176: WRITEREG's failure paths: the first `P_TX` step that fails ends the command, and no stop is sent. -/
def Obligations.WriteregFailurePaths : Prop :=
  ∀ (ra d : Byte) (a₀ a₁ a₂ a₃ : BusAnswer) (s : State) (rest : List Move),
    s.cfg.wf = true → s.busy = false → s.en = true →
    let failed (t : State) := t.ok = some false ∧ t.rdata = s.rdata ∧ t.active = true ∧ t.phase = .error ∧
      t.busy = false ∧ t.phReq = .none ∧ t.schedule = rest
    (¬InWriteSet s.cfg a₁.status → s.schedule = commandTurns (.writereg ra d) [a₀, a₁] ++ rest →
      ∃ t, run 7 s = .next t ∧ failed t) ∧
    (InWriteSet s.cfg a₁.status → ¬InWriteSet s.cfg a₂.status →
      s.schedule = commandTurns (.writereg ra d) [a₀, a₁, a₂] ++ rest → ∃ t, run 10 s = .next t ∧ failed t) ∧
    (InWriteSet s.cfg a₁.status → InWriteSet s.cfg a₂.status → ¬InWriteSet s.cfg a₃.status →
      s.schedule = commandTurns (.writereg ra d) [a₀, a₁, a₂, a₃] ++ rest →
      ∃ t, run 13 s = .next t ∧ failed t)

/-- R226: the hang. While BUS does not take its step for the outstanding phase the block stays at the completion step,
however long ENGINE spins and HOST polls `BUSY`; and every issue step of every command leads to such a state. -/
def Obligations.UnansweredPhaseHangs : Prop :=
  (∀ (k : Nat) (s : State) (w : Command) (i : Instr),
    s.cfg.wf = true → s.busy = true → s.ir = some w → decode w = .ok i → i ≠ .init → s.sub = true →
    s.phReq ≠ .none → s.phDone = false → (∀ m ∈ s.schedule, m = .engine ∨ m = .hostRead .busy) →
      run k s = .next { s with schedule := s.schedule.drop k }) ∧
  ∀ (i : Instr) (s : State) (r : TableRow), rowAt i s.seq = some r → s.sub = false →
    ∃ t, exec i s = .next t ∧ t.busy = s.busy ∧ t.ir = s.ir ∧ t.sub = true ∧ t.phReq ≠ .none ∧ t.phDone = false

/-- READREG and WRITEREG add nothing to the primitives (R180): on the same answers HOST's sequence of primitive commands,
stopped at the first WRITEBYTE that fails, and for READREG with `RDATA` then taken as `undef`, ends in the same registers
but `IR`. -/
def Obligations.TransactionsAreTheirPrimitives : Prop :=
  (∀ (ra : Byte) (answers : List BusAnswer) (s : State),
    s.cfg.wf = true → s.busy = false → s.en = true → answers.length = 7 →
    let n := (walkTable (readregTable ra) answers (latchCommand (encode (.readreg ra)) s)).2
    ∃ t u,
      run (1 + 3 * n) { s with schedule := commandTurns (.readreg ra) (answers.take n) } = .next t ∧
      run (4 * n) { s with schedule := sequenceTurns ((readregPrimitives ra).take n) (answers.take n) } = .next u ∧
      sameBlock { t with ir := none } { u with ir := none, rdata := if n = 7 then u.rdata else none }) ∧
  ∀ (ra d : Byte) (answers : List BusAnswer) (s : State),
    s.cfg.wf = true → s.busy = false → s.en = true → answers.length = 5 →
    let n := (walkTable (writeregTable ra d) answers (latchCommand (encode (.writereg ra d)) s)).2
    ∃ t u,
      run (1 + 3 * n) { s with schedule := commandTurns (.writereg ra d) (answers.take n) } = .next t ∧
      run (4 * n) { s with schedule := sequenceTurns ((writeregPrimitives ra d).take n) (answers.take n) } = .next u ∧
      sameBlock { t with ir := none } { u with ir := none }

/-- On the reference device a READREG that follows a WRITEREG to the same register returns the byte written (R83, V-D24;
a property of the device, a fixture). -/
def Obligations.DeviceReturnsTheByteWritten : Prop :=
  ∀ (ra d : Byte) (s : State) (rest : List Move),
    s.cfg.wf = true → DeviceWf s → s.busy = false → s.en = true → s.bus.dev.present = true →
    s.bus.dev.nackPtr = false → s.bus.dev.nackData = false →
    s.schedule = commandTurnsDevice (.writereg ra d) 5 ++ commandTurnsDevice (.readreg ra) 7 ++ rest →
      ∃ t, run 38 s = .next t ∧ t.ok = some true ∧ t.rdata = some d ∧ t.active = false ∧ t.phase = .stopped ∧
        t.schedule = rest ∧ memRead t.bus.dev.mem (ra.toNat % s.cfg.devSize) = d

/-- Idempotence of a register read on the reference device (R173 (f), V-S6): two READREG of one register with nothing
between return the same byte, the one the register holds, and change no register of the device (R70). -/
def Obligations.DeviceReadsAreIdempotent : Prop :=
  ∀ (ra : Byte) (s : State) (rest : List Move),
    s.cfg.wf = true → s.busy = false → s.en = true → s.bus.dev.present = true → s.bus.dev.nackPtr = false →
    s.schedule = commandTurnsDevice (.readreg ra) 7 ++ (commandTurnsDevice (.readreg ra) 7 ++ rest) →
      ∃ t u, run 22 s = .next t ∧ run 22 t = .next u ∧ t.ok = some true ∧ u.ok = some true ∧
        t.rdata = some (memRead s.bus.dev.mem (ra.toNat % s.cfg.devSize)) ∧ u.rdata = t.rdata ∧
        u.bus.dev.mem = s.bus.dev.mem

/-! ## The companion codec -/

/-- The codec's round trip (R199): decoding the encoded bytes gives an equal ClockValue, whatever register `0x03` holds. -/
def Obligations.ClockCodecRoundTrip : Prop :=
  ∀ c : ClockValue, clockInDomain c = true →
    ∃ b, encodeClock c = some b ∧ ∀ r3 : Byte, clockEq (decodeClock b.r0 b.r1 b.r2 r3 b.r4 b.r5 b.r6) c = true

/-- R191, R192, R196, R198: the five BCD fields. Decoding masks the tens digit of each field to its width and rejects
nothing. Encoding a value whose fields are all in range splits each into tens and ones, with bit 7 of the seconds register
0; with a field out of its range, and always from 100 up, the codec refuses. The widths and the form of the refusal are
PRESUMED (notes/assumptions/20.md). -/
def Obligations.BcdFields : Prop :=
  (∀ (v : Byte) (w : Nat), bcdDec v w = v.toNat / 16 % 2 ^ w * 10 + v.toNat % 16) ∧
  (∀ r0 r1 r2 r3 r4 r5 r6 : Byte,
    let c := decodeClock r0 r1 r2 r3 r4 r5 r6
    c.second = r0.toNat / 16 % 8 * 10 + r0.toNat % 16 ∧ c.minute = r1.toNat / 16 % 8 * 10 + r1.toNat % 16 ∧
      c.day = r4.toNat / 16 % 4 * 10 + r4.toNat % 16 ∧ c.month = r5.toNat / 16 % 2 * 10 + r5.toNat % 16 ∧
      c.year = 2000 + (r6.toNat / 16 * 10 + r6.toNat % 16)) ∧
  (∀ n, n < 100 → (bcdEnc n).toNat = n / 10 * 16 + n % 10) ∧
  (∀ lo hi n, 100 ≤ n → encodeField lo hi n = none) ∧
  (∀ c : ClockValue, c.second ≤ 59 → c.minute ≤ 59 → 1 ≤ c.day → c.day ≤ 31 → 1 ≤ c.month → c.month ≤ 12 →
    2000 ≤ c.year → c.year ≤ 2099 → c.hour ≤ (if c.h12 then 12 else 23) →
      ∃ b, encodeClock c = some b ∧ b.r0.toNat = c.second / 10 * 16 + c.second % 10 ∧ b.r0.getLsbD 7 = false ∧
        b.r1.toNat = c.minute / 10 * 16 + c.minute % 10 ∧ b.r4.toNat = c.day / 10 * 16 + c.day % 10 ∧
        b.r5.toNat = c.month / 10 * 16 + c.month % 10 ∧
        b.r6.toNat = (c.year - 2000) / 10 * 16 + (c.year - 2000) % 10) ∧
  ∀ c : ClockValue,
    59 < c.second ∨ 59 < c.minute ∨ c.day < 1 ∨ 31 < c.day ∨ c.month < 1 ∨ 12 < c.month ∨ c.year < 2000 ∨
      2099 < c.year ∨ (if c.h12 then 12 else 23) < c.hour →
    encodeClock c = none

/-- R194, R195, R197: the irregular hours field and the year's offset from 2000, their decoding, their encoding, and the
values the codec refuses. That bit 5 set means PM is PRESUMED (notes/assumptions/20.md; R194 says that the polarity is not
in the source), and `pm = 0` in 24-hour mode is a choice R194 marks as the spec's own. -/
def Obligations.HoursAndYearFields : Prop :=
  (∀ v : Byte, yearDecode v = 2000 + bcdDec v 4) ∧
  (∀ y, (2000 ≤ y → y ≤ 2099 → yearEncode y = some (bcdEnc (y - 2000))) ∧
    (y < 2000 ∨ 2099 < y → yearEncode y = none)) ∧
  (∀ v : Byte,
    (v.getLsbD 6 = true → hoursDecode v = ⟨v.toNat / 16 % 2 * 10 + v.toNat % 16, v.getLsbD 5, true⟩) ∧
    (v.getLsbD 6 = false → hoursDecode v = ⟨v.toNat / 16 % 4 * 10 + v.toNat % 16, false, false⟩)) ∧
  ∀ (hour : Nat) (pm : Bool),
    (hour ≤ 12 → ∃ v, hoursEncode ⟨hour, pm, true⟩ = some v ∧
      v.toNat = 64 + (if pm then 32 else 0) + hour / 10 * 16 + hour % 10) ∧
    (12 < hour → hoursEncode ⟨hour, pm, true⟩ = none) ∧
    (hour ≤ 23 → ∃ v, hoursEncode ⟨hour, pm, false⟩ = some v ∧ v.toNat = hour / 10 * 16 + hour % 10) ∧
    (23 < hour → hoursEncode ⟨hour, pm, false⟩ = none)
end

