-- ==== Sys2Proof/Laws/Encoding.lean ====
section
/-! SUPPORT. The fields of a word and the word of three fields (R111), what each format's decoding says, and the digits of
the command syntax (R121). -/

namespace Sys2Proof

@[simp] theorem opField_word (op a b : Byte) : opField (word op a b) = op := by
  ext i hi
  simp only [opField, word, BitVec.getElem_extractLsb', BitVec.getLsbD_append]
  simp [show ¬(16 + i < 8) by omega, show 16 + i - 8 = i + 8 by omega, hi]

@[simp] theorem aField_word (op a b : Byte) : aField (word op a b) = a := by
  ext i hi
  simp only [aField, word, BitVec.getElem_extractLsb', BitVec.getLsbD_append]
  simp [show ¬(8 + i < 8) by omega, show 8 + i - 8 = i by omega, hi]

@[simp] theorem bField_word (op a b : Byte) : bField (word op a b) = b := by
  ext i hi
  simp only [bField, word, BitVec.getElem_extractLsb', BitVec.getLsbD_append]
  simp [hi]

/-- A word is the word of its three fields. -/
theorem word_fields (w : Command) : word (opField w) (aField w) (bField w) = w := by
  apply BitVec.eq_of_getLsbD_eq
  intro i hi
  simp only [word, opField, aField, bField, BitVec.getLsbD_append, BitVec.getLsbD_extractLsb']
  rcases Nat.lt_or_ge i 8 with h | h
  · simp [h]
  · rcases Nat.lt_or_ge (i - 8) 8 with h' | h'
    · simp [show ¬(i < 8) by omega, h', show 8 + (i - 8) = i by omega]
    · simp [show ¬(i < 8) by omega, show ¬(i - 8 < 8) by omega, show 16 + (i - 8 - 8) = i by omega,
        show i - 8 - 8 < 8 by omega]

theorem formatN_ok {w : Command} {i j : Instr} (h : formatN w i = .ok j) :
    aField w = 0 ∧ bField w = 0 ∧ j = i := by
  unfold formatN at h
  split at h
  · cases h
  · split at h
    · cases h
    · simp_all

theorem formatA_ok {w : Command} {f : Byte → Instr} {j : Instr} (h : formatA w f = .ok j) :
    bField w = 0 ∧ j = f (aField w) := by
  unfold formatA at h
  split at h
  · cases h
  · simp_all

theorem formatF_ok {w : Command} {f : Bool → Instr} {j : Instr} (h : formatF w f = .ok j) :
    (aField w).extractLsb' 1 7 = 0 ∧ bField w = 0 ∧ j = f ((aField w).getLsbD 0) := by
  unfold formatF at h
  split at h
  · cases h
  · split at h
    · cases h
    · simp_all

/-- What a decoded word can be: one of the seven opcodes, with the fields its format asks for (R112, R113). -/
theorem decode_ok {w : Command} {i : Instr} (h : decode w = .ok i) :
    (opField w = 0x01 ∧ aField w = 0 ∧ bField w = 0 ∧ i = .init) ∨
    (opField w = 0x02 ∧ aField w = 0 ∧ bField w = 0 ∧ i = .start) ∨
    (opField w = 0x03 ∧ aField w = 0 ∧ bField w = 0 ∧ i = .stop) ∨
    (opField w = 0x04 ∧ bField w = 0 ∧ i = .writebyte (aField w)) ∨
    (opField w = 0x05 ∧ (aField w).extractLsb' 1 7 = 0 ∧ bField w = 0 ∧ i = .readbyte ((aField w).getLsbD 0)) ∨
    (opField w = 0x10 ∧ bField w = 0 ∧ i = .readreg (aField w)) ∨
    (opField w = 0x11 ∧ i = .writereg (aField w) (bField w)) := by
  have ofNat : ∀ {n : Nat}, (opField w).toNat = n → opField w = BitVec.ofNat 8 n := by
    intro n hn
    rw [← hn, BitVec.ofNat_toNat, BitVec.setWidth_eq]
  unfold decode at h
  split at h
  · next ho => exact .inl ⟨ofNat ho, formatN_ok h⟩
  · next ho => exact .inr (.inl ⟨ofNat ho, formatN_ok h⟩)
  · next ho => exact .inr (.inr (.inl ⟨ofNat ho, formatN_ok h⟩))
  · next ho => exact .inr (.inr (.inr (.inl ⟨ofNat ho, formatA_ok h⟩)))
  · next ho => exact .inr (.inr (.inr (.inr (.inl ⟨ofNat ho, formatF_ok h⟩))))
  · next ho => exact .inr (.inr (.inr (.inr (.inr (.inl ⟨ofNat ho, formatA_ok h⟩)))))
  · next ho =>
    refine .inr (.inr (.inr (.inr (.inr (.inr ⟨ofNat ho, ?_⟩)))))
    simpa [formatAB] using h.symm
  · cases h

end Sys2Proof

namespace Sys2Proof.Machine

/-- A digit written reads back as its value (R121). -/
theorem hexValue_hexDigit : ∀ n, n < 16 → hexValue (hexDigit n) = some n := by decide

/-- A digit is no separator of the command syntax and begins no comment. -/
theorem hexDigit_ne_separator :
    ∀ n, n < 16 → hexDigit n ≠ ' ' ∧ hexDigit n ≠ ',' ∧ hexDigit n ≠ ';' := by decide

/-- A byte operand written reads back as the byte (R121). -/
theorem readByteOperand_hexByte (b : Byte) : readByteOperand (hexByte b) = some b := by
  have hb := b.isLt
  simp only [readByteOperand, hexByte, hexValue_hexDigit _ (show b.toNat / 16 < 16 by omega),
    hexValue_hexDigit _ (show b.toNat % 16 < 16 by omega)]
  simp [show b.toNat / 16 * 16 + b.toNat % 16 = b.toNat by omega]

end Sys2Proof.Machine
end

