-- ==== Sys2Proof/Laws/Memory.lean ====
section
/-! SUPPORT. The laws of the device memory: a read after a write, and the canonical form that every write keeps. -/

namespace Sys2Proof.Machine

theorem wfAbove_mono {lo hi : Nat} (h : lo ≤ hi) {m : Memory} (hm : Memory.wfAbove hi m = true) :
    Memory.wfAbove lo m = true := by
  cases m with
  | nil => rfl
  | cons c rest =>
    obtain ⟨x, v⟩ := c
    simp only [Memory.wfAbove, Bool.and_eq_true, decide_eq_true_eq] at hm ⊢
    exact ⟨⟨by omega, hm.1.2⟩, hm.2⟩

theorem wf_of_wfAbove {lo : Nat} {m : Memory} (hm : Memory.wfAbove lo m = true) : Memory.wf m = true := by
  cases m with
  | nil => rfl
  | cons c rest =>
    obtain ⟨x, v⟩ := c
    simp only [Memory.wfAbove, Bool.and_eq_true] at hm
    simp only [Memory.wf, Bool.and_eq_true]
    exact ⟨hm.1.2, hm.2⟩

/-- An address not above `lo` is unlisted in a memory above `lo`. -/
theorem memRead_below {lo : Nat} {m : Memory} (hm : Memory.wfAbove lo m = true) {a : Nat} (h : a ≤ lo) :
    memRead m a = unlistedByte := by
  induction m generalizing lo with
  | nil => rfl
  | cons c rest ih =>
    obtain ⟨x, v⟩ := c
    simp only [Memory.wfAbove, Bool.and_eq_true, decide_eq_true_eq] at hm
    rw [memRead, if_neg (by omega)]
    exact ih hm.2 (by omega)

theorem wfAbove_memWrite {lo : Nat} {m : Memory} (hm : Memory.wfAbove lo m = true) {a : Nat} (h : lo < a) (b : Byte) :
    Memory.wfAbove lo (memWrite m a b) = true := by
  induction m generalizing lo with
  | nil =>
    simp only [memWrite]
    split
    · rfl
    · simp_all [Memory.wfAbove]
  | cons c rest ih =>
    obtain ⟨x, v⟩ := c
    simp only [Memory.wfAbove, Bool.and_eq_true, decide_eq_true_eq] at hm
    simp only [memWrite]
    split
    · split <;> simp_all [Memory.wfAbove]
    · split
      · split
        · exact wfAbove_mono (by omega) hm.2
        · simp_all [Memory.wfAbove]
      · simp only [Memory.wfAbove, Bool.and_eq_true, decide_eq_true_eq]
        exact ⟨hm.1, ih hm.2 (by omega)⟩

/-- Every write keeps the canonical form. -/
theorem memWrite_wf {m : Memory} (hm : Memory.wf m = true) (a : Nat) (b : Byte) :
    Memory.wf (memWrite m a b) = true := by
  cases m with
  | nil => simp only [memWrite]; split <;> simp_all [Memory.wf, Memory.wfAbove]
  | cons c rest =>
    obtain ⟨x, v⟩ := c
    simp only [Memory.wf, Bool.and_eq_true] at hm
    simp only [memWrite]
    split
    · split <;> simp_all [Memory.wf, Memory.wfAbove]
    · split
      · split
        · exact wf_of_wfAbove hm.2
        · simp_all [Memory.wf]
      · simp only [Memory.wf, Bool.and_eq_true]
        exact ⟨hm.1, wfAbove_memWrite hm.2 (by omega) b⟩

/-- A read of another address is not changed by a write. -/
theorem memRead_memWrite_of_ne (m : Memory) {a a' : Nat} (h : a' ≠ a) (b : Byte) :
    memRead (memWrite m a b) a' = memRead m a' := by
  induction m with
  | nil =>
    simp only [memWrite]
    split
    · rfl
    · simp [memRead, h.symm]
  | cons c rest ih =>
    obtain ⟨x, v⟩ := c
    simp only [memWrite]
    split
    · split
      · rfl
      · simp [memRead, h.symm]
    · split
      · next hax =>
        subst hax
        split <;> simp [memRead, h.symm]
      · simp only [memRead, ih]

theorem memRead_memWrite_self_above {lo : Nat} {m : Memory} (hm : Memory.wfAbove lo m = true) (a : Nat) (b : Byte) :
    memRead (memWrite m a b) a = b := by
  induction m generalizing lo with
  | nil =>
    simp only [memWrite]
    split
    · next hb => rw [memRead, hb]
    · simp [memRead]
  | cons c rest ih =>
    obtain ⟨x, v⟩ := c
    simp only [Memory.wfAbove, Bool.and_eq_true, decide_eq_true_eq] at hm
    simp only [memWrite]
    split
    · next hax =>
      split
      · next hb =>
        rw [memRead, if_neg (by omega), hb]
        exact memRead_below hm.2 (by omega)
      · simp [memRead]
    · split
      · next hax =>
        subst hax
        split
        · next hb => rw [hb]; exact memRead_below hm.2 (Nat.le_refl _)
        · simp [memRead]
      · next hx =>
        rw [memRead, if_neg (fun h => hx h.symm)]
        exact ih hm.2

/-- A read after a write to the same address gives the byte written. -/
theorem memRead_memWrite_self {m : Memory} (hm : Memory.wf m = true) (a : Nat) (b : Byte) :
    memRead (memWrite m a b) a = b := by
  cases m with
  | nil =>
    simp only [memWrite]
    split
    · next hb => rw [memRead, hb]
    · simp [memRead]
  | cons c rest =>
    obtain ⟨x, v⟩ := c
    simp only [Memory.wf, Bool.and_eq_true] at hm
    simp only [memWrite]
    split
    · next hax =>
      split
      · next hb =>
        rw [memRead, if_neg (by omega), hb]
        exact memRead_below hm.2 (by omega)
      · simp [memRead]
    · split
      · next hax =>
        subst hax
        split
        · next hb => rw [hb]; exact memRead_below hm.2 (Nat.le_refl _)
        · simp [memRead]
      · next hx =>
        rw [memRead, if_neg (fun h => hx h.symm)]
        exact memRead_memWrite_self_above hm.2 a b

/-- The entries of a memory after a write are the old ones and the byte written. -/
theorem mem_memWrite {m : Memory} {a : Nat} {b : Byte} {c : Host.Cell} (h : c ∈ memWrite m a b) :
    c ∈ m ∨ c.1 = a := by
  induction m with
  | nil =>
    simp only [memWrite] at h
    split at h
    · simp at h
    · simp_all
  | cons d rest ih =>
    obtain ⟨x, v⟩ := d
    simp only [memWrite] at h
    split at h
    · split at h
      · exact .inl h
      · rcases List.mem_cons.1 h with rfl | h
        · exact .inr rfl
        · exact .inl h
    · split at h
      · split at h
        · exact .inl (List.mem_cons_of_mem _ h)
        · rcases List.mem_cons.1 h with rfl | h
          · exact .inr rfl
          · exact .inl (List.mem_cons_of_mem _ h)
      · rcases List.mem_cons.1 h with rfl | h
        · exact .inl (List.mem_cons_self ..)
        · rcases ih h with h | h
          · exact .inl (List.mem_cons_of_mem _ h)
          · exact .inr h

end Sys2Proof.Machine
end

