-- ==== Sys2Proof/Laws/State.lean ====
section
/-! SUPPORT. One lemma per field and named update, each true by unfolding, so that no proof unfolds a record update. -/

namespace Sys2Proof.Machine

@[simp] theorem issue_ir (req : PhReq) (s : State) : (issue req s).ir = s.ir := rfl
@[simp] theorem issue_busy (req : PhReq) (s : State) : (issue req s).busy = s.busy := rfl
@[simp] theorem issue_ok (req : PhReq) (s : State) : (issue req s).ok = s.ok := rfl
@[simp] theorem issue_rdata (req : PhReq) (s : State) : (issue req s).rdata = s.rdata := rfl
@[simp] theorem issue_seq (req : PhReq) (s : State) : (issue req s).seq = s.seq := rfl
@[simp] theorem issue_sub (req : PhReq) (s : State) : (issue req s).sub = s.sub := rfl
@[simp] theorem issue_en (req : PhReq) (s : State) : (issue req s).en = s.en := rfl
@[simp] theorem issue_div (req : PhReq) (s : State) : (issue req s).div = s.div := rfl
@[simp] theorem issue_acken (req : PhReq) (s : State) : (issue req s).acken = s.acken := rfl
@[simp] theorem issue_active (req : PhReq) (s : State) : (issue req s).active = s.active := rfl
@[simp] theorem issue_phReq (req : PhReq) (s : State) : (issue req s).phReq = req := rfl
@[simp] theorem issue_phDone (req : PhReq) (s : State) : (issue req s).phDone = false := rfl
@[simp] theorem issue_status (req : PhReq) (s : State) : (issue req s).status = s.status := rfl
@[simp] theorem issue_data (req : PhReq) (s : State) : (issue req s).data = s.data := rfl
@[simp] theorem issue_phase (req : PhReq) (s : State) : (issue req s).phase = s.phase := rfl
@[simp] theorem issue_cfg (req : PhReq) (s : State) : (issue req s).cfg = s.cfg := rfl
@[simp] theorem issue_schedule (req : PhReq) (s : State) : (issue req s).schedule = s.schedule := rfl
@[simp] theorem issue_bus (req : PhReq) (s : State) : (issue req s).bus = s.bus := rfl

@[simp] theorem retire_ir (s : State) : (retire s).ir = s.ir := rfl
@[simp] theorem retire_busy (s : State) : (retire s).busy = s.busy := rfl
@[simp] theorem retire_ok (s : State) : (retire s).ok = s.ok := rfl
@[simp] theorem retire_rdata (s : State) : (retire s).rdata = s.rdata := rfl
@[simp] theorem retire_seq (s : State) : (retire s).seq = s.seq := rfl
@[simp] theorem retire_sub (s : State) : (retire s).sub = s.sub := rfl
@[simp] theorem retire_en (s : State) : (retire s).en = s.en := rfl
@[simp] theorem retire_div (s : State) : (retire s).div = s.div := rfl
@[simp] theorem retire_acken (s : State) : (retire s).acken = s.acken := rfl
@[simp] theorem retire_active (s : State) : (retire s).active = s.active := rfl
@[simp] theorem retire_phReq (s : State) : (retire s).phReq = .none := rfl
@[simp] theorem retire_phDone (s : State) : (retire s).phDone = false := rfl
@[simp] theorem retire_status (s : State) : (retire s).status = s.status := rfl
@[simp] theorem retire_data (s : State) : (retire s).data = s.data := rfl
@[simp] theorem retire_phase (s : State) : (retire s).phase = s.phase := rfl
@[simp] theorem retire_cfg (s : State) : (retire s).cfg = s.cfg := rfl
@[simp] theorem retire_schedule (s : State) : (retire s).schedule = s.schedule := rfl
@[simp] theorem retire_bus (s : State) : (retire s).bus = s.bus := rfl

@[simp] theorem finish_ir (s : State) : (finish s).ir = s.ir := rfl
@[simp] theorem finish_busy (s : State) : (finish s).busy = false := rfl
@[simp] theorem finish_ok (s : State) : (finish s).ok = s.ok := rfl
@[simp] theorem finish_rdata (s : State) : (finish s).rdata = s.rdata := rfl
@[simp] theorem finish_seq (s : State) : (finish s).seq = 0 := rfl
@[simp] theorem finish_sub (s : State) : (finish s).sub = false := rfl
@[simp] theorem finish_en (s : State) : (finish s).en = s.en := rfl
@[simp] theorem finish_div (s : State) : (finish s).div = s.div := rfl
@[simp] theorem finish_acken (s : State) : (finish s).acken = s.acken := rfl
@[simp] theorem finish_active (s : State) : (finish s).active = s.active := rfl
@[simp] theorem finish_phReq (s : State) : (finish s).phReq = s.phReq := rfl
@[simp] theorem finish_phDone (s : State) : (finish s).phDone = s.phDone := rfl
@[simp] theorem finish_status (s : State) : (finish s).status = s.status := rfl
@[simp] theorem finish_data (s : State) : (finish s).data = s.data := rfl
@[simp] theorem finish_phase (s : State) : (finish s).phase = s.phase := rfl
@[simp] theorem finish_cfg (s : State) : (finish s).cfg = s.cfg := rfl
@[simp] theorem finish_schedule (s : State) : (finish s).schedule = s.schedule := rfl
@[simp] theorem finish_bus (s : State) : (finish s).bus = s.bus := rfl

@[simp] theorem fail_ir (s : State) : (fail s).ir = s.ir := rfl
@[simp] theorem fail_busy (s : State) : (fail s).busy = false := rfl
@[simp] theorem fail_ok (s : State) : (fail s).ok = some false := rfl
@[simp] theorem fail_rdata (s : State) : (fail s).rdata = s.rdata := rfl
@[simp] theorem fail_seq (s : State) : (fail s).seq = 0 := rfl
@[simp] theorem fail_sub (s : State) : (fail s).sub = false := rfl
@[simp] theorem fail_en (s : State) : (fail s).en = s.en := rfl
@[simp] theorem fail_div (s : State) : (fail s).div = s.div := rfl
@[simp] theorem fail_acken (s : State) : (fail s).acken = s.acken := rfl
@[simp] theorem fail_active (s : State) : (fail s).active = s.active := rfl
@[simp] theorem fail_phReq (s : State) : (fail s).phReq = s.phReq := rfl
@[simp] theorem fail_phDone (s : State) : (fail s).phDone = s.phDone := rfl
@[simp] theorem fail_status (s : State) : (fail s).status = s.status := rfl
@[simp] theorem fail_data (s : State) : (fail s).data = s.data := rfl
@[simp] theorem fail_phase (s : State) : (fail s).phase = .error := rfl
@[simp] theorem fail_cfg (s : State) : (fail s).cfg = s.cfg := rfl
@[simp] theorem fail_schedule (s : State) : (fail s).schedule = s.schedule := rfl
@[simp] theorem fail_bus (s : State) : (fail s).bus = s.bus := rfl

@[simp] theorem failRead_ir (s : State) : (failRead s).ir = s.ir := rfl
@[simp] theorem failRead_busy (s : State) : (failRead s).busy = false := rfl
@[simp] theorem failRead_ok (s : State) : (failRead s).ok = some false := rfl
@[simp] theorem failRead_rdata (s : State) : (failRead s).rdata = none := rfl
@[simp] theorem failRead_seq (s : State) : (failRead s).seq = 0 := rfl
@[simp] theorem failRead_sub (s : State) : (failRead s).sub = false := rfl
@[simp] theorem failRead_en (s : State) : (failRead s).en = s.en := rfl
@[simp] theorem failRead_div (s : State) : (failRead s).div = s.div := rfl
@[simp] theorem failRead_acken (s : State) : (failRead s).acken = s.acken := rfl
@[simp] theorem failRead_active (s : State) : (failRead s).active = s.active := rfl
@[simp] theorem failRead_phReq (s : State) : (failRead s).phReq = s.phReq := rfl
@[simp] theorem failRead_phDone (s : State) : (failRead s).phDone = s.phDone := rfl
@[simp] theorem failRead_status (s : State) : (failRead s).status = s.status := rfl
@[simp] theorem failRead_data (s : State) : (failRead s).data = s.data := rfl
@[simp] theorem failRead_phase (s : State) : (failRead s).phase = .error := rfl
@[simp] theorem failRead_cfg (s : State) : (failRead s).cfg = s.cfg := rfl
@[simp] theorem failRead_schedule (s : State) : (failRead s).schedule = s.schedule := rfl
@[simp] theorem failRead_bus (s : State) : (failRead s).bus = s.bus := rfl

@[simp] theorem latchCommand_ir (w : Command) (s : State) : (latchCommand w s).ir = some w := rfl
@[simp] theorem latchCommand_busy (w : Command) (s : State) : (latchCommand w s).busy = true := rfl
@[simp] theorem latchCommand_ok (w : Command) (s : State) : (latchCommand w s).ok = s.ok := rfl
@[simp] theorem latchCommand_rdata (w : Command) (s : State) : (latchCommand w s).rdata = s.rdata := rfl
@[simp] theorem latchCommand_seq (w : Command) (s : State) : (latchCommand w s).seq = 0 := rfl
@[simp] theorem latchCommand_sub (w : Command) (s : State) : (latchCommand w s).sub = false := rfl
@[simp] theorem latchCommand_en (w : Command) (s : State) : (latchCommand w s).en = s.en := rfl
@[simp] theorem latchCommand_div (w : Command) (s : State) : (latchCommand w s).div = s.div := rfl
@[simp] theorem latchCommand_acken (w : Command) (s : State) : (latchCommand w s).acken = s.acken := rfl
@[simp] theorem latchCommand_active (w : Command) (s : State) : (latchCommand w s).active = s.active := rfl
@[simp] theorem latchCommand_phReq (w : Command) (s : State) : (latchCommand w s).phReq = s.phReq := rfl
@[simp] theorem latchCommand_phDone (w : Command) (s : State) : (latchCommand w s).phDone = s.phDone := rfl
@[simp] theorem latchCommand_status (w : Command) (s : State) : (latchCommand w s).status = s.status := rfl
@[simp] theorem latchCommand_data (w : Command) (s : State) : (latchCommand w s).data = s.data := rfl
@[simp] theorem latchCommand_phase (w : Command) (s : State) : (latchCommand w s).phase = s.phase := rfl
@[simp] theorem latchCommand_cfg (w : Command) (s : State) : (latchCommand w s).cfg = s.cfg := rfl
@[simp] theorem latchCommand_schedule (w : Command) (s : State) : (latchCommand w s).schedule = s.schedule := rfl
@[simp] theorem latchCommand_bus (w : Command) (s : State) : (latchCommand w s).bus = s.bus := rfl

@[simp] theorem completePhase_ir (p : BusPhase) (a : BusAnswer) (s : State) : (completePhase p a s).ir = s.ir := rfl
@[simp] theorem completePhase_busy (p : BusPhase) (a : BusAnswer) (s : State) : (completePhase p a s).busy = s.busy := rfl
@[simp] theorem completePhase_ok (p : BusPhase) (a : BusAnswer) (s : State) : (completePhase p a s).ok = s.ok := rfl
@[simp] theorem completePhase_rdata (p : BusPhase) (a : BusAnswer) (s : State) : (completePhase p a s).rdata = s.rdata := rfl
@[simp] theorem completePhase_seq (p : BusPhase) (a : BusAnswer) (s : State) : (completePhase p a s).seq = s.seq := rfl
@[simp] theorem completePhase_sub (p : BusPhase) (a : BusAnswer) (s : State) : (completePhase p a s).sub = s.sub := rfl
@[simp] theorem completePhase_en (p : BusPhase) (a : BusAnswer) (s : State) : (completePhase p a s).en = s.en := rfl
@[simp] theorem completePhase_div (p : BusPhase) (a : BusAnswer) (s : State) : (completePhase p a s).div = s.div := rfl
@[simp] theorem completePhase_acken (p : BusPhase) (a : BusAnswer) (s : State) : (completePhase p a s).acken = s.acken := rfl
@[simp] theorem completePhase_active (p : BusPhase) (a : BusAnswer) (s : State) : (completePhase p a s).active = s.active := rfl
@[simp] theorem completePhase_phReq (p : BusPhase) (a : BusAnswer) (s : State) : (completePhase p a s).phReq = s.phReq := rfl
@[simp] theorem completePhase_phDone (p : BusPhase) (a : BusAnswer) (s : State) : (completePhase p a s).phDone = true := rfl
@[simp] theorem completePhase_status (p : BusPhase) (a : BusAnswer) (s : State) : (completePhase p a s).status = some a.status := rfl
@[simp] theorem completePhase_phase (p : BusPhase) (a : BusAnswer) (s : State) : (completePhase p a s).phase = s.phase := rfl
@[simp] theorem completePhase_cfg (p : BusPhase) (a : BusAnswer) (s : State) : (completePhase p a s).cfg = s.cfg := rfl
@[simp] theorem completePhase_schedule (p : BusPhase) (a : BusAnswer) (s : State) : (completePhase p a s).schedule = s.schedule := rfl
@[simp] theorem completePhase_bus (p : BusPhase) (a : BusAnswer) (s : State) : (completePhase p a s).bus = { s.bus with wire := wireDone p s.bus.wire } := rfl

@[simp] theorem completePhase_start_data (rep : Bool) (a : BusAnswer) (s : State) :
    (completePhase (.start rep) a s).data = s.data := rfl
@[simp] theorem completePhase_stop_data (a : BusAnswer) (s : State) :
    (completePhase (.stop) a s).data = s.data := rfl
@[simp] theorem completePhase_tx_data (b : Byte) (a : BusAnswer) (s : State) :
    (completePhase (.tx b) a s).data = s.data := rfl
@[simp] theorem completePhase_rx_data (ack : Bool) (a : BusAnswer) (s : State) :
    (completePhase (.rx ack) a s).data = some a.data := rfl

end Sys2Proof.Machine
end

