-- ==== Sys2Proof/Laws/Ops.lean ====
section
/-! SUPPORT. One lemma per shared operation that says what it can do, cited in place of unfolding it. -/

namespace Sys2Proof.Machine

/-! ## The primitive bodies and the sequencer -/

/-- The issue step of every body sets `SUB`, clears `PH_DONE`, and leaves the registers of a result alone. -/
theorem issueStep_frame (p : Primitive) (s : State) :
    (issueStep p s).sub = true ∧ (issueStep p s).phDone = false ∧ (issueStep p s).ir = s.ir ∧
      (issueStep p s).busy = s.busy ∧ (issueStep p s).ok = s.ok ∧ (issueStep p s).rdata = s.rdata ∧
      (issueStep p s).seq = s.seq ∧ (issueStep p s).en = s.en ∧ (issueStep p s).div = s.div ∧
      (issueStep p s).status = s.status ∧ (issueStep p s).phase = s.phase ∧ (issueStep p s).cfg = s.cfg ∧
      (issueStep p s).schedule = s.schedule ∧ (issueStep p s).bus = s.bus := by
  cases p <;> exact ⟨rfl, rfl, rfl, rfl, rfl, rfl, rfl, rfl, rfl, rfl, rfl, rfl, rfl, rfl⟩

/-- What a completion step can do: START and STOP always complete; a byte body needs `STATUS`, and a successful read
`DATA`. -/
theorem completeStep_ok {p : Primitive} {s t : State} (h : completeStep p s = .ok t) :
    (p = .start ∧ t = { retire s with phase := .started, sub := false }) ∨
    (p = .stop ∧ t = { retire s with active := false, phase := .stopped, sub := false }) ∨
    (∃ b st, p = .tx b ∧ s.status = some st ∧
      t = { txFlags (writeAccepted s.cfg st) (retire s) with sub := false }) ∨
    (∃ a st d, p = .rx a ∧ s.status = some st ∧ (readAccepted s.cfg st = true → s.data = some d) ∧
      t = { rxFlags (readAccepted s.cfg st) d (retire s) with sub := false }) := by
  cases p with
  | start => exact .inl ⟨rfl, by simpa [completeStep] using h.symm⟩
  | stop => exact .inr (.inl ⟨rfl, by simpa [completeStep] using h.symm⟩)
  | tx b =>
    refine .inr (.inr (.inl ⟨b, ?_⟩))
    simp only [completeStep] at h
    split at h
    · cases h
    · next st hst => exact ⟨st, rfl, hst, by simpa using h.symm⟩
  | rx a =>
    refine .inr (.inr (.inr ⟨a, ?_⟩))
    simp only [completeStep] at h
    split at h
    · cases h
    · next st d hst hd => exact ⟨st, d, rfl, hst, fun _ => hd, by simpa using h.symm⟩
    · next st hst hd =>
      split at h
      · cases h
      · next hacc =>
        refine ⟨st, 0, rfl, hst, fun hc => absurd hc hacc, ?_⟩
        simp only [Bool.not_eq_true] at hacc
        simpa [hacc] using h.symm

/-- What the flags of a byte primitive leave alone. -/
theorem txFlags_frame (ok : Bool) (s : State) :
    (txFlags ok s).ir = s.ir ∧ (txFlags ok s).busy = s.busy ∧ (txFlags ok s).rdata = s.rdata ∧
      (txFlags ok s).seq = s.seq ∧ (txFlags ok s).sub = s.sub ∧ (txFlags ok s).en = s.en ∧
      (txFlags ok s).div = s.div ∧ (txFlags ok s).acken = s.acken ∧ (txFlags ok s).active = s.active ∧
      (txFlags ok s).phReq = s.phReq ∧ (txFlags ok s).phDone = s.phDone ∧ (txFlags ok s).status = s.status ∧
      (txFlags ok s).data = s.data ∧ (txFlags ok s).cfg = s.cfg ∧ (txFlags ok s).schedule = s.schedule ∧
      (txFlags ok s).bus = s.bus := by
  cases ok <;> exact ⟨rfl, rfl, rfl, rfl, rfl, rfl, rfl, rfl, rfl, rfl, rfl, rfl, rfl, rfl, rfl, rfl⟩

theorem rxFlags_frame (ok : Bool) (d : Byte) (s : State) :
    (rxFlags ok d s).ir = s.ir ∧ (rxFlags ok d s).busy = s.busy ∧
      (rxFlags ok d s).seq = s.seq ∧ (rxFlags ok d s).sub = s.sub ∧ (rxFlags ok d s).en = s.en ∧
      (rxFlags ok d s).div = s.div ∧ (rxFlags ok d s).acken = s.acken ∧ (rxFlags ok d s).active = s.active ∧
      (rxFlags ok d s).phReq = s.phReq ∧ (rxFlags ok d s).phDone = s.phDone ∧ (rxFlags ok d s).status = s.status ∧
      (rxFlags ok d s).data = s.data ∧ (rxFlags ok d s).cfg = s.cfg ∧ (rxFlags ok d s).schedule = s.schedule ∧
      (rxFlags ok d s).bus = s.bus := by
  cases ok <;> exact ⟨rfl, rfl, rfl, rfl, rfl, rfl, rfl, rfl, rfl, rfl, rfl, rfl, rfl, rfl, rfl⟩

/-- What a completion step leaves alone. -/
theorem completeStep_frame {p : Primitive} {s t : State} (h : completeStep p s = .ok t) :
    t.sub = false ∧ t.phReq = .none ∧ t.phDone = false ∧ t.ir = s.ir ∧ t.busy = s.busy ∧ t.seq = s.seq ∧
      t.en = s.en ∧ t.div = s.div ∧ t.acken = s.acken ∧ t.status = s.status ∧ t.data = s.data ∧ t.cfg = s.cfg ∧
      t.schedule = s.schedule ∧ t.bus = s.bus := by
  rcases completeStep_ok h with ⟨rfl, rfl⟩ | ⟨rfl, rfl⟩ | ⟨b, st, rfl, -, rfl⟩ | ⟨a, st, d, rfl, -, -, rfl⟩
  · exact ⟨rfl, rfl, rfl, rfl, rfl, rfl, rfl, rfl, rfl, rfl, rfl, rfl, rfl, rfl⟩
  · exact ⟨rfl, rfl, rfl, rfl, rfl, rfl, rfl, rfl, rfl, rfl, rfl, rfl, rfl, rfl⟩
  · have hf := txFlags_frame (writeAccepted s.cfg st) (retire s)
    simp only [retire_ir, retire_busy, retire_seq, retire_en, retire_div, retire_acken, retire_phReq,
      retire_phDone, retire_status, retire_data, retire_cfg, retire_schedule, retire_bus] at hf
    exact ⟨rfl, by simp [hf], by simp [hf], by simp [hf], by simp [hf], by simp [hf], by simp [hf], by simp [hf],
      by simp [hf], by simp [hf], by simp [hf], by simp [hf], by simp [hf], by simp [hf]⟩
  · have hf := rxFlags_frame (readAccepted s.cfg st) d (retire s)
    simp only [retire_ir, retire_busy, retire_seq, retire_en, retire_div, retire_acken, retire_phReq,
      retire_phDone, retire_status, retire_data, retire_cfg, retire_schedule, retire_bus] at hf
    exact ⟨rfl, by simp [hf], by simp [hf], by simp [hf], by simp [hf], by simp [hf], by simp [hf], by simp [hf],
      by simp [hf], by simp [hf], by simp [hf], by simp [hf], by simp [hf], by simp [hf]⟩

/-- What `next` leaves alone; it ends the command or moves the sequencer, and a failure writes `OK`, `RDATA`, `PHASE`. -/
theorem applyNext_frame (n : Next) (s : State) :
    (applyNext n s).ir = s.ir ∧ (applyNext n s).en = s.en ∧ (applyNext n s).div = s.div ∧
      (applyNext n s).acken = s.acken ∧ (applyNext n s).active = s.active ∧ (applyNext n s).phReq = s.phReq ∧
      (applyNext n s).phDone = s.phDone ∧ (applyNext n s).status = s.status ∧ (applyNext n s).data = s.data ∧
      (applyNext n s).cfg = s.cfg ∧ (applyNext n s).schedule = s.schedule ∧ (applyNext n s).bus = s.bus := by
  cases n <;> exact ⟨rfl, rfl, rfl, rfl, rfl, rfl, rfl, rfl, rfl, rfl, rfl, rfl⟩

theorem runRow_issue (r : TableRow) {s : State} (h : s.sub = false) :
    runRow r s = .next (issueStep (rowBody r) s) := by
  simp [runRow, h]

theorem runRow_wait (r : TableRow) {s : State} (h : s.sub = true) (hd : s.phDone = false) : runRow r s = .next s := by
  simp [runRow, h, hd]

theorem runRow_complete (r : TableRow) {s t : State} (h : s.sub = true) (hd : s.phDone = true)
    (ht : completeStep (rowBody r) s = .ok t) : runRow r s = .next (applyNext (rowNext r t) t) := by
  simp [runRow, h, hd, ht]

/-- What one ENGINE step at a row can do when it goes on: issue, wait, or complete. -/
theorem runRow_next {r : TableRow} {s t : State} (h : runRow r s = .next t) :
    (s.sub = false ∧ t = issueStep (rowBody r) s) ∨
    (s.sub = true ∧ s.phDone = false ∧ t = s) ∨
    (s.sub = true ∧ s.phDone = true ∧ ∃ u, completeStep (rowBody r) s = .ok u ∧ t = applyNext (rowNext r u) u) := by
  cases hs : s.sub with
  | false =>
    rw [runRow_issue r hs] at h
    exact .inl ⟨rfl, by simpa using h.symm⟩
  | true =>
    cases hd : s.phDone with
    | false =>
      rw [runRow_wait r hs hd] at h
      exact .inr (.inl ⟨rfl, rfl, by simpa using h.symm⟩)
    | true =>
      refine .inr (.inr ⟨rfl, rfl, ?_⟩)
      cases hc : completeStep (rowBody r) s with
      | error f => simp [runRow, hs, hd, hc] at h
      | ok u =>
        rw [runRow_complete r hs hd hc] at h
        exact ⟨u, rfl, by simpa using h.symm⟩

/-- What an ENGINE step at a row leaves alone. -/
theorem runRow_frame {r : TableRow} {s t : State} (h : runRow r s = .next t) :
    t.ir = s.ir ∧ t.en = s.en ∧ t.div = s.div ∧ t.status = s.status ∧ t.cfg = s.cfg ∧ t.schedule = s.schedule ∧
      t.bus = s.bus := by
  rcases runRow_next h with ⟨-, rfl⟩ | ⟨-, -, rfl⟩ | ⟨-, -, u, hu, rfl⟩
  · have hf := issueStep_frame (rowBody r) s
    exact ⟨hf.2.2.1, hf.2.2.2.2.2.2.2.1, hf.2.2.2.2.2.2.2.2.1, hf.2.2.2.2.2.2.2.2.2.1, hf.2.2.2.2.2.2.2.2.2.2.2.1,
      hf.2.2.2.2.2.2.2.2.2.2.2.2.1, hf.2.2.2.2.2.2.2.2.2.2.2.2.2⟩
  · exact ⟨rfl, rfl, rfl, rfl, rfl, rfl, rfl⟩
  · have hc := completeStep_frame hu
    have hn := applyNext_frame (rowNext r u) u
    refine ⟨?_, ?_, ?_, ?_, ?_, ?_, ?_⟩ <;> simp [hc, hn]

/-- A command that uses the bus runs the row its table has at `SEQ`; at a `SEQ` its table does not have, a register
transaction has no step. A primitive command has one row and does not look at `SEQ`. -/
theorem exec_next_cases {i : Instr} {s t : State} (hi : i ≠ .init) (h : exec i s = .next t) :
    (∃ r, runRow r s = .next t) ∨ t = s := by
  cases i with
  | init => exact absurd rfl hi
  | start => exact .inl ⟨.always .start .finish, h⟩
  | stop => exact .inl ⟨.always .stop .finish, h⟩
  | writebyte b => exact .inl ⟨.always (.tx b) .finish, h⟩
  | readbyte a => exact .inl ⟨.always (.rx a) .finish, h⟩
  | readreg ra =>
    simp only [exec, execReadreg, runTable] at h
    split at h
    · exact .inl ⟨_, h⟩
    · exact .inr (by simpa using h.symm)
  | writereg ra d =>
    simp only [exec, execWritereg, runTable] at h
    split at h
    · exact .inl ⟨_, h⟩
    · exact .inr (by simpa using h.symm)

/-- At a row of its table a command runs that row. -/
theorem exec_rowAt {i : Instr} {s : State} {r : TableRow} (h : Safety.rowAt i s.seq = some r) :
    exec i s = runRow r s := by
  have one : ∀ {q : TableRow} {n : Nat}, [q][n]? = some r → q = r := by
    intro q n hq
    cases n with
    | zero => simpa using hq
    | succ n => simp at hq
  cases i with
  | init => simp [Safety.rowAt] at h
  | start => simp only [Safety.rowAt] at h; rw [← one h]; rfl
  | stop => simp only [Safety.rowAt] at h; rw [← one h]; rfl
  | writebyte b => simp only [Safety.rowAt] at h; rw [← one h]; rfl
  | readbyte a => simp only [Safety.rowAt] at h; rw [← one h]; rfl
  | readreg ra => simp only [Safety.rowAt] at h; simp [exec, execReadreg, runTable, h]
  | writereg ra d => simp only [Safety.rowAt] at h; simp [exec, execWritereg, runTable, h]

/-! ## The agents -/

/-- What HOST's issue step can do: it latches a command of the opcode map, or refuses (R14, R236). -/
theorem hostIssue_next {w : Command} {s t : State} (h : hostIssue w s = .next t) :
    s.busy = false ∧ (∃ i, decode w = .ok i ∧ (s.en = true ∨ i = .init)) ∧ t = latchCommand w s := by
  unfold hostIssue at h
  split at h
  · cases h
  · next hb =>
    split at h
    · cases h
    · next i hi =>
      split at h
      · next hg => exact ⟨by simpa using hb, ⟨i, hi, by simpa using hg⟩, by simpa using h.symm⟩
      · cases h

/-- A read by HOST changes nothing (R14). -/
theorem hostRead_next {p : HostPort} {s t : State} (h : hostRead p s = .next t) : t = s := by
  cases p with
  | busy => simpa [hostRead] using h.symm
  | ok => simp only [hostRead] at h; split at h; · simpa using h.symm
          · cases h
  | rdata => simp only [hostRead] at h; split at h; · simpa using h.symm
             · cases h

/-- The phase a BUS step is enabled for (R16, R71). -/
theorem outstanding_some {s : State} {p : BusPhase} (h : outstanding s = .ok (some p)) :
    s.phDone = false ∧
      ((∃ rep, s.phReq = .start rep ∧ p = .start rep) ∨ (s.phReq = .stop ∧ p = .stop) ∨
        (∃ b, s.phReq = .tx ∧ s.data = some b ∧ p = .tx b) ∨ (∃ a, s.phReq = .rx ∧ s.acken = some a ∧ p = .rx a)) := by
  unfold outstanding at h
  split at h
  · cases h
  · next hd =>
    refine ⟨by simpa using hd, ?_⟩
    split at h
    · cases h
    · next rep hr => exact .inl ⟨rep, hr, by simpa using h.symm⟩
    · next hr => exact .inr (.inl ⟨hr, by simpa using h.symm⟩)
    · next hr =>
      split at h
      · cases h
      · next b hb => exact .inr (.inr (.inl ⟨b, hr, hb, by simpa using h.symm⟩))
    · next hr =>
      split at h
      · cases h
      · next a ha => exact .inr (.inr (.inr ⟨a, hr, ha, by simpa using h.symm⟩))

/-- What a BUS turn can do: the agent's step for the outstanding phase, or nothing (R16). -/
theorem busTurn_next {k : BusPhase → State → State} {s t : State} (h : busTurn k s = .next t) :
    (∃ p, outstanding s = .ok (some p) ∧ t = k p s) ∨ (outstanding s = .ok none ∧ t = s) := by
  unfold busTurn at h
  split at h
  · cases h
  · next ho => exact .inr ⟨ho, by simpa using h.symm⟩
  · next p ho => exact .inl ⟨p, ho, by simpa using h.symm⟩

/-- An instant moves no byte: only the end of a phase tells whether one has been moved (R101). -/
theorem wireInstant_byteSeen (p : BusPhase) (others : Lines) (w : WireState) :
    (wireInstant p others w).byteSeen = w.byteSeen := by
  have hb : (wireBegin p w).byteSeen = w.byteSeen := by unfold wireBegin; split <;> rfl
  have ho : ∀ v : WireState, (wireObserve others v).byteSeen = v.byteSeen := fun v => by
    unfold wireObserve; split <;> rfl
  have ha : ∀ v : WireState, (wireAct others v).byteSeen = v.byteSeen := fun v => by
    unfold wireAct
    split
    · next a _ _ =>
      split
      · cases a <;> rfl
      · rfl
    · rfl
    · rfl
  simp only [wireInstant, ha, ho, hb]

/-- The status a wire-level phase leaves is one a conforming bus may give (R101). -/
theorem wireAnswer_conforms (c : Config) (p : BusPhase) (w : WireState) :
    conforms c p (!w.byteSeen) (wireAnswer c p w).status = true := by
  simp only [conforms, wireAnswer, List.contains_iff_mem, List.mem_cons]
  split
  · exact .inr (.inl rfl)
  · cases w.bits == [false]
    · exact .inr (.inr (.inr (.inl rfl)))
    · exact .inr (.inr (.inl rfl))

/-- One instant on the wires: only the wires change, or the phase completes with the wires' answer. -/
theorem wireTurn_cases (others : Lines) (p : BusPhase) (s : State) :
    wireTurn others p s = { s with bus := { s.bus with wire := wireInstant p others s.bus.wire } } ∨
    wireTurn others p s =
      completePhase p (wireAnswer s.cfg p (wireInstant p others s.bus.wire))
        { s with bus := { s.bus with wire := wireInstant p others s.bus.wire } } := by
  simp only [wireTurn]
  split
  · exact .inr rfl
  · exact .inl rfl

/-- What ENGINE's turn can do: nothing with `BUSY = 0`, one step of the command in `IR` with `BUSY = 1` (R15). -/
theorem engineTurn_next {s t : State} (h : engineTurn s = .next t) :
    (s.busy = false ∧ t = s) ∨
    (s.busy = true ∧ ∃ w i, s.ir = some w ∧ decode w = .ok i ∧ exec i s = .next t) := by
  unfold engineTurn at h
  split at h
  · next hb =>
    refine .inr ⟨hb, ?_⟩
    split at h
    · cases h
    · next w hw =>
      split at h
      · cases h
      · next i hi => exact ⟨w, i, hw, hi, h⟩
  · next hb => exact .inl ⟨by simpa using hb, by simpa using h.symm⟩

/-- A step that goes on takes one turn: the schedule's next, or ENGINE's when the schedule has run out. -/
theorem step_next {s t : State} (h : step s = .next t) :
    s.cfg.wf = true ∧
      ((s.schedule = [] ∧ engineTurn s = .next t) ∨
        ∃ m rest, s.schedule = m :: rest ∧ turn m { s with schedule := rest } = .next t) := by
  unfold step at h
  split at h
  · next hw =>
    refine ⟨hw, ?_⟩
    split at h
    · next hs => exact .inl ⟨hs, h⟩
    · next m rest hs => exact .inr ⟨m, rest, hs, h⟩
  · cases h

theorem step_of_schedule {s : State} {m : Move} {rest : List Move} (hw : s.cfg.wf = true)
    (hs : s.schedule = m :: rest) : step s = turn m { s with schedule := rest } := by
  simp [step, hw, hs]

theorem step_of_silence {s : State} (hw : s.cfg.wf = true) (hs : s.schedule = []) : step s = engineTurn s := by
  simp [step, hw, hs]

end Sys2Proof.Machine

namespace Sys2Proof.Safety

open Sys2Proof.Machine

/-! ## Runs -/

@[simp] theorem run_zero (s : State) : run 0 s = .next s := rfl

/-- A run of `k + 1` steps whose first step goes on is a run of `k` steps from its next state. -/
theorem run_next {s t : State} (h : step s = .next t) (k : Nat) : run (k + 1) s = run k t := by
  have hc : core.step s = .next t := h
  simp only [run, Host.Core.run, hc]
  rfl

/-- A run whose first step stops with a fault stops there. -/
theorem run_fault {s : State} {f : Fault} (h : step s = .fault f) (k : Nat) : run (k + 1) s = .fault f := by
  have hc : core.step s = .fault f := h
  simp only [run, Host.Core.run, hc]
  rfl

/-- A run whose first step is refused stops there. -/
theorem run_refused {s : State} {r : Refusal} (h : step s = .refused r) (k : Nat) : run (k + 1) s = .refused r := by
  have hc : core.step s = .refused r := h
  simp only [run, Host.Core.run, hc]
  rfl

/-- Runs compose. -/
theorem run_add {s t : State} {j : Nat} (h : run j s = .next t) (k : Nat) : run (j + k) s = run k t := by
  induction j generalizing s with
  | zero =>
    rw [run_zero] at h
    cases h
    rw [Nat.zero_add]
  | succ j ih =>
    rw [show j + 1 + k = (j + k) + 1 by omega]
    cases hs : step s with
    | next u =>
      rw [run_next hs] at h ⊢
      exact ih h
    | fault f => rw [run_fault hs] at h; cases h
    | refused r => rw [run_refused hs] at h; cases h

end Sys2Proof.Safety
end

