-- ==== Sys2Proof/Laws/PerInstr.lean ====
section
/-! SUPPORT. One lemma per command: the three fields of its word (R111, R112, R114). -/

namespace Sys2Proof.Laws.Fields

/-- The opcode of the command, and its operands in the fields their format gives them, every other bit zero. -/
def Statement (i : Instr) : Prop :=
  match i with
  | .init => opField (encode i) = 0x01 ∧ aField (encode i) = 0 ∧ bField (encode i) = 0
  | .start => opField (encode i) = 0x02 ∧ aField (encode i) = 0 ∧ bField (encode i) = 0
  | .stop => opField (encode i) = 0x03 ∧ aField (encode i) = 0 ∧ bField (encode i) = 0
  | .writebyte byte => opField (encode i) = 0x04 ∧ aField (encode i) = byte ∧ bField (encode i) = 0
  | .readbyte sendAck =>
    opField (encode i) = 0x05 ∧ (aField (encode i)).getLsbD 0 = sendAck ∧
      (aField (encode i)).extractLsb' 1 7 = 0 ∧ bField (encode i) = 0
  | .readreg ra => opField (encode i) = 0x10 ∧ aField (encode i) = ra ∧ bField (encode i) = 0
  | .writereg ra d => opField (encode i) = 0x11 ∧ aField (encode i) = ra ∧ bField (encode i) = d

theorem init : Statement .init := by simp [Statement, encode]

theorem start : Statement .start := by simp [Statement, encode]

theorem stop : Statement .stop := by simp [Statement, encode]

theorem writebyte (byte : Byte) : Statement (.writebyte byte) := by simp [Statement, encode]

theorem readbyte (sendAck : Bool) : Statement (.readbyte sendAck) := by
  cases sendAck <;> exact ⟨rfl, rfl, rfl, rfl⟩

theorem readreg (ra : Byte) : Statement (.readreg ra) := by simp [Statement, encode]

theorem writereg (ra d : Byte) : Statement (.writereg ra d) := by simp [Statement, encode]

end Sys2Proof.Laws.Fields
end

