-- ==== Sys2Proof/Tests/Slice0.lean ====
section
/-! SUPPORT. Small tests, their expected results from the vectors V-D of spec/95_test_vectors.md and the examples of the
command rules, and for every obligation with hypotheses a witness: concrete states and operands that meet them all. -/

namespace Sys2Proof.Tests

open Sys2Proof Sys2Proof.Machine Sys2Proof.Safety

/-! ## States -/

/-- What `f` reads from the next state. -/
def nextOf {α : Type} (f : State → α) (r : Result) : Option α :=
  match r with
  | .next s => some (f s)
  | .fault _ => none
  | .refused _ => none

/-- The block at rest after INIT, with the turns to come. -/
def ready (turns : List Move) : State := { State.reset with en := true, div := some 72, schedule := turns }

/-- The command `i` about to issue the phase of its step `seq`. -/
def issuing (i : Instr) (seq : BitVec 3) : State :=
  { ready [] with ir := some (encode i), busy := true, seq := seq, active := true, phase := .addressPhase }

/-- The command `i` waiting for the phase `req` of its step `seq`; the registers the BUS agent reads hold `byte`, NACK. -/
def waiting (i : Instr) (seq : BitVec 3) (req : PhReq) (byte : Byte) : State :=
  { issuing i seq with sub := true, phReq := req, data := some byte, acken := some false }

/-- The same phase completed by the BUS agent with a status and, in `DATA`, a byte. -/
def answered (i : Instr) (seq : BitVec 3) (req : PhReq) (status byte : Byte) : State :=
  { waiting i seq req byte with phDone := true, status := some status }

/-- The BUS agent's turn `m` on the state `s`, with the reference device in `mode`. -/
def onBus (s : State) (m : Move) (mode : DevMode) : State :=
  { s with
    schedule := [m]
    bus := { s.bus with dev := { s.bus.dev with mode := mode, mem := [(2, 0x23)], ptr := 2 } } }

/-! ## Configuration: one ill-formed term for each check (R9, R265) -/

theorem test_design_point_is_well_formed : Config.designPoint.wf = true := by decide

/-- `TARGET_FREQ > 0`. -/
theorem test_refuses_zero_target : ({ Config.designPoint with targetFreq := 0 } : Config).wf = false := by decide

/-- V-D20. -/
theorem test_refuses_small_quotient : ({ Config.designPoint with sourceClock := 1000000 } : Config).wf = false := by
  decide

/-- V-D21. -/
theorem test_refuses_wide_divisor : ({ Config.designPoint with targetFreq := 30000 } : Config).wf = false := by decide

/-- The five status parameters are pairwise distinct. -/
theorem test_refuses_equal_statuses : ({ Config.designPoint with stRxNack := 0x18 } : Config).wf = false := by decide

/-- `WAIT_BOUND = none` (U13). -/
theorem test_refuses_wait_bound : ({ Config.designPoint with waitBound := some 1000 } : Config).wf = false := by decide

/-- Boundaries of R9: the quotients 16 and 527 are well formed, 15 and 528 are not. -/
theorem test_divisor_boundaries :
    ([1600000, 52700000, 1500000, 52800000].map fun f => ({ Config.designPoint with sourceClock := f } : Config).wf) =
      [true, true, false, false] := by decide

/-- V-D16 to V-D19. -/
theorem test_divisor_vectors :
    ([(16000000, 100000), (8000000, 100000), (16000000, 400000), (14745600, 100000)].map fun p : Nat × Nat =>
      divValue { Config.designPoint with sourceClock := p.1, targetFreq := p.2 }) = [72, 32, 12, 65] := by decide

/-! ## Decoding: words written out bit by bit from R111 to R113 -/

/-- `op = 0000 0001`, `a = 0`, `b = 0` (format N). -/
theorem test_decode_init : decode 0b00000001_00000000_00000000 = .ok .init := by rfl

theorem test_decode_start : decode 0b00000010_00000000_00000000 = .ok .start := by rfl

theorem test_decode_stop : decode 0b00000011_00000000_00000000 = .ok .stop := by rfl

/-- `op = 0000 0100`, `a = 1101 0000` (format A; V-D4). -/
theorem test_decode_writebyte : decode 0b00000100_11010000_00000000 = .ok (.writebyte 0xD0) := by rfl

/-- `op = 0000 0101`, `a[0] = 1` (format F; V-D5). -/
theorem test_decode_readbyte : decode 0b00000101_00000001_00000000 = .ok (.readbyte true) := by rfl

/-- `op = 0001 0000`, `a = 0000 0010` (format A; V-D7). -/
theorem test_decode_readreg : decode 0b00010000_00000010_00000000 = .ok (.readreg 0x02) := by rfl

/-- `op = 0001 0001`, `a = 0000 0111`, `b = 0001 0000` (format AB; V-D8). -/
theorem test_decode_writereg : decode 0b00010001_00000111_00010000 = .ok (.writereg 0x07 0x10) := by rfl

/-- V-D9 to V-D14: each reserved word is refused, by the reason it is reserved for. -/
theorem test_decode_reserved :
    decode 0x000000 = .error (.opcode 0x00) ∧ decode 0x010001 = .error (.fieldB 0x01 0x01) ∧
      decode 0x04D001 = .error (.fieldB 0x04 0x01) ∧ decode 0x050200 = .error (.fieldA 0x05 0x02) ∧
      decode 0x100201 = .error (.fieldB 0x10 0x01) ∧ decode 0x120000 = .error (.opcode 0x12) ∧
      decode 0x060000 = .error (.opcode 0x06) ∧ decode 0xFF0000 = .error (.opcode 0xFF) := by
  exact ⟨rfl, rfl, rfl, rfl, rfl, rfl, rfl, rfl⟩

/-- The table's numbering (R117): the word's 24 bits; a bit above them selects nothing. -/
theorem test_decode_table_word :
    decodeTableWord 24 0x100200 = some (.readreg 0x02) ∧ decodeTableWord 32 0x01100200 = none := by
  exact ⟨rfl, rfl⟩

/-- The first step after reset runs the word it is given. -/
theorem test_first_step :
    nextOf (fun t => (t.phReq, t.active, t.sub)) (step (State.reset.withFetchWord 24 0x100200)) =
      some (.start false, true, true) ∧
    nextOf (fun t => (t.en, t.div, t.busy)) (step (State.reset.withFetchWord 24 0x010000)) =
      some (true, some 0x48, false) := by
  exact ⟨rfl, rfl⟩

/-! ## The commands, one step each -/

/-- V-D16. -/
theorem test_init :
    nextOf (fun t => (t.div, t.en, t.busy, t.ok)) (exec .init { State.reset with busy := true, ir := some 0x010000 }) =
      some (some 0x48, true, false, none) := by rfl

/-- V-D30 from `ACTIVE = 0`, and R145 (a) from `ACTIVE = 1`. -/
theorem test_start_issue :
    nextOf (fun t => (t.phReq, t.active)) (exec .start { issuing .start 0 with active := false }) =
      some (.start false, true) ∧
    nextOf (fun t => (t.phReq, t.active)) (exec .start (issuing .start 0)) = some (.start true, true) := by
  exact ⟨rfl, rfl⟩

/-- V-D32: START does not read `STATUS`. -/
theorem test_start_complete :
    nextOf (fun t => (t.active, t.phase, t.ok, t.busy)) (exec .start (answered .start 0 (.start true) 0x38 0)) =
      some (true, .started, none, false) := by rfl

/-- V-D43. -/
theorem test_stop_complete :
    nextOf (fun t => (t.active, t.phase, t.ok))
      (exec .stop { answered .stop 0 .stop 0xF8 0 with phase := .error, ok := some false }) =
      some (false, .stopped, some false) := by rfl

/-- V-D35, V-D36, V-D37 and V-D38: the statuses `0x28`, `0x40`, `0x50` and `0x19`. -/
theorem test_writebyte_complete :
    [0x28, 0x40, 0x50, 0x19].map (fun st =>
      nextOf (fun t => (t.ok, t.phase)) (exec (.writebyte 0x02) (answered (.writebyte 0x02) 0 .tx st 0x02))) =
      [some (some true, .dataPhase), some (some true, .dataPhase), some (some false, .error),
        some (some false, .error)] := by rfl

/-- V-D45: a byte with no start before it. -/
theorem test_writebyte_from_idle :
    nextOf (fun t => (t.ok, t.phase))
      (exec (.writebyte 0) { answered (.writebyte 0) 0 .tx 0x28 0 with phase := .idle, active := false }) =
      some (some true, .error) := by rfl

/-- V-D39, V-D41. -/
theorem test_readbyte_success :
    [0x58, 0x50].map (fun st =>
      nextOf (fun t => (t.ok, t.rdata, t.phase)) (exec (.readbyte false) (answered (.readbyte false) 0 .rx st 0x59))) =
      [some (some true, some 0x59, .dataPhase), some (some true, some 0x59, .dataPhase)] := by rfl

/-- V-D42. -/
theorem test_readbyte_failure :
    nextOf (fun t => (t.ok, t.rdata, t.data, t.phase))
      (exec (.readbyte false) { answered (.readbyte false) 0 .rx 0x38 0x59 with rdata := some 0x11 }) =
      some (some false, none, some 0x59, .error) := by rfl

/-- V-D28: `SLA_R` is not acknowledged. -/
theorem test_readreg_address_failure :
    nextOf (fun t => (t.ok, t.rdata, t.active, t.phase, t.busy, t.phReq))
      (exec (.readreg 0x05) { answered (.readreg 0x05) 4 .tx 0x48 0xD1 with rdata := some 0x11 }) =
      some (some false, none, true, .error, false, .none) := by rfl

/-- V-D29: the read fails and the sequencer goes to the stop. -/
theorem test_readreg_read_failure :
    nextOf (fun t => (t.ok, t.rdata, t.seq, t.busy)) (exec (.readreg 0x05) (answered (.readreg 0x05) 5 .rx 0x38 0x77)) =
      some (some false, none, 6, true) := by rfl

/-- V-D22: the data byte is not acknowledged. -/
theorem test_writereg_data_failure :
    nextOf (fun t => (t.ok, t.active, t.phase, t.busy, t.seq))
      (exec (.writereg 0x07 0x10) (answered (.writereg 0x07 0x10) 3 .tx 0x30 0x10)) =
      some (some false, true, .error, false, 0) := by rfl

/-- The third byte of a WRITEREG is its data byte (R175). -/
theorem test_writereg_data_issue :
    nextOf (fun t => (t.data, t.phReq, t.rdata)) (exec (.writereg 0x07 0x10) (issuing (.writereg 0x07 0x10) 3)) =
      some (some 0x10, .tx, none) := by rfl

/-! ## HOST, reset, the device and the codec -/

/-- V-D90, V-D91. -/
theorem test_host_refusals :
    step { State.reset with schedule := [.hostIssue 0x020000] } = .refused .commandWhileDisabled ∧
      step { issuing .start 0 with schedule := [.hostIssue 0x100000] } = .refused .commandWhileBusy := by
  exact ⟨rfl, rfl⟩

/-- V-D92. -/
theorem test_host_reads_undef :
    step { State.reset with schedule := [.hostRead .ok] } = .fault .hostReadsUndefOk ∧
      step { State.reset with schedule := [.hostRead .rdata] } = .fault .hostReadsUndefRdata := by
  exact ⟨rfl, rfl⟩

/-- V-D94. -/
theorem test_reset_in_flight :
    nextOf (fun t => ((t.busy, t.seq, t.sub, t.en), t.active, t.phReq, t.phDone, t.phase, t.data))
      (step { waiting (.readreg 2) 4 .tx 0xD1 with schedule := [.reset] }) =
      some ((false, 0, false, false), false, .none, false, .idle, none) := by rfl

/-- V-D22, V-D51: what the device does with a data byte, and its register pointer's wrap. -/
theorem test_device_transmit :
    (deviceTx .designPoint 0x10 ⟨[(7, 3)], 7, .wrData, true, false, false⟩).1.mem = [(7, 0x10)] ∧
      (deviceTx .designPoint 0x10 ⟨[(7, 3)], 7, .wrData, true, false, true⟩) =
        (⟨[(7, 3)], 7, .off, true, false, true⟩, 0x30) ∧
      (deviceTx .designPoint 0x48 ⟨[], 0, .wrPtr, true, false, false⟩).1.ptr = 8 := by
  exact ⟨rfl, rfl, rfl⟩

/-- The last act of a byte that was acknowledged, with SDA seen low while SCL was 1 (R97, R101): the device keeps SDA low,
and lets it rise, which is a stop on the bus that the master did not make (R74). -/
theorem test_wire_status :
    [false, true].map (fun sda =>
      nextOf (fun t => (t.status, t.phDone))
        (step
          { waiting (.readreg 2) 2 .tx 0x02 with
            schedule := [.busWire ⟨true, sda⟩]
            bus :=
              ⟨.initial, { WireState.initial with todo := some [.pullScl], bits := [false], seen := some ⟨true, false⟩ }⟩ })) =
      [some (some 0x28, true), some (some 0x00, true)] := by rfl

/-- The device memory after reset is in canonical form. -/
theorem test_reset_memory : Memory.wf State.reset.bus.dev.mem = true := by decide

/-- V-D60 to V-D65: a field of the width given in R192. -/
theorem test_bcd_decode :
    [bcdDec 0x59 secondsTens, bcdDec 0xD9 secondsTens, bcdDec 0xF1 dayTens, bcdDec 0xF2 monthTens, yearDecode 0x99,
      bcdDec 0x1F monthTens] = [59, 59, 31, 12, 2099, 25] := by decide

/-- V-D66, V-D67. -/
theorem test_bcd_encode :
    [0, 9, 10, 37, 59, 60, 100].map (encodeField 0 59) =
      [some 0x00, some 0x09, some 0x10, some 0x37, some 0x59, none, none] := by decide

/-- V-D68 to V-D75. -/
theorem test_hours_decode :
    [0x50, 0x70, 0x72, 0x66, 0x40, 0x22, 0xA3, 0x7F].map hoursDecode =
      [⟨10, false, true⟩, ⟨10, true, true⟩, ⟨12, true, true⟩, ⟨6, true, true⟩, ⟨0, false, true⟩, ⟨22, false, false⟩,
        ⟨23, false, false⟩, ⟨25, true, true⟩] := by decide

/-- V-D76 to V-D79. -/
theorem test_hours_encode :
    [⟨10, false, true⟩, ⟨10, true, true⟩, ⟨12, true, true⟩, ⟨22, true, false⟩, ⟨13, false, true⟩].map hoursEncode =
      [some 0x50, some 0x70, some 0x72, some 0x22, none] := by decide

/-- V-D80, V-D81. -/
theorem test_year_encode :
    [2017, 2000, 2099, 1999, 2100].map yearEncode = [some 0x17, some 0x00, some 0x99, none, none] := by decide

/-- V-D46, V-D47. -/
theorem test_clock :
    encodeClock ⟨2017, 2, 13, 6, 14, 10, true, true⟩ = some ⟨0x10, 0x14, 0x66, 0x13, 0x02, 0x17⟩ ∧
      decodeClock 0x59 0x59 0x23 0x07 0x31 0x12 0x99 = ⟨2099, 12, 31, 23, 59, 59, false, false⟩ := by decide

/-- The syntax of R121: a comment, and the operands in their order. -/
theorem test_assembly :
    parseLine "WRITEREG 0x07, 0x10 ; 1 Hz".toList = some (.writereg 0x07 0x10) ∧
      parseLine "READBYTE nack".toList = some (.readbyte false) ∧ parseLine "READBYTE 0x01".toList = none := by
  decide

/-- The pseudo-commands of R122. -/
theorem test_pseudo :
    (expand .gettime).map encode = [0x100000, 0x100100, 0x100200, 0x100300, 0x100400, 0x100500, 0x100600] ∧
      (expand .addrw ++ expand .addrr ++ expand (.setsqw 0x10)).map encode = [0x04D000, 0x04D100, 0x110710] := by
  decide

/-- The device setup of R201 and R253, and the register map of R61 at its ends. -/
theorem test_device_setup :
    setupRead .seconds = [.readreg 0x00] ∧ setupWrite .control 0x83 .hz1 = [.writereg 0x07 0x03, .writereg 0x07 0x10] ∧
      oscHalted 0x80 = true ∧ deviceRegister 0x07 = .control ∧ deviceRegister 0x08 = .storage ∧
      deviceRegister 0xFF = .storage := by decide

/-- V-D48. -/
theorem test_square_wave :
    [.off, .alwaysOn, .hz1, .khz4, .khz8, .khz32].map squareWaveByte = [0x00, 0x80, 0x10, 0x11, 0x12, 0x13] := by decide

/-- The codes of R33, and the bit rate of R270 at the design point. -/
theorem test_codes :
    [.none, .start false, .start true, .stop, .tx, .rx].map phReqCode = [0, 1, 5, 2, 3, 4] ∧
      phReqOfCode 6 = none ∧ phReqOfCode 7 = none ∧ bitRate .designPoint 72 = 100000 := by decide

/-- Rows of the conforming-bus table (R74): an address byte, a later byte, a reception, a stop, and any phase. -/
theorem test_conforming_bus :
    conforms .designPoint (.tx 0xD0) true 0x18 = true ∧ conforms .designPoint (.tx 0xD1) true 0x18 = false ∧
      conforms .designPoint (.tx 0xD0) false 0x28 = true ∧ conforms .designPoint (.rx false) false 0x50 = false ∧
      conforms .designPoint .stop false 0xF8 = true ∧ conforms .designPoint (.start true) false 0x38 = true := by decide

/-! ## Witnesses: concrete states and operands that meet the hypotheses of each obligation, clause by clause -/

theorem witness_ConfigurationWellFormedness :
    ∃ (c : Config) (s : State), c.wf = false ∧ s.cfg = c :=
  ⟨{ Config.designPoint with targetFreq := 0 }, { State.reset with cfg := { Config.designPoint with targetFreq := 0 } },
    rfl, rfl⟩

theorem witness_DecodeInvertsEncode : ∀ i ∈ [Instr.init, .writebyte 0xFF, .readbyte true, .writereg 0 0xFF],
    i.wf = true := by decide

theorem witness_EncodeInvertsDecode : decode 0x11FF00 = .ok (.writereg 0xFF 0x00) := by rfl

theorem witness_OpcodeMapSelectsCommands :
    ∃ r₁ ∈ opcodeTable, ∃ r₂ ∈ opcodeTable, r₁.selects 0x05_01_00 = true ∧ r₂.selects 0x05_01_00 = true :=
  ⟨⟨"READBYTE", 0x050000, 0xFFFEFF⟩, by decide, ⟨"READBYTE", 0x050000, 0xFFFEFF⟩, by decide, by decide, by decide⟩

/-- One word for each reserved range at both ends, and one for each must-be-zero field. -/
theorem witness_ReservedWordsAreRefused :
    State.reset.busy = false ∧
    ([0x000000, 0x060000, 0x0F0000, 0x120000, 0xFF0000, 0x010100, 0x030001, 0x040001, 0x1000FF, 0x050200, 0x058000,
      0x050101] : List Command).all (fun w => opcodeTable.all fun r => !r.selects w) = true := ⟨rfl, by rfl⟩

theorem witness_StepRunsTheDecodedCommand :
    ∃ s t : State, s.cfg.wf = true ∧ s.busy = true ∧ s.ir = some 0x100200 ∧ decode 0x100200 = .ok (.readreg 2) ∧
      s.schedule = [] ∧ t.cfg.wf = true ∧ t.busy = true ∧ t.ir = some 0x100200 ∧ t.schedule = [.engine, .reset] :=
  ⟨issuing (.readreg 2) 0, { issuing (.readreg 2) 0 with schedule := [.engine, .reset] },
    by decide, rfl, rfl, rfl, rfl, by decide, rfl, rfl, rfl⟩

/-- A state for each clause: busy; idle with a reserved word; idle and enabled; idle and disabled, with INIT and without;
the interrupt's turn; a read of each port, defined and `undef`. -/
theorem witness_HostStepsAndRefusedInputs :
    (∃ s : State, s.cfg.wf = false) ∧
    (∃ s : State, s.cfg.wf = true ∧ s.schedule = [.hostIssue 0x020000] ∧ s.busy = true) ∧
    (∃ s : State, s.cfg.wf = true ∧ s.schedule = [.hostIssue 0] ∧ s.busy = false ∧
      ∀ r ∈ opcodeTable, r.selects 0 = false) ∧
    (∃ s : State, s.cfg.wf = true ∧ s.schedule = [.hostIssue 0x020000] ∧ s.busy = false ∧ s.en = true ∧
      decode 0x020000 = .ok .start) ∧
    (∃ s : State, s.cfg.wf = true ∧ s.schedule = [.hostIssue 0x010000] ∧ s.busy = false ∧ s.en = false ∧
      decode 0x010000 = .ok .init) ∧
    (∃ s : State, s.cfg.wf = true ∧ s.schedule = [.hostIssue 0x020000] ∧ s.busy = false ∧ s.en = false ∧
      decode 0x020000 = .ok .start) ∧
    (∃ s : State, s.cfg.wf = true ∧ s.schedule = [.irqIssue 0x020000]) ∧
    (∃ s : State, s.cfg.wf = true ∧ s.schedule = [.hostRead .busy]) ∧
    (∃ s t : State, s.schedule = [.hostRead .ok] ∧ s.ok = none ∧ t.schedule = [.hostRead .ok] ∧ t.ok ≠ none) ∧
    (∃ s t : State, s.schedule = [.hostRead .rdata] ∧ s.rdata = none ∧
      t.schedule = [.hostRead .rdata] ∧ t.rdata ≠ none) := by
  refine ⟨⟨{ State.reset with cfg := { Config.designPoint with targetFreq := 0 } }, rfl⟩,
    ⟨{ issuing .start 0 with schedule := [.hostIssue 0x020000] }, by decide, rfl, rfl⟩,
    ⟨ready [.hostIssue 0], by decide, rfl, rfl, by decide⟩, ⟨ready [.hostIssue 0x020000], by decide, rfl, rfl, rfl, rfl⟩,
    ⟨{ State.reset with schedule := [.hostIssue 0x010000] }, by decide, rfl, rfl, rfl, rfl⟩,
    ⟨{ State.reset with schedule := [.hostIssue 0x020000] }, by decide, rfl, rfl, rfl, rfl⟩,
    ⟨ready [.irqIssue 0x020000], by decide, rfl⟩, ⟨ready [.hostRead .busy], by decide, rfl⟩,
    ⟨ready [.hostRead .ok], { ready [.hostRead .ok] with ok := some false }, rfl, rfl, rfl, by decide⟩,
    ⟨ready [.hostRead .rdata], { ready [.hostRead .rdata] with rdata := some 0xFF }, rfl, rfl, rfl, by decide⟩⟩

theorem witness_ResetPutsResetValues :
    ∃ s : State, s.cfg.wf = true ∧ s.schedule = [.reset] ∧ s.busy = true ∧ s.active = true :=
  ⟨{ waiting (.readreg 2) 4 .tx 0xD1 with schedule := [.reset] }, by decide, rfl, rfl, rfl⟩

theorem witness_IdleBlockDoesNothing :
    ∃ s : State, s.cfg.wf = true ∧ s.busy = false ∧ s.phReq = .none ∧ s.phDone = false ∧
      s.schedule = [.engine, .bus 0x18 0, .busDevice, .busWire ⟨true, true⟩] ∧
      ∀ m ∈ s.schedule, m = .engine ∨ isBusTurn m = true :=
  ⟨ready [.engine, .bus 0x18 0, .busDevice, .busWire ⟨true, true⟩], by decide, rfl, rfl, rfl, rfl, by decide⟩

theorem witness_InitResult :
    Config.designPoint.wf = true ∧ ∃ s : State, s.cfg.wf = false :=
  ⟨by decide, { State.reset with cfg := { Config.designPoint with targetFreq := 0 } }, rfl⟩

theorem witness_StartResult :
    (issuing .start 0).sub = false ∧ (answered .start 0 (.start true) 0x38 0).sub = true ∧
      (answered .start 0 (.start true) 0x38 0).phDone = true := ⟨rfl, rfl, rfl⟩

theorem witness_StopResult :
    (issuing .stop 0).sub = false ∧ (answered .stop 0 .stop 0xF8 0).sub = true ∧
      (answered .stop 0 .stop 0xF8 0).phDone = true := ⟨rfl, rfl, rfl⟩

/-- Each of the three codes is in the write accept set; a neighbour of one and a receive code are not. -/
theorem witness_WritebyteResult :
    (issuing (.writebyte 0xD0) 0).sub = false ∧ (answered (.writebyte 0xD0) 0 .tx 0x18 0xD0).sub = true ∧
      (answered (.writebyte 0xD0) 0 .tx 0x18 0xD0).phDone = true ∧
      (answered (.writebyte 0xD0) 0 .tx 0x18 0xD0).status = some 0x18 ∧
      InWriteSet .designPoint 0x18 ∧ InWriteSet .designPoint 0x40 ∧ InWriteSet .designPoint 0x28 ∧
      ¬InWriteSet .designPoint 0x19 ∧ ¬InWriteSet .designPoint 0x50 :=
  ⟨rfl, rfl, rfl, rfl, .inl rfl, .inr (.inl rfl), .inr (.inr rfl), by unfold InWriteSet; decide,
    by unfold InWriteSet; decide⟩

theorem witness_ReadbyteResult :
    (issuing (.readbyte false) 0).sub = false ∧ (answered (.readbyte false) 0 .rx 0x58 0x59).sub = true ∧
      (answered (.readbyte false) 0 .rx 0x58 0x59).phDone = true ∧
      (answered (.readbyte false) 0 .rx 0x58 0x59).status = some 0x58 ∧
      (answered (.readbyte false) 0 .rx 0x58 0x59).data = some 0x59 ∧
      InReadSet .designPoint 0x50 ∧ InReadSet .designPoint 0x58 ∧
      ¬InReadSet .designPoint 0x38 ∧ ¬InReadSet .designPoint 0x18 :=
  ⟨rfl, rfl, rfl, rfl, rfl, .inl rfl, .inr rfl, by unfold InReadSet; decide, by unfold InReadSet; decide⟩

theorem witness_BusCommandsWaitForThePhase :
    Instr.readreg 2 ≠ .init ∧ (waiting (.readreg 2) 1 .tx 0xD0).sub = true ∧
      (waiting (.readreg 2) 1 .tx 0xD0).phDone = false := ⟨by decide, rfl, rfl⟩

theorem witness_AcceptSetSizes : Config.designPoint.wf = true ∧ writeAccepted .designPoint 0x28 = true := by decide

theorem witness_GhostPhaseTransitions :
    (∃ t, completeStep .start (answered .start 0 (.start true) 0x10 0) = .ok t) ∧
    (∃ t, completeStep .stop (answered .stop 0 .stop 0xF8 0) = .ok t) ∧
    (∃ t, completeStep (.tx 2) (answered (.writebyte 2) 0 .tx 0x20 2) = .ok t) ∧
    (∃ t, completeStep (.rx false) (answered (.readbyte false) 0 .rx 0x58 0x59) = .ok t) ∧
    ∃ t, exec .init (issuing .init 0) = .next t :=
  ⟨⟨_, rfl⟩, ⟨_, rfl⟩, ⟨_, rfl⟩, ⟨_, rfl⟩, ⟨_, rfl⟩⟩

/-- The steps 0 to 6 about to be issued, and the completed phases of each kind with a status inside and outside its
accept set. -/
theorem witness_ReadregStepTable :
    (∀ n ∈ ([0, 1, 2, 3, 4, 5, 6] : List (BitVec 3)),
      (issuing (.readreg 2) n).sub = false ∧ (issuing (.readreg 2) n).seq = n) ∧
    (∀ p ∈ ([(0, .start false), (3, .start true), (6, .stop)] : List (BitVec 3 × PhReq)),
      (answered (.readreg 2) p.1 p.2 0x08 0).sub = true ∧ (answered (.readreg 2) p.1 p.2 0x08 0).phDone = true ∧
        (answered (.readreg 2) p.1 p.2 0x08 0).seq = p.1) ∧
    (∀ n ∈ ([1, 2, 4] : List (BitVec 3)),
      (answered (.readreg 2) n .tx 0x28 0xD0).sub = true ∧ (answered (.readreg 2) n .tx 0x28 0xD0).phDone = true ∧
        (answered (.readreg 2) n .tx 0x28 0xD0).status = some 0x28) ∧
    (answered (.readreg 2) 5 .rx 0x58 0x23).status = some 0x58 ∧
    (answered (.readreg 2) 5 .rx 0x58 0x23).data = some 0x23 ∧
    InWriteSet .designPoint 0x28 ∧ ¬InWriteSet .designPoint 0x30 ∧ InReadSet .designPoint 0x58 ∧
    ¬InReadSet .designPoint 0x38 :=
  ⟨by decide, by decide, by decide, rfl, rfl, .inr (.inr rfl), by unfold InWriteSet; decide, .inr rfl,
    by unfold InReadSet; decide⟩

theorem witness_WriteregStepTable :
    (∀ n ∈ ([0, 1, 2, 3, 4] : List (BitVec 3)),
      (issuing (.writereg 7 0x10) n).sub = false ∧ (issuing (.writereg 7 0x10) n).seq = n) ∧
    (∀ p ∈ ([(0, .start false), (4, .stop)] : List (BitVec 3 × PhReq)),
      (answered (.writereg 7 0x10) p.1 p.2 0x08 0).sub = true ∧
        (answered (.writereg 7 0x10) p.1 p.2 0x08 0).phDone = true ∧
        (answered (.writereg 7 0x10) p.1 p.2 0x08 0).seq = p.1) ∧
    (∀ n ∈ ([1, 2, 3] : List (BitVec 3)),
      (answered (.writereg 7 0x10) n .tx 0x28 7).sub = true ∧ (answered (.writereg 7 0x10) n .tx 0x28 7).phDone = true ∧
        (answered (.writereg 7 0x10) n .tx 0x28 7).status = some 0x28) ∧
    InWriteSet .designPoint 0x28 ∧ ¬InWriteSet .designPoint 0x30 :=
  ⟨by decide, by decide, by decide, .inr (.inr rfl), by unfold InWriteSet; decide⟩

theorem witness_InitFrame : ∃ s t : State, s.active = true ∧ exec .init s = .next t :=
  ⟨issuing .init 0, _, rfl, rfl⟩

theorem witness_StartStopFrame :
    (∃ t, exec .start (issuing .start 0) = .next t) ∧ ∃ t, exec .stop (answered .stop 0 .stop 0xF8 0) = .next t :=
  ⟨⟨_, rfl⟩, ⟨_, rfl⟩⟩

theorem witness_WriteCommandsFrame :
    (∃ t, exec (.writebyte 2) (issuing (.writebyte 2) 0) = .next t) ∧
      ∃ t, exec (.writereg 7 0x10) (answered (.writereg 7 0x10) 3 .tx 0x30 0x10) = .next t :=
  ⟨⟨_, rfl⟩, ⟨_, rfl⟩⟩

theorem witness_ReadCommandsFrame :
    (∃ t, exec (.readbyte true) (answered (.readbyte true) 0 .rx 0x50 0x59) = .next t) ∧
      ∃ t, exec (.readreg 2) (issuing (.readreg 2) 5) = .next t :=
  ⟨⟨_, rfl⟩, ⟨_, rfl⟩⟩

theorem witness_BusStepWrites :
    (∃ s : State, s.cfg.wf = true ∧ s.schedule = [.bus 0x18 0] ∧ isBusTurn (.bus 0x18 0) = true ∧
      s.phReq = .none) ∧
    (∃ s : State, s.cfg.wf = true ∧ s.schedule = [.busDevice] ∧ isBusTurn .busDevice = true ∧ s.phDone = true) ∧
    (∃ s : State, s.cfg.wf = true ∧ s.schedule = [.bus 0xFF 0xFF] ∧ s.phReq = .tx ∧ s.phDone = false ∧
      s.data ≠ none) ∧
    ∃ s : State, s.cfg.wf = true ∧ s.schedule = [.bus 0x00 0x59] ∧ s.phReq = .rx ∧ s.phDone = false ∧
      s.acken ≠ none :=
  ⟨⟨ready [.bus 0x18 0], by decide, rfl, rfl, rfl⟩,
    ⟨onBus (answered (.readreg 2) 1 .tx 0x18 0xD0) .busDevice .rd, by decide, rfl, rfl, rfl⟩,
    ⟨onBus (waiting (.readreg 2) 1 .tx 0xD0) (.bus 0xFF 0xFF) .rd, by decide, rfl, rfl, rfl, by decide⟩,
    ⟨onBus (waiting (.readreg 2) 5 .rx 0) (.bus 0x00 0x59) .rd, by decide, rfl, rfl, rfl, by decide⟩⟩

theorem witness_DeviceStartStopRx :
    (∃ s : State, s.cfg.wf = true ∧ s.schedule = [.busDevice] ∧ s.phDone = false ∧ s.phReq = .start true) ∧
    (∃ s : State, s.cfg.wf = true ∧ s.schedule = [.busDevice] ∧ s.phDone = false ∧ s.phReq = .stop) ∧
    ∃ s : State, s.cfg.wf = true ∧ s.schedule = [.busDevice] ∧ s.phDone = false ∧ s.phReq = .rx ∧
      s.acken = some false ∧ s.bus.dev.mode = .rd :=
  ⟨⟨onBus (waiting (.readreg 2) 3 (.start true) 0) .busDevice .wrData, by decide, rfl, rfl, rfl⟩,
    ⟨onBus (waiting (.readreg 2) 6 .stop 0) .busDevice .off, by decide, rfl, rfl, rfl⟩,
    ⟨onBus (waiting (.readreg 2) 5 .rx 0) .busDevice .rd, by decide, rfl, rfl, rfl, rfl, rfl⟩⟩

/-- One state for each clause: the six modes, an address byte to write, to read and to another device, a device that is
absent, and each fault switch. -/
theorem witness_DeviceTransmit :
    ∃ s : DevMode → Byte → State, (∀ m b, (s m b).cfg.wf = true ∧ (s m b).schedule = [.busDevice] ∧
      (s m b).phDone = false ∧ (s m b).phReq = .tx ∧ (s m b).data = some b ∧ (s m b).bus.dev.mode = m ∧
      (s m b).bus.dev.present = true ∧ (s m b).bus.dev.nackPtr = false ∧ (s m b).bus.dev.nackData = false) ∧
      (0xD0#8).extractLsb' 1 7 = 0x68#7 ∧ (0xD0#8).getLsbD 0 = false ∧ (0xD1#8).getLsbD 0 = true ∧
      (0xD2#8).extractLsb' 1 7 ≠ 0x68#7 :=
  ⟨fun m b => onBus (waiting (.readreg 2) 1 .tx b) .busDevice m,
    fun _ _ => ⟨test_design_point_is_well_formed, rfl, rfl, rfl, rfl, rfl, rfl, rfl, rfl⟩, by decide, by decide, by decide, by decide⟩

theorem witness_DeviceTransmit_switches :
    ∃ dev : RefDevice, dev.mode = .wrData ∧ dev.present = false ∧ dev.nackPtr = true ∧ dev.nackData = true :=
  ⟨⟨[], 0, .wrData, false, true, true⟩, rfl, rfl, rfl, rfl⟩

theorem witness_DeviceMemoryFrame :
    (∃ s t : State, Memory.wf s.bus.dev.mem = true ∧ step s = .next t ∧ s.schedule = [.busDevice] ∧
      s.phDone = false ∧ s.phReq = .tx ∧ s.data = some 0x10 ∧ s.bus.dev.mode = .wrData ∧
      s.bus.dev.nackData = false) ∧
    ∃ s t : State, Memory.wf s.bus.dev.mem = true ∧ step s = .next t ∧ s.bus.dev.mode = .rd :=
  ⟨⟨onBus (waiting (.writereg 2 0x10) 3 .tx 0x10) .busDevice .wrData, _, by decide, rfl, rfl, rfl, rfl, rfl, rfl, rfl⟩,
    ⟨onBus (waiting (.readreg 2) 5 .rx 0) .busDevice .rd, _, by decide, rfl, rfl⟩⟩

/-- An instant inside a phase, and the instant that completes one; the status of the second is that of a stop. -/
theorem witness_WireInstantRefinesBusStep :
    (∃ s t : State, s.schedule = [.busWire ⟨true, true⟩] ∧ step s = .next t ∧ t.phDone = false) ∧
    ∃ s t : State, s.schedule = [.busWire ⟨true, true⟩] ∧ step s = .next t ∧ t.phDone = true :=
  ⟨⟨onBus (waiting .stop 0 .stop 0) (.busWire ⟨true, true⟩) .rd, _, rfl, rfl, rfl⟩,
    ⟨{ waiting .stop 0 .stop 0 with
        schedule := [.busWire ⟨true, true⟩]
        bus := ⟨.initial, { WireState.initial with todo := some [.releaseSda] }⟩ }, _, rfl, rfl, rfl⟩⟩

theorem witness_WireTransmitShiftsMsbFirst : WireState.initial.todo = none ∧ WireState.initial.bits = [] := ⟨rfl, rfl⟩

theorem witness_WireReceiveShiftsMsbFirst :
    ∃ w : WireState, w.drive = ⟨false, true⟩ ∧ w.todo = none ∧ w.bits = [] :=
  ⟨{ WireState.initial with drive := ⟨false, true⟩ }, rfl, rfl, rfl⟩

/-- A READREG waiting for its fifth phase meets the invariant. -/
theorem inv_waiting : Inv { waiting (.readreg 2) 4 .tx 0xD1 with schedule := [.bus 0x40 0] } where
  config := by decide
  idle := nofun
  command := fun _ =>
    ⟨0x100200, .readreg 2, rfl, rfl, rfl, fun _ => rfl, .test (.tx slaR) (.goto 5) .failRead, rfl, rfl, rfl, nofun⟩
  divisor := fun _ => by decide
  ghost := fun _ => rfl

/-- A READREG about to issue its fifth phase, on ENGINE's turn. -/
theorem inv_issuing : Inv (issuing (.readreg 2) 4) where
  config := by decide
  idle := nofun
  command := fun _ =>
    ⟨0x100200, .readreg 2, rfl, rfl, rfl, fun _ => rfl, .test (.tx slaR) (.goto 5) .failRead, rfl, rfl, rfl⟩
  divisor := fun _ => by decide
  ghost := fun _ => rfl

theorem witness_EveryStepKeepsInvariant : ∃ s t : State, Inv s ∧ step s = .next t ∧ t.phDone = true :=
  ⟨_, _, inv_waiting, rfl, rfl⟩

theorem witness_EveryStepKeepsDeviceWf : ∃ s t : State, DeviceWf s ∧ step s = .next t ∧ s.bus.dev.mem ≠ [] :=
  ⟨onBus (waiting (.writereg 2 0x10) 3 .tx 0x10) .busDevice .wrData, _, by unfold DeviceWf; decide, rfl, by decide⟩

theorem witness_BlockNeverReadsUndef : ∃ s : State, Inv s ∧ s.busy = true := ⟨_, inv_issuing, rfl⟩

theorem witness_OnlyBusWritesStatus : ∃ s t : State, step s = .next t ∧ t.status ≠ s.status :=
  ⟨{ waiting (.readreg 2) 4 .tx 0xD1 with schedule := [.bus 0x40 0] }, _, rfl, by decide⟩

theorem witness_EnableWriters :
    (∃ s t : State, step s = .next t ∧ s.en = true ∧ t.en = false) ∧
    (∃ s t : State, step s = .next t ∧ s.en = false ∧ t.en = true) ∧
    (∃ s t : State, step s = .next t ∧ s.en = false ∧ s.schedule = [.hostIssue 0x010000]) ∧
    ∃ u v : State, exec .init u = .next v :=
  ⟨⟨ready [.reset], _, rfl, rfl, rfl⟩,
    ⟨{ State.reset with busy := true, ir := some 0x010000 }, _, rfl, rfl, rfl⟩,
    ⟨{ State.reset with schedule := [.hostIssue 0x010000] }, _, rfl, rfl, rfl⟩, ⟨issuing .init 0, _, rfl⟩⟩

theorem witness_ActiveWriters :
    (∃ s t : State, step s = .next t ∧ s.active = false ∧ t.active = true) ∧
    ∃ s t : State, step s = .next t ∧ s.active = true ∧ t.active = false ∧ s.schedule = [] :=
  ⟨⟨{ issuing (.readreg 2) 0 with active := false }, _, rfl, rfl, rfl⟩,
    ⟨answered (.readreg 2) 6 .stop 0xF8 0x23, _, rfl, rfl, rfl, rfl⟩⟩

theorem witness_RdataWriters : ∃ s t : State, step s = .next t ∧ t.rdata ≠ s.rdata :=
  ⟨answered (.readreg 2) 5 .rx 0x58 0x23, _, rfl, by decide⟩

theorem witness_CommandAndInputsFrame : ∃ s t : State, step s = .next t ∧ t.ir ≠ s.ir :=
  ⟨ready [.hostIssue 0x100200], _, rfl, by decide⟩

/-- ENGINE's turn after the schedule has run out, and ENGINE's turn that stands in it. -/
theorem witness_SequencerCountsUp :
    (∃ s t : State, Inv s ∧ s.busy = true ∧ s.schedule = [] ∧ step s = .next t) ∧
      ∃ s t : State, Inv s ∧ s.busy = true ∧ s.schedule = [.engine, .bus 0x40 0] ∧ step s = .next t :=
  ⟨⟨_, _, inv_issuing, rfl, rfl, rfl⟩,
    ⟨{ issuing (.readreg 2) 4 with schedule := [.engine, .bus 0x40 0] }, _,
      ⟨inv_issuing.config, inv_issuing.idle, inv_issuing.command, inv_issuing.divisor, inv_issuing.ghost⟩, rfl, rfl, rfl⟩⟩

theorem witness_AtMostOnePhaseOutstanding :
    ∃ s t : State, Inv s ∧ step s = .next t ∧ t.phReq ≠ s.phReq ∧ ∀ rest, s.schedule ≠ .reset :: rest :=
  ⟨_, _, inv_issuing, rfl, by decide, nofun⟩

theorem witness_FailureHidesItsCause :
    ¬InWriteSet (issuing (.writebyte 2) 0).cfg 0x20 ∧ ¬InReadSet (issuing (.writebyte 2) 0).cfg 0x20 ∧
      ¬InWriteSet (issuing (.writebyte 2) 0).cfg 0x38 ∧ ¬InReadSet (issuing (.writebyte 2) 0).cfg 0x38 := by
  unfold InWriteSet InReadSet
  decide

/-- Each of the four primitives. -/
theorem witness_PrimitiveCommandBigStep :
    ∀ p ∈ ([(.start, .start), (.stop, .stop), (.writebyte 0xD0, .tx 0xD0), (.readbyte true, .rx true)] :
      List (Instr × Primitive)),
      primitiveOf p.1 = some p.2 ∧ (ready (commandTurns p.1 [⟨0x18, 0⟩])).cfg.wf = true ∧
        (ready (commandTurns p.1 [⟨0x18, 0⟩])).busy = false ∧ (ready (commandTurns p.1 [⟨0x18, 0⟩])).en = true ∧
        (ready (commandTurns p.1 [⟨0x18, 0⟩])).schedule = commandTurns p.1 [⟨0x18, 0⟩] ++ [] := by decide

/-- The answers of V-D28: the walk takes five of the six. -/
theorem witness_TransactionIsTableWalk :
    ∃ (answers : List BusAnswer) (s : State), s.cfg.wf = true ∧ s.busy = false ∧ s.en = true ∧
      (walkTable (tableOf (.readreg 5)) answers (latchCommand (encode (.readreg 5)) s)).2 = 5 ∧
      s.schedule = commandTurns (.readreg 5) (answers.take 5) ++ [] :=
  ⟨[⟨0x08, 0⟩, ⟨0x18, 0⟩, ⟨0x28, 0⟩, ⟨0x10, 0⟩, ⟨0x48, 0⟩, ⟨0x58, 0⟩],
    ready (commandTurns (.readreg 5) [⟨0x08, 0⟩, ⟨0x18, 0⟩, ⟨0x28, 0⟩, ⟨0x10, 0⟩, ⟨0x48, 0⟩]),
    by decide, rfl, rfl, rfl, rfl⟩

theorem witness_AnsweredTransactionsEnd :
    (List.replicate 7 (⟨0x18, 0⟩ : BusAnswer)).length = 7 ∧ (ready []).cfg.wf = true ∧ (ready []).busy = false ∧
      (ready []).en = true := by decide

/-- The answers of V-D23. -/
theorem witness_ReadregSuccess :
    ∃ s : State, s.cfg.wf = true ∧ s.busy = false ∧ s.en = true ∧ InWriteSet s.cfg 0x18 ∧ InWriteSet s.cfg 0x28 ∧
      InWriteSet s.cfg 0x40 ∧ InReadSet s.cfg 0x58 ∧
      s.schedule =
        commandTurns (.readreg 2)
          [⟨0x08, 0⟩, ⟨0x18, 0⟩, ⟨0x28, 0⟩, ⟨0x10, 0⟩, ⟨0x40, 0⟩, ⟨0x58, 0x23⟩, ⟨0xF8, 0⟩] ++ [] :=
  ⟨ready (commandTurns (.readreg 2)
      [⟨0x08, 0⟩, ⟨0x18, 0⟩, ⟨0x28, 0⟩, ⟨0x10, 0⟩, ⟨0x40, 0⟩, ⟨0x58, 0x23⟩, ⟨0xF8, 0⟩]),
    by decide, rfl, rfl, .inl rfl, .inr (.inr rfl), .inr (.inl rfl), .inr rfl, rfl⟩

/-- V-D25, V-D26, V-D28, V-D29. -/
theorem witness_ReadregFailurePaths :
    ∃ s : List BusAnswer → State, (∀ as, (s as).cfg.wf = true ∧ (s as).busy = false ∧ (s as).en = true ∧
      (s as).schedule = commandTurns (.readreg 5) as ++ [] ∧ InWriteSet (s as).cfg 0x18 ∧
      InWriteSet (s as).cfg 0x28 ∧ InWriteSet (s as).cfg 0x40 ∧ ¬InWriteSet (s as).cfg 0x20 ∧
      ¬InWriteSet (s as).cfg 0x30 ∧ ¬InWriteSet (s as).cfg 0x48 ∧ ¬InReadSet (s as).cfg 0x38) :=
  ⟨fun as => ready (commandTurns (.readreg 5) as), fun as =>
    ⟨test_design_point_is_well_formed, rfl, rfl, by simp [ready], .inl rfl, .inr (.inr rfl), .inr (.inl rfl),
      by simp only [ready]; unfold InWriteSet; decide, by simp only [ready]; unfold InWriteSet; decide,
      by simp only [ready]; unfold InWriteSet; decide, by simp only [ready]; unfold InReadSet; decide⟩⟩

theorem witness_WriteregSuccess :
    ∃ s : State, s.cfg.wf = true ∧ s.busy = false ∧ s.en = true ∧ InWriteSet s.cfg 0x18 ∧ InWriteSet s.cfg 0x28 ∧
      s.schedule =
        commandTurns (.writereg 7 0x10) [⟨0x08, 0⟩, ⟨0x18, 0⟩, ⟨0x28, 0⟩, ⟨0x28, 0⟩, ⟨0xF8, 0⟩] ++ [] :=
  ⟨ready (commandTurns (.writereg 7 0x10) [⟨0x08, 0⟩, ⟨0x18, 0⟩, ⟨0x28, 0⟩, ⟨0x28, 0⟩, ⟨0xF8, 0⟩]),
    by decide, rfl, rfl, .inl rfl, .inr (.inr rfl), rfl⟩

/-- V-D22 and the two earlier failures of R176. -/
theorem witness_WriteregFailurePaths :
    ∃ s : List BusAnswer → State, (∀ as, (s as).cfg.wf = true ∧ (s as).busy = false ∧ (s as).en = true ∧
      (s as).schedule = commandTurns (.writereg 7 0x10) as ++ [] ∧ InWriteSet (s as).cfg 0x18 ∧
      InWriteSet (s as).cfg 0x28 ∧ ¬InWriteSet (s as).cfg 0x20 ∧ ¬InWriteSet (s as).cfg 0x30) :=
  ⟨fun as => ready (commandTurns (.writereg 7 0x10) as), fun as =>
    ⟨test_design_point_is_well_formed, rfl, rfl, by simp [ready], .inl rfl, .inr (.inr rfl),
      by simp only [ready]; unfold InWriteSet; decide, by simp only [ready]; unfold InWriteSet; decide⟩⟩

/-- V-D27. -/
theorem witness_UnansweredPhaseHangs :
    (∃ s : State, s.cfg.wf = true ∧ s.busy = true ∧ s.ir = some 0x100000 ∧ decode 0x100000 = .ok (.readreg 0) ∧
      s.sub = true ∧ s.phReq ≠ .none ∧ s.phDone = false ∧ s.schedule = [.hostRead .busy, .engine, .hostRead .busy] ∧
      ∀ m ∈ s.schedule, m = .engine ∨ m = .hostRead .busy) ∧
    (∃ r, rowAt (.readreg 0) (issuing (.readreg 0) 6).seq = some r) ∧ (issuing (.readreg 0) 6).sub = false ∧
    ∃ r, rowAt .stop (issuing .stop 0).seq = some r :=
  ⟨⟨{ waiting (.readreg 0) 0 (.start false) 0 with schedule := [.hostRead .busy, .engine, .hostRead .busy] },
      by decide, rfl, rfl, rfl, rfl, by decide, rfl, rfl, by decide⟩, ⟨_, rfl⟩, rfl, ⟨_, rfl⟩⟩

theorem witness_TransactionsAreTheirPrimitives :
    (ready []).cfg.wf = true ∧ (ready []).busy = false ∧ (ready []).en = true ∧
      (List.replicate 7 (⟨0x18, 0⟩ : BusAnswer)).length = 7 ∧ (List.replicate 5 (⟨0x30, 0⟩ : BusAnswer)).length = 5 := by
  decide

/-- V-D24. -/
theorem witness_DeviceReturnsTheByteWritten :
    ∃ s : State, s.cfg.wf = true ∧ DeviceWf s ∧ s.busy = false ∧ s.en = true ∧ s.bus.dev.present = true ∧
      s.bus.dev.nackPtr = false ∧ s.bus.dev.nackData = false ∧
      s.schedule = commandTurnsDevice (.writereg 8 0xA5) 5 ++ commandTurnsDevice (.readreg 8) 7 ++ [] :=
  ⟨ready (commandTurnsDevice (.writereg 8 0xA5) 5 ++ commandTurnsDevice (.readreg 8) 7),
    by decide, by unfold DeviceWf; decide, rfl, rfl, rfl, rfl, rfl, rfl⟩

/-- V-D23. -/
theorem witness_DeviceReadsAreIdempotent :
    ∃ s : State, s.cfg.wf = true ∧ s.busy = false ∧ s.en = true ∧ s.bus.dev.present = true ∧
      s.bus.dev.nackPtr = false ∧
      s.schedule = commandTurnsDevice (.readreg 2) 7 ++ (commandTurnsDevice (.readreg 2) 7 ++ []) :=
  ⟨ready (commandTurnsDevice (.readreg 2) 7 ++ commandTurnsDevice (.readreg 2) 7),
    by decide, rfl, rfl, rfl, rfl, rfl⟩

/-- The lowest and the highest value of the domain in both modes (R190, conflict C6). -/
theorem witness_ClockCodecRoundTrip :
    clockInDomain ⟨2000, 1, 1, 0, 0, 0, false, false⟩ = true ∧ clockInDomain ⟨2099, 12, 31, 23, 59, 59, true, false⟩ = true ∧
      clockInDomain ⟨2000, 1, 1, 0, 0, 0, true, true⟩ = true ∧ clockInDomain ⟨2099, 12, 31, 12, 59, 59, true, true⟩ = true := by
  decide

/-- A value is in the range of every field, as the statement on encoding asks. -/
def inFieldRanges (c : ClockValue) : Bool :=
  decide (c.second ≤ 59 ∧ c.minute ≤ 59 ∧ 1 ≤ c.day ∧ c.day ≤ 31 ∧ 1 ≤ c.month ∧ c.month ≤ 12 ∧ 2000 ≤ c.year ∧
    c.year ≤ 2099 ∧ c.hour ≤ (if c.h12 then 12 else 23))

/-- The lowest and the highest value of every field, in both modes; the values just outside each range, one at a time; the
ends of the two clauses on a number of digits. -/
theorem witness_BcdFields :
    ([⟨2000, 1, 1, 0, 0, 0, false, false⟩, ⟨2099, 12, 31, 23, 59, 59, true, false⟩, ⟨2000, 1, 1, 0, 0, 0, false, true⟩,
      ⟨2099, 12, 31, 12, 59, 59, true, true⟩].all inFieldRanges) = true ∧
    ([⟨1999, 1, 1, 0, 0, 0, false, false⟩, ⟨2100, 1, 1, 0, 0, 0, false, false⟩, ⟨2000, 0, 1, 0, 0, 0, false, false⟩,
      ⟨2000, 13, 1, 0, 0, 0, false, false⟩, ⟨2000, 1, 0, 0, 0, 0, false, false⟩, ⟨2000, 1, 32, 0, 0, 0, false, false⟩,
      ⟨2000, 1, 1, 24, 0, 0, false, false⟩, ⟨2000, 1, 1, 13, 0, 0, false, true⟩, ⟨2000, 1, 1, 0, 60, 0, false, false⟩,
      ⟨2000, 1, 1, 0, 0, 60, false, false⟩].all fun c => !inFieldRanges c) = true ∧ 99 < 100 ∧ 100 ≤ 100 := by decide

theorem witness_HoursAndYearFields :
    (0x40#8).getLsbD 6 = true ∧ (0x23#8).getLsbD 6 = false ∧ (2000 ≤ 2000 ∧ 2000 ≤ 2099) ∧ (1999 < 2000 ∨ 2099 < 1999) ∧
      (2100 < 2000 ∨ 2099 < 2100) ∧ 12 ≤ 12 ∧ 12 < 13 ∧ 23 ≤ 23 ∧ 23 < 24 := by decide

end Sys2Proof.Tests
end

section
/-! PROOFS. The step and HOST's turn: which words the opcode map has no row for (R113, R116), the outcomes of HOST's issue
and reads (R14, R236), ENGINE's turn (R15), and the refusal of an ill-formed configuration (R9). -/

namespace Sys2Proof

/-- A mask over a word is a mask over each of its fields (R111). -/
theorem word_and_word (op a b op' a' b' : Byte) :
    word op a b &&& word op' a' b' = word (op &&& op') (a &&& a') (b &&& b') := by
  unfold word
  rw [BitVec.and_append, BitVec.and_append]

/-- Words are equal when their fields are (R111). -/
theorem word_inj {op a b op' a' b' : Byte} : word op a b = word op' a' b' ↔ op = op' ∧ a = a' ∧ b = b' := by
  refine ⟨fun h => ⟨?_, ?_, ?_⟩, fun ⟨ho, ha, hb⟩ => by rw [ho, ha, hb]⟩
  · simpa using congrArg opField h
  · simpa using congrArg aField h
  · simpa using congrArg bField h

/-- A row selects a word by the word's fields, each under its part of the mask (R113). -/
theorem selects_word_iff (name : String) (op a b mo ma mb : Byte) (w : Command) :
    (OpcodeRow.mk name (word op a b) (word mo ma mb)).selects w = true ↔
      opField w &&& mo = op ∧ aField w &&& ma = a ∧ bField w &&& mb = b := by
  rw [OpcodeRow.selects, beq_iff_eq, ← word_inj, ← word_and_word, word_fields]

/-- The opcode map with its masks and patterns written by fields (R112, R113). -/
theorem opcodeTable_fields :
    opcodeTable =
      [⟨"INIT", word 0x01 0 0, word 0xFF 0xFF 0xFF⟩,
       ⟨"START", word 0x02 0 0, word 0xFF 0xFF 0xFF⟩,
       ⟨"STOP", word 0x03 0 0, word 0xFF 0xFF 0xFF⟩,
       ⟨"WRITEBYTE", word 0x04 0 0, word 0xFF 0 0xFF⟩,
       ⟨"READBYTE", word 0x05 0 0, word 0xFF 0xFE 0xFF⟩,
       ⟨"READREG", word 0x10 0 0, word 0xFF 0 0xFF⟩,
       ⟨"WRITEREG", word 0x11 0 0, word 0xFF 0 0⟩] := rfl

/-- A byte whose bits 7 to 1 are zero is zero under format F's mask (R112). -/
theorem and_flagMask_eq_zero : ∀ a : Byte, a.extractLsb' 1 7 = 0 → a &&& 0xFE#8 = 0#8 := by decide

/-- A word that decodes is selected by a row of the opcode map (R113, R115). -/
theorem exists_selects_of_decode {w : Command} {i : Instr} (h : decode w = .ok i) :
    ∃ r ∈ opcodeTable, r.selects w = true := by
  rw [opcodeTable_fields]
  rcases decode_ok h with ⟨ho, ha, hb, -⟩ | ⟨ho, ha, hb, -⟩ | ⟨ho, ha, hb, -⟩ | ⟨ho, hb, -⟩ | ⟨ho, ha, hb, -⟩ |
    ⟨ho, hb, -⟩ | ⟨ho, -⟩
  · simp [selects_word_iff, ho, ha, hb]
  · simp [selects_word_iff, ho, ha, hb]
  · simp [selects_word_iff, ho, ha, hb]
  · simp [selects_word_iff, ho, hb]
  · simp [selects_word_iff, ho, hb, and_flagMask_eq_zero _ ha]
  · simp [selects_word_iff, ho, hb]
  · simp [selects_word_iff, ho]

/-- A word with no row of the opcode map is reserved (R116). -/
theorem decode_error_of_no_row {w : Command} (h : ∀ r ∈ opcodeTable, r.selects w = false) :
    ∃ e, decode w = .error e := by
  cases hd : decode w with
  | error e => exact ⟨e, rfl⟩
  | ok i =>
    obtain ⟨r, hr, hs⟩ := exists_selects_of_decode hd
    simp [h r hr] at hs

/-- R9's conditions, one by one. -/
theorem Config.wf_iff (c : Config) :
    c.wf = true ↔
      0 < c.targetFreq ∧ 16 ≤ c.sourceClock / c.targetFreq ∧ Machine.divValue c ≤ 255 ∧
        [c.stSlaWAck, c.stSlaRAck, c.stDataAck, c.stRxAck, c.stRxNack].Nodup ∧ c.waitBound = none := by
  simp only [Config.wf, Config.statusDistinct, Bool.and_eq_true, decide_eq_true_eq, Option.isNone_iff_eq_none, and_assoc]

end Sys2Proof

namespace Sys2Proof.Machine

theorem step_of_illFormed {s : State} (h : s.cfg.wf = false) : step s = .refused .illFormedConfiguration := by
  simp [step, h]

theorem hostIssue_busy {s : State} (w : Command) (h : s.busy = true) : hostIssue w s = .refused .commandWhileBusy := by
  simp [hostIssue, h]

theorem hostIssue_reserved {s : State} {w : Command} {e : Reserved} (hb : s.busy = false) (hd : decode w = .error e) :
    hostIssue w s = .refused (.reservedWord e) := by
  simp [hostIssue, hb, hd]

theorem hostIssue_enabled {s : State} {w : Command} {i : Instr} (hb : s.busy = false) (hd : decode w = .ok i)
    (hg : s.en = true ∨ i = .init) : hostIssue w s = .next (latchCommand w s) := by
  simp [hostIssue, hb, hd, hg]

theorem hostIssue_disabled {s : State} {w : Command} {i : Instr} (hb : s.busy = false) (hd : decode w = .ok i)
    (he : s.en = false) (hi : i ≠ .init) : hostIssue w s = .refused .commandWhileDisabled := by
  simp [hostIssue, hb, hd, he, hi]

theorem hostRead_ok_undef {s : State} (h : s.ok = none) : hostRead .ok s = .fault .hostReadsUndefOk := by
  simp [hostRead, portOk, h]

theorem hostRead_ok_defined {s : State} (h : s.ok ≠ none) : hostRead .ok s = .next s := by
  simp [hostRead, portOk, Option.isSome_iff_ne_none, h]

theorem hostRead_rdata_undef {s : State} (h : s.rdata = none) : hostRead .rdata s = .fault .hostReadsUndefRdata := by
  simp [hostRead, portRdata, h]

theorem hostRead_rdata_defined {s : State} (h : s.rdata ≠ none) : hostRead .rdata s = .next s := by
  simp [hostRead, portRdata, Option.isSome_iff_ne_none, h]

/-- With `BUSY = 1` ENGINE's turn is a step of the command `IR` decodes to (R15). -/
theorem engineTurn_of_decode {s : State} {w : Command} {i : Instr} (hb : s.busy = true) (hir : s.ir = some w)
    (hd : decode w = .ok i) : engineTurn s = exec i s := by
  simp [engineTurn, hb, hir, hd]

end Sys2Proof.Machine

namespace Sys2Proof.Safety

open Sys2Proof.Machine

/-- Settles O9, by the two forms of ENGINE's turn. -/
theorem stepRunsTheDecodedCommand : Obligations.StepRunsTheDecodedCommand := by
  intro s w i hwf hb hir hd
  refine ⟨fun hs => ?_, fun rest hs => ?_⟩
  · rw [step_of_silence hwf hs, engineTurn_of_decode hb hir hd]
  · rw [step_of_schedule hwf hs]
    exact engineTurn_of_decode hb hir hd

/-- Settles O1: pairwise distinctness is written out from `Nodup`, and the refusal is the first test of `step`. -/
theorem configurationWellFormedness : Obligations.ConfigurationWellFormedness := by
  intro c
  refine ⟨?_, fun hwf s hs => step_of_illFormed (hs ▸ hwf)⟩
  rw [Config.wf_iff]
  simp [divValue, and_assoc]

/-- Settles O10, clause by clause from the outcomes of HOST's turn. -/
theorem hostStepsAndRefusedInputs : Obligations.HostStepsAndRefusedInputs := by
  intro s rest
  refine ⟨step_of_illFormed, fun hwf => ⟨fun w hs => ?_, fun w hs => step_of_schedule hwf hs,
    fun hs => step_of_schedule hwf hs, fun hs => ?_, fun hs => ?_⟩⟩ <;> rw [step_of_schedule hwf hs]
  · refine ⟨fun hb => hostIssue_busy w hb, fun hb hrow => ?_, fun i hb hd => ⟨fun hg => ?_, fun he hi => ?_⟩⟩
    · obtain ⟨e, he⟩ := decode_error_of_no_row hrow
      exact ⟨e, hostIssue_reserved hb he⟩
    · exact hostIssue_enabled hb hd hg
    · exact hostIssue_disabled hb hd he hi
  · exact ⟨fun h => hostRead_ok_undef h, fun h => hostRead_ok_defined h⟩
  · exact ⟨fun h => hostRead_rdata_undef h, fun h => hostRead_rdata_defined h⟩

end Sys2Proof.Safety
end

section
/-! PROOFS. The step tables row by row: where a row goes on to, what its body needs, and what ENGINE's step at a row does
to the registers the invariant speaks of (R143, R170, R171, R175). -/

namespace Sys2Proof.Machine

/-- The issue step never clears `ACTIVE`: START sets it, the other bodies leave it (R31). -/
theorem issueStep_active {s : State} (p : Primitive) (h : s.active = true) : (issueStep p s).active = true := by
  cases p with
  | start => rfl
  | stop => exact h
  | tx b => exact h
  | rx a => exact h

/-- Only STOP's completion step writes `ACTIVE` (R31). -/
theorem completeStep_active {p : Primitive} {s t : State} (h : completeStep p s = .ok t) (hp : p ≠ .stop) :
    t.active = s.active := by
  rcases completeStep_ok h with ⟨-, rfl⟩ | ⟨rfl, -⟩ | ⟨b, st, -, -, rfl⟩ | ⟨a, st, d, -, -, -, rfl⟩
  · rfl
  · exact absurd rfl hp
  · obtain ⟨-, -, -, -, -, -, -, -, ha, -⟩ := txFlags_frame (writeAccepted s.cfg st) (retire s)
    exact ha
  · obtain ⟨-, -, -, -, -, -, -, ha, -⟩ := rxFlags_frame (readAccepted s.cfg st) d (retire s)
    exact ha

/-- What `next` can be: it moves the sequencer and nothing else, or it ends the command (R12, R143). -/
theorem applyNext_cases (n : Next) (s : State) :
    (∃ k, n = .goto k ∧ applyNext n s = { s with seq := k }) ∨
    ((applyNext n s).busy = false ∧ (applyNext n s).seq = 0 ∧ (applyNext n s).sub = false) := by
  cases n with
  | goto k => exact .inl ⟨k, rfl, rfl⟩
  | finish => exact .inr ⟨rfl, rfl, rfl⟩
  | fail => exact .inr ⟨rfl, rfl, rfl⟩
  | failRead => exact .inr ⟨rfl, rfl, rfl⟩

/-- `next` leaves the ghost state or makes it `error` (R12, R227). -/
theorem applyNext_phase (n : Next) (s : State) : (applyNext n s).phase = s.phase ∨ (applyNext n s).phase = .error := by
  cases n with
  | goto k => exact .inl rfl
  | finish => exact .inl rfl
  | fail => exact .inr rfl
  | failRead => exact .inr rfl

end Sys2Proof.Machine

namespace Sys2Proof.Safety

open Sys2Proof.Machine

/-- A successful byte leaves the ghost state outside a transaction when it was outside one (R38). -/
theorem inTransaction_byteOk {p : BusState} (h : inTransaction (byteOk p) = true) : inTransaction p = true := by
  cases p with
  | idle => cases h
  | started => rfl
  | addressPhase => rfl
  | dataPhase => rfl
  | stopped => cases h
  | error => cases h

/-- The flags of WRITEBYTE do not move the ghost state into a transaction (R38, R150). -/
theorem inTransaction_txFlags {ok : Bool} {s : State} (h : inTransaction (txFlags ok s).phase = true) :
    inTransaction s.phase = true := by
  cases ok with
  | true => exact inTransaction_byteOk h
  | false => cases h

/-- The flags of READBYTE do not move the ghost state into a transaction (R38, R155). -/
theorem inTransaction_rxFlags {ok : Bool} {d : Byte} {s : State} (h : inTransaction (rxFlags ok d s).phase = true) :
    inTransaction s.phase = true := by
  cases ok with
  | true => exact inTransaction_byteOk h
  | false => cases h

/-! ## Where a row goes on -/

/-- The steps a `next` can go on at. -/
def nextTargets (n : Next) : List (BitVec 3) :=
  match n with
  | .goto k => [k]
  | .finish => []
  | .fail => []
  | .failRead => []

/-- The steps a row can go on at, whatever `OK` holds. -/
def rowTargets (r : TableRow) : List (BitVec 3) :=
  match r with
  | .always _ n => nextTargets n
  | .test _ good bad => nextTargets good ++ nextTargets bad

/-- Where a row goes on is one of its targets (R178). -/
theorem mem_rowTargets {r : TableRow} {s : State} {k : BitVec 3} (h : rowNext r s = .goto k) : k ∈ rowTargets r := by
  cases r with
  | always p n =>
    obtain rfl : n = .goto k := h
    simp [rowTargets, nextTargets]
  | test p good bad =>
    simp only [rowNext] at h
    split at h <;> simp [rowTargets, nextTargets, h]

/-- A row that goes on does so at the next row of its table, is no stop, and is a start when it is the first (R170). -/
def GoesOnInOrder (rows : List TableRow) : Prop :=
  ∀ (seq k : BitVec 3) (r : TableRow), rows[seq.toNat]? = some r → k ∈ rowTargets r →
    k = seq + 1 ∧ (∃ q, rows[k.toNat]? = some q) ∧ rowBody r ≠ .stop ∧ (seq = 0 → rowBody r = .start)

theorem seq_cases : ∀ seq : BitVec 3,
    seq = 0 ∨ seq = 1 ∨ seq = 2 ∨ seq = 3 ∨ seq = 4 ∨ seq = 5 ∨ seq = 6 ∨ seq = 7 := by decide

/-- A primitive command has one row, which goes on nowhere (R143). -/
theorem goesOnInOrder_one (p : Primitive) : GoesOnInOrder [.always p .finish] := by
  intro seq k r hr hk
  obtain rfl : r = .always p .finish := by simpa using List.mem_of_getElem? hr
  simp [rowTargets, nextTargets] at hk

/-- Row by row, the seven of R171. -/
theorem goesOnInOrder_readregTable (ra : Byte) : GoesOnInOrder (readregTable ra) := by
  intro seq k r hr hk
  rcases seq_cases seq with rfl | rfl | rfl | rfl | rfl | rfl | rfl | rfl <;> cases hr <;>
    simp_all [rowTargets, nextTargets, rowBody, readregTable]

/-- Row by row, the five of R175. -/
theorem goesOnInOrder_writeregTable (ra d : Byte) : GoesOnInOrder (writeregTable ra d) := by
  intro seq k r hr hk
  rcases seq_cases seq with rfl | rfl | rfl | rfl | rfl | rfl | rfl | rfl <;> cases hr <;>
    simp_all [rowTargets, nextTargets, rowBody, writeregTable]

/-- A row of a command that goes on: at the next row of the same command, with `ACTIVE` left set by it. -/
theorem rowAt_goto {i : Instr} {seq k : BitVec 3} {r : TableRow} {s : State} (hr : rowAt i seq = some r)
    (hk : rowNext r s = .goto k) :
    k = seq + 1 ∧ (∃ q, rowAt i k = some q) ∧ rowBody r ≠ .stop ∧ (seq = 0 → rowBody r = .start) := by
  have hk := mem_rowTargets hk
  cases i with
  | init => cases hr
  | start => exact goesOnInOrder_one _ seq k r hr hk
  | stop => exact goesOnInOrder_one _ seq k r hr hk
  | writebyte b => exact goesOnInOrder_one _ seq k r hr hk
  | readbyte a => exact goesOnInOrder_one _ seq k r hr hk
  | readreg ra => exact goesOnInOrder_readregTable ra seq k r hr hk
  | writereg ra d => exact goesOnInOrder_writeregTable ra d seq k r hr hk

/-- Every command that uses the bus has a first row. -/
theorem exists_rowAt_zero {i : Instr} (hi : i ≠ .init) : ∃ r, rowAt i 0 = some r := by
  cases i with
  | init => exact absurd rfl hi
  | start => exact ⟨_, rfl⟩
  | stop => exact ⟨_, rfl⟩
  | writebyte b => exact ⟨_, rfl⟩
  | readbyte a => exact ⟨_, rfl⟩
  | readreg ra => exact ⟨_, rfl⟩
  | writereg ra d => exact ⟨_, rfl⟩

/-! ## The phase of a body -/

/-- The issue step hands over the phase of its body (R143). -/
theorem phaseOut_issueStep (p : Primitive) (s : State) : PhaseOut p (issueStep p s) := by
  cases p with
  | start => exact ⟨⟨s.active, rfl⟩, rfl⟩
  | stop => rfl
  | tx b => exact ⟨rfl, rfl, fun h => by cases h⟩
  | rx a => exact ⟨rfl, rfl, fun h => by cases h⟩

/-- A phase of a body that has not completed is one BUS can answer (R16, R71). -/
theorem outstanding_of_phaseOut {p : Primitive} {s : State} (h : PhaseOut p s) (hd : s.phDone = false) :
    ∃ q, outstanding s = .ok (some q) := by
  cases p with
  | start =>
    obtain ⟨⟨rep, hr⟩, -⟩ := h
    exact ⟨.start rep, by simp [outstanding, hd, hr]⟩
  | stop =>
    have hr : s.phReq = .stop := h
    exact ⟨.stop, by simp [outstanding, hd, hr]⟩
  | tx b =>
    obtain ⟨hr, hb, -⟩ := h
    exact ⟨.tx b, by simp [outstanding, hd, hr, hb]⟩
  | rx a =>
    obtain ⟨hr, ha, -⟩ := h
    exact ⟨.rx a, by simp [outstanding, hd, hr, ha]⟩

/-- No BUS step is enabled without a phase or after it has completed (R16). -/
theorem outstanding_of_phDone {s : State} (h : s.phDone = true) : outstanding s = .ok none := by
  simp [outstanding, h]

theorem outstanding_of_noPhase {s : State} (h : NoPhase s) : outstanding s = .ok none := by
  obtain ⟨hr, hd⟩ := h
  simp [outstanding, hr, hd]

/-- A completed phase of a body leaves what the completion step reads: `STATUS`, and after `Rx` also `DATA` (R71). -/
theorem phaseOut_completePhase {p : Primitive} {q : BusPhase} {s : State} (a : BusAnswer) (h : PhaseOut p s)
    (hq : outstanding s = .ok (some q)) : PhaseOut p (completePhase q a s) := by
  obtain ⟨-, hq⟩ := outstanding_some hq
  cases p with
  | start => exact h
  | stop => exact h
  | tx b =>
    obtain ⟨hr, hb, -⟩ := h
    obtain rfl : q = .tx b := by simpa [hr, hb] using hq
    exact ⟨hr, hb, fun _ => by simp⟩
  | rx ack =>
    obtain ⟨hr, ha, -⟩ := h
    obtain rfl : q = .rx ack := by simpa [hr, ha] using hq
    exact ⟨hr, ha, fun _ => by simp⟩

/-- The completion step of a body whose phase has completed reads no register in state `undef` (R11). -/
theorem exists_completeStep {p : Primitive} {s : State} (h : PhaseOut p s) (hd : s.phDone = true) :
    ∃ t, completeStep p s = .ok t := by
  cases p with
  | start => exact ⟨_, rfl⟩
  | stop => exact ⟨_, rfl⟩
  | tx b =>
    obtain ⟨-, -, hs⟩ := h
    obtain ⟨st, hst⟩ := Option.ne_none_iff_exists'.1 (hs hd)
    exact ⟨_, by simp only [completeStep, hst]; rfl⟩
  | rx a =>
    obtain ⟨-, -, hs⟩ := h
    obtain ⟨hst, hdata⟩ := hs hd
    obtain ⟨st, hst⟩ := Option.ne_none_iff_exists'.1 hst
    obtain ⟨d, hdata⟩ := Option.ne_none_iff_exists'.1 hdata
    exact ⟨_, by simp only [completeStep, hst, hdata]; rfl⟩

end Sys2Proof.Safety
end

section
/-! PROOFS. Every turn of every agent keeps the invariant (O35) and no turn of the block stops (O37). -/

namespace Sys2Proof.Safety

open Sys2Proof.Machine

/-! ## The invariant's parts -/

/-- What `InProgress` says of a command that uses the bus. -/
theorem inProgress_iff {i : Instr} (hi : i ≠ .init) (s : State) :
    InProgress i s ↔
      s.en = true ∧ (s.seq ≠ 0 → s.active = true) ∧
        ∃ r, rowAt i s.seq = some r ∧ if s.sub then PhaseOut (rowBody r) s else NoPhase s := by
  cases i with
  | init => exact absurd rfl hi
  | start => exact Iff.rfl
  | stop => exact Iff.rfl
  | writebyte b => exact Iff.rfl
  | readbyte a => exact Iff.rfl
  | readreg ra => exact Iff.rfl
  | writereg ra d => exact Iff.rfl

/-- The invariant does not speak of the schedule. -/
theorem inv_schedule {s : State} (h : Inv s) (rest : List Move) : Inv { s with schedule := rest } :=
  ⟨h.config, h.idle, h.command, h.divisor, h.ghost⟩

/-- The invariant does not speak of the BUS agent's hidden state. -/
theorem inv_bus {s : State} (h : Inv s) (b : BusAgent) : Inv { s with bus := b } :=
  ⟨h.config, h.idle, h.command, h.divisor, h.ghost⟩

/-- Either no phase is outstanding, or a command is at a row whose body has issued one. -/
theorem inv_phase_cases {s : State} (h : Inv s) :
    NoPhase s ∨
    (s.busy = true ∧ s.sub = true ∧ ∃ w i r, s.ir = some w ∧ decode w = .ok i ∧ i ≠ .init ∧ s.en = true ∧
      (s.seq ≠ 0 → s.active = true) ∧ rowAt i s.seq = some r ∧ PhaseOut (rowBody r) s) := by
  cases hb : s.busy with
  | false =>
    obtain ⟨-, -, hn⟩ := h.idle hb
    exact .inl hn
  | true =>
    obtain ⟨w, i, hw, hd, hp⟩ := h.command hb
    by_cases hi : i = .init
    · subst hi
      obtain ⟨-, -, hn⟩ := hp
      exact .inl hn
    · obtain ⟨hen, hact, r, hr, hp⟩ := (inProgress_iff hi s).1 hp
      cases hs : s.sub with
      | false => exact .inl (by simpa [hs] using hp)
      | true => exact .inr ⟨rfl, rfl, w, i, r, hw, hd, hi, hen, hact, hr, by simpa [hs] using hp⟩

/-! ## ENGINE -/

/-- One ENGINE step at a row keeps the command in progress, or ends it with the sequencer at rest (R143, R170). -/
theorem runRow_keeps_command {i : Instr} {r : TableRow} {s t : State} (hi : i ≠ .init) (hb : s.busy = true)
    (hr : rowAt i s.seq = some r) (hc : InProgress i s) (h : runRow r s = .next t) :
    (t.busy = true ∧ InProgress i t) ∨ (t.busy = false ∧ t.seq = 0 ∧ t.sub = false ∧ NoPhase t) := by
  obtain ⟨hen, hact, q, hq, hp⟩ := (inProgress_iff hi s).1 hc
  obtain rfl : r = q := Option.some.inj (hr.symm.trans hq)
  rcases runRow_next h with ⟨-, rfl⟩ | ⟨-, -, rfl⟩ | ⟨hs, -, u, hu, rfl⟩
  · obtain ⟨hsub, -, -, hbusy, -, -, hseq, hen', -⟩ := issueStep_frame (rowBody r) s
    refine .inl ⟨hbusy.trans hb, (inProgress_iff hi _).2 ⟨hen'.trans hen, ?_, r, by rw [hseq, hr], ?_⟩⟩
    · rw [hseq]
      exact fun h0 => issueStep_active _ (hact h0)
    · rw [if_pos hsub]
      exact phaseOut_issueStep (rowBody r) s
  · exact .inl ⟨hb, hc⟩
  · rw [if_pos hs] at hp
    obtain ⟨hsub, hreq, hdone, -, hbusy, -, hen', -⟩ := completeStep_frame hu
    rcases applyNext_cases (rowNext r u) u with ⟨k, hk, ha⟩ | ⟨hbusy', hseq', hsub'⟩
    · obtain ⟨-, ⟨q, hq⟩, hstop, hfirst⟩ := rowAt_goto hr hk
      have hactive : s.active = true := by
        by_cases h0 : s.seq = 0
        · rw [hfirst h0] at hp
          exact hp.2
        · exact hact h0
      rw [ha]
      refine .inl ⟨hbusy.trans hb, (inProgress_iff hi _).2 ⟨hen'.trans hen, fun _ => ?_, q, hq, ?_⟩⟩
      · exact (completeStep_active hu hstop).trans hactive
      · simp only [hsub, Bool.false_eq_true, if_false]
        exact ⟨hreq, hdone⟩
    · obtain ⟨-, -, -, -, -, hreq', hdone', -⟩ := applyNext_frame (rowNext r u) u
      exact .inr ⟨hbusy', hseq', hsub', hreq'.trans hreq, hdone'.trans hdone⟩

/-- A completion step leaves the ghost state inside a transaction only with `ACTIVE = 1` (R31, R38). -/
theorem completeStep_keeps_ghost {p : Primitive} {s t : State} (hp : PhaseOut p s)
    (hg : inTransaction s.phase = true → s.active = true) (h : completeStep p s = .ok t)
    (ht : inTransaction t.phase = true) : t.active = true := by
  by_cases hstop : p = .stop
  · subst hstop
    cases h
    cases ht
  · rw [completeStep_active h hstop]
    rcases completeStep_ok h with ⟨rfl, -⟩ | ⟨rfl, -⟩ | ⟨b, st, -, -, rfl⟩ | ⟨a, st, d, -, -, -, rfl⟩
    · exact hp.2
    · exact absurd rfl hstop
    · exact hg (inTransaction_txFlags (s := retire s) ht)
    · exact hg (inTransaction_rxFlags (s := retire s) ht)

/-- One ENGINE step at a row leaves the ghost state inside a transaction only with `ACTIVE = 1` (R31, R38). -/
theorem runRow_keeps_ghost {r : TableRow} {s t : State} (hp : s.sub = true → PhaseOut (rowBody r) s)
    (hg : inTransaction s.phase = true → s.active = true) (h : runRow r s = .next t)
    (ht : inTransaction t.phase = true) : t.active = true := by
  rcases runRow_next h with ⟨-, rfl⟩ | ⟨-, -, rfl⟩ | ⟨hs, -, u, hu, rfl⟩
  · obtain ⟨-, -, -, -, -, -, -, -, -, -, hphase, -⟩ := issueStep_frame (rowBody r) s
    exact issueStep_active _ (hg (hphase ▸ ht))
  · exact hg ht
  · obtain ⟨-, -, -, -, hact, -⟩ := applyNext_frame (rowNext r u) u
    rw [hact]
    rcases applyNext_phase (rowNext r u) u with hph | hph
    · exact completeStep_keeps_ghost (hp hs) hg hu (hph ▸ ht)
    · rw [hph] at ht
      cases ht

/-- INIT's step ends the command, with `EN` and `DIV` written (R140). -/
theorem execInit_keeps_inv {s : State} (h : Inv s) (hn : NoPhase s) :
    Inv (finish { s with div := some (BitVec.ofNat 8 (divValue s.cfg)), en := true }) where
  config := h.config
  idle := fun _ => ⟨rfl, rfl, hn⟩
  command := fun hb => by cases hb
  divisor := fun _ => rfl
  ghost := h.ghost

/-- One ENGINE step of the command in `IR` keeps the invariant (R15). -/
theorem exec_keeps_inv {i : Instr} {w : Command} {s t : State} (h : Inv s) (hb : s.busy = true) (hw : s.ir = some w)
    (hd : decode w = .ok i) (hc : InProgress i s) (ht : exec i s = .next t) : Inv t := by
  by_cases hi : i = .init
  · subst hi
    obtain ⟨-, -, hn⟩ := hc
    cases ht
    exact execInit_keeps_inv h hn
  · obtain ⟨-, -, r, hr, hp⟩ := (inProgress_iff hi s).1 hc
    rw [exec_rowAt hr] at ht
    obtain ⟨hir, hen, hdiv, -, hcfg, -⟩ := runRow_frame ht
    have hcmd := runRow_keeps_command hi hb hr hc ht
    exact
      { config := hcfg ▸ h.config
        idle := fun hb' => by simpa [hb'] using hcmd
        command := fun hb' => ⟨w, i, hir.trans hw, hd, by simpa [hb'] using hcmd⟩
        divisor := fun he => by rw [hdiv, hcfg]; exact h.divisor (hen ▸ he)
        ghost := runRow_keeps_ghost (fun hs => by simpa [hs] using hp) h.ghost ht }

theorem engineTurn_keeps_inv {s t : State} (h : Inv s) (ht : engineTurn s = .next t) : Inv t := by
  rcases engineTurn_next ht with ⟨-, rfl⟩ | ⟨hb, w, i, hw, hd, he⟩
  · exact h
  · obtain ⟨w', i', hw', hd', hc⟩ := h.command hb
    obtain rfl : w = w' := Option.some.inj (hw.symm.trans hw')
    obtain rfl : i = i' := Except.ok.inj (hd.symm.trans hd')
    exact exec_keeps_inv h hb hw hd hc he

/-! ## HOST, BUS and reset -/

/-- HOST's issue step puts its command in progress at its first row (R14). -/
theorem hostIssue_keeps_inv {w : Command} {s t : State} (h : Inv s) (ht : hostIssue w s = .next t) : Inv t := by
  obtain ⟨hb, ⟨i, hd, hg⟩, rfl⟩ := hostIssue_next ht
  obtain ⟨-, -, hn⟩ := h.idle hb
  refine ⟨h.config, fun hb' => (by cases hb'), fun _ => ⟨w, i, rfl, hd, ?_⟩, h.divisor, h.ghost⟩
  by_cases hi : i = .init
  · subst hi
    exact ⟨rfl, rfl, hn⟩
  · obtain ⟨r, hr⟩ := exists_rowAt_zero hi
    exact (inProgress_iff hi _).2 ⟨hg.resolve_right hi, fun h0 => absurd rfl h0, r, hr, hn⟩

/-- The BUS agent's writes for the outstanding phase keep the invariant, whatever it answers (R71). -/
theorem completePhase_keeps_inv {p : BusPhase} {s : State} (a : BusAnswer) (h : Inv s)
    (hp : outstanding s = .ok (some p)) : Inv (completePhase p a s) := by
  rcases inv_phase_cases h with hn | ⟨hb, hs, w, i, r, hw, hd, hi, hen, hact, hr, hout⟩
  · rw [outstanding_of_noPhase hn] at hp
    cases hp
  · refine ⟨h.config, fun hb' => ?_, fun _ => ⟨w, i, hw, hd, ?_⟩, h.divisor, h.ghost⟩
    · rw [completePhase_busy, hb] at hb'
      cases hb'
    · refine (inProgress_iff hi _).2 ⟨hen, hact, r, hr, ?_⟩
      rw [completePhase_sub, if_pos hs]
      exact phaseOut_completePhase a hout hp

/-- A BUS turn keeps the invariant when the agent's step does. -/
theorem busTurn_keeps_inv {k : BusPhase → State → State} {s t : State} (h : Inv s)
    (ht : busTurn k s = .next t) (hk : ∀ p, outstanding s = .ok (some p) → Inv (k p s)) : Inv t := by
  rcases busTurn_next ht with ⟨p, hp, rfl⟩ | ⟨-, rfl⟩
  · exact hk p hp
  · exact h

theorem busDevice_keeps_inv {s t : State} (h : Inv s) (ht : busDevice s = .next t) : Inv t := by
  unfold busDevice at ht
  exact busTurn_keeps_inv h ht fun p hp => completePhase_keeps_inv _ (inv_bus h _) hp

theorem wireTurn_keeps_inv {p : BusPhase} {s : State} (others : Lines) (h : Inv s)
    (hp : outstanding s = .ok (some p)) : Inv (wireTurn others p s) := by
  rcases wireTurn_cases others p s with hw | hw <;> rw [hw]
  · exact inv_bus h _
  · exact completePhase_keeps_inv _ (inv_bus h _) hp

/-- The reset event puts the block at rest, in the same configuration (R250). -/
theorem resetEvent_keeps_inv {s t : State} (h : Inv s) (ht : resetEvent s = .next t) : Inv t := by
  cases ht
  exact ⟨h.config, fun _ => ⟨rfl, rfl, rfl, rfl⟩, fun hb => (by cases hb), fun he => (by cases he),
    fun hg => (by cases hg)⟩

/-- The turn of every agent keeps the invariant (R13 to R16, R250). -/
theorem turn_keeps_inv {m : Move} {s t : State} (h : Inv s) (ht : turn m s = .next t) : Inv t := by
  cases m with
  | engine => exact engineTurn_keeps_inv h ht
  | hostIssue w => exact hostIssue_keeps_inv h ht
  | irqIssue w => cases ht
  | hostRead p => exact hostRead_next ht ▸ h
  | bus status data => exact busTurn_keeps_inv h ht fun p hp => completePhase_keeps_inv _ h hp
  | busDevice => exact busDevice_keeps_inv h ht
  | busWire others => exact busTurn_keeps_inv h ht fun p hp => wireTurn_keeps_inv others h hp
  | reset => exact resetEvent_keeps_inv h ht

/-- Settles O35, turn by turn: the schedule's next, or ENGINE's when it has run out. -/
theorem everyStepKeepsInvariant : Obligations.EveryStepKeepsInvariant := by
  intro s t h ht
  obtain ⟨-, ⟨-, he⟩ | ⟨m, rest, -, hm⟩⟩ := step_next ht
  · exact engineTurn_keeps_inv h he
  · exact turn_keeps_inv (inv_schedule h rest) hm

/-! ## The block does not stop -/

/-- ENGINE's step of a command in progress goes on (R11). -/
theorem exec_goes_on {i : Instr} {s : State} (hc : InProgress i s) : ∃ t, exec i s = .next t := by
  by_cases hi : i = .init
  · subst hi
    exact ⟨_, rfl⟩
  · obtain ⟨-, -, r, hr, hp⟩ := (inProgress_iff hi s).1 hc
    rw [exec_rowAt hr]
    cases hs : s.sub with
    | false => exact ⟨_, runRow_issue r hs⟩
    | true =>
      rw [if_pos hs] at hp
      cases hd : s.phDone with
      | false => exact ⟨_, runRow_wait r hs hd⟩
      | true =>
        obtain ⟨u, hu⟩ := exists_completeStep hp hd
        exact ⟨_, runRow_complete r hs hd hu⟩

theorem engineTurn_goes_on {s : State} (h : Inv s) : ∃ t, engineTurn s = .next t := by
  cases hb : s.busy with
  | false => exact ⟨s, by simp [engineTurn, hb]⟩
  | true =>
    obtain ⟨w, i, hw, hd, hc⟩ := h.command hb
    rw [engineTurn_of_decode hb hw hd]
    exact exec_goes_on hc

/-- BUS reads no register in state `undef` (R11, R71). -/
theorem outstanding_defined {s : State} (h : Inv s) : ∃ p, outstanding s = .ok p := by
  cases hd : s.phDone with
  | true => exact ⟨none, outstanding_of_phDone hd⟩
  | false =>
    rcases inv_phase_cases h with hn | ⟨-, -, w, i, r, -, -, -, -, -, -, hout⟩
    · exact ⟨none, outstanding_of_noPhase hn⟩
    · obtain ⟨p, hp⟩ := outstanding_of_phaseOut hout hd
      exact ⟨some p, hp⟩

theorem busTurn_goes_on {s : State} (h : Inv s) (k : BusPhase → State → State) : ∃ t, busTurn k s = .next t := by
  obtain ⟨p, hp⟩ := outstanding_defined h
  cases p with
  | none => exact ⟨s, by simp only [busTurn, hp]⟩
  | some p => exact ⟨k p s, by simp only [busTurn, hp]⟩

theorem busDevice_goes_on {s : State} (h : Inv s) : ∃ t, busDevice s = .next t := by
  unfold busDevice
  exact busTurn_goes_on h _

theorem safeStep_of_next {s t : State} (h : step s = .next t) : SafeStep s := by
  simp only [SafeStep, h]

theorem safeStep_of_fault {s : State} {f : Fault} (h : step s = .fault f) (hf : hostFault f = true) : SafeStep s := by
  simpa only [SafeStep, h] using hf

theorem safeStep_of_refused {s : State} {r : Refusal} (h : step s = .refused r)
    (hs : (∃ w rest, s.schedule = .hostIssue w :: rest) ∨ ∃ w rest, s.schedule = .irqIssue w :: rest) : SafeStep s := by
  simpa only [SafeStep, h] using hs

/-- HOST's issue turn goes on or is refused (R14, R236). -/
theorem hostIssue_outcome (w : Command) (s : State) :
    (∃ t, hostIssue w s = .next t) ∨ ∃ r, hostIssue w s = .refused r := by
  cases hb : s.busy with
  | true => exact .inr ⟨_, hostIssue_busy w hb⟩
  | false =>
    cases hd : decode w with
    | error e => exact .inr ⟨_, hostIssue_reserved hb hd⟩
    | ok i =>
      by_cases hg : s.en = true ∨ i = .init
      · exact .inl ⟨_, hostIssue_enabled hb hd hg⟩
      · obtain ⟨he, hi⟩ := not_or.1 hg
        exact .inr ⟨_, hostIssue_disabled hb hd (by simpa using he) hi⟩

/-- HOST's read goes on or is a fault of HOST (R14, R236). -/
theorem hostRead_outcome (p : HostPort) (s : State) :
    hostRead p s = .next s ∨ ∃ f, hostRead p s = .fault f ∧ hostFault f = true := by
  cases p with
  | busy => exact .inl rfl
  | ok =>
    by_cases h : s.ok = none
    · exact .inr ⟨_, hostRead_ok_undef h, rfl⟩
    · exact .inl (hostRead_ok_defined h)
  | rdata =>
    by_cases h : s.rdata = none
    · exact .inr ⟨_, hostRead_rdata_undef h, rfl⟩
    · exact .inl (hostRead_rdata_defined h)

/-- Settles O37: from the invariant ENGINE and BUS always go on, and HOST's and interrupt context's turns stop only as
R236 says. -/
theorem blockNeverReadsUndef : Obligations.BlockNeverReadsUndef := by
  intro s h
  cases hs : s.schedule with
  | nil =>
    obtain ⟨t, ht⟩ := engineTurn_goes_on h
    exact safeStep_of_next ((step_of_silence h.config hs).trans ht)
  | cons m rest =>
    have hstep := step_of_schedule h.config hs
    have hinv := inv_schedule h rest
    have on : (∃ t, turn m { s with schedule := rest } = .next t) → SafeStep s :=
      fun ⟨_, ht⟩ => safeStep_of_next (hstep.trans ht)
    cases m with
    | engine => exact on (engineTurn_goes_on hinv)
    | hostIssue w =>
      rcases hostIssue_outcome w { s with schedule := rest } with ht | ⟨r, hr⟩
      · exact on ht
      · exact safeStep_of_refused (hstep.trans hr) (.inl ⟨w, rest, hs⟩)
    | irqIssue w => exact safeStep_of_refused hstep (.inr ⟨w, rest, hs⟩)
    | hostRead p =>
      rcases hostRead_outcome p { s with schedule := rest } with ht | ⟨f, hf, hhost⟩
      · exact on ⟨_, ht⟩
      · exact safeStep_of_fault (hstep.trans hf) hhost
    | bus status data => exact on (busTurn_goes_on hinv _)
    | busDevice => exact on (busDevice_goes_on hinv)
    | busWire others => exact on (busTurn_goes_on hinv _)
    | reset => exact on ⟨_, rfl⟩

end Sys2Proof.Safety
end

section
/-! PROOFS. What a step that goes on can do, said once: the row ENGINE runs stands in the command's step table, a BUS turn
writes four fields, and every other turn passes, runs INIT, latches a command or is the reset event (R13 to R16, R71). -/

namespace Sys2Proof.Safety

open Sys2Proof.Machine

/-- The step table of a command that uses the bus (R143, R171, R175). -/
def stepTable (i : Instr) : List TableRow :=
  match i with
  | .init => []
  | .start => [.always .start .finish]
  | .stop => [.always .stop .finish]
  | .writebyte b => [.always (.tx b) .finish]
  | .readbyte a => [.always (.rx a) .finish]
  | .readreg ra => readregTable ra
  | .writereg ra d => writeregTable ra d

/-- The row a command is at is the one its step table has at `SEQ`. -/
theorem rowAt_eq_stepTable (i : Instr) (seq : BitVec 3) : rowAt i seq = (stepTable i)[seq.toNat]? := by
  cases i <;> rfl

/-- No step table has more than the seven rows of R171. -/
theorem length_stepTable_le (i : Instr) : (stepTable i).length ≤ 7 := by
  cases i <;> simp [stepTable, readregTable, writeregTable]

theorem runTable_next {rows : List TableRow} {s t : State} (h : runTable rows s = .next t) :
    (∃ r ∈ rows, runRow r s = .next t) ∨ t = s := by
  unfold runTable at h
  split at h
  · next r hr => exact .inl ⟨r, List.mem_of_getElem? hr, h⟩
  · exact .inr (by simpa using h.symm)

/-- A command that uses the bus runs a row of its step table, or has no step (R143, R170). -/
theorem exec_next_row {i : Instr} {s t : State} (hi : i ≠ .init) (h : exec i s = .next t) :
    (∃ r ∈ stepTable i, runRow r s = .next t) ∨ t = s := by
  cases i with
  | init => exact absurd rfl hi
  | start => exact .inl ⟨_, List.mem_singleton_self _, h⟩
  | stop => exact .inl ⟨_, List.mem_singleton_self _, h⟩
  | writebyte b => exact .inl ⟨_, List.mem_singleton_self _, h⟩
  | readbyte a => exact .inl ⟨_, List.mem_singleton_self _, h⟩
  | readreg ra => exact runTable_next h
  | writereg ra d => exact runTable_next h

/-- The state the turn of a step is taken in: `s` with the next turn of the schedule taken off. -/
def afterTurn (s : State) : State := { s with schedule := s.schedule.tail }

theorem afterTurn_of_silence {s : State} (h : s.schedule = []) : afterTurn s = s := by
  cases s
  cases h
  rfl

theorem afterTurn_of_schedule {s : State} {m : Move} {rest : List Move} (h : s.schedule = m :: rest) :
    afterTurn s = { s with schedule := rest } := by
  simp [afterTurn, h]

/-- `t` differs from `s` in nothing but what a BUS agent writes (R71): `STATUS`, `DATA`, `PH_DONE` and hidden state. -/
def BusWrote (s t : State) : Prop :=
  ∃ status data phDone bus, t = { s with status := status, data := data, phDone := phDone, bus := bus }

/-- What a step from `s` that goes on to `t` can be. -/
inductive StepCase (s t : State) : Prop where
  /-- the turn passes: no step is enabled, or HOST reads a port. -/
  | pass (ht : t = afterTurn s)
  /-- ENGINE runs INIT (R140). -/
  | init (w : Command) (hir : s.ir = some w) (hd : decode w = .ok .init)
      (ht : t = finish { afterTurn s with div := some (BitVec.ofNat 8 (divValue s.cfg)), en := true })
  /-- ENGINE runs a row of the step table of the command in `IR` (R143, R170). -/
  | row (w : Command) (i : Instr) (r : TableRow) (hb : s.busy = true) (hir : s.ir = some w) (hd : decode w = .ok i)
      (hr : r ∈ stepTable i) (hrow : runRow r (afterTurn s) = .next t)
  /-- HOST issues a command (R14). -/
  | hostIssue (w : Command) (rest : List Move) (hs : s.schedule = .hostIssue w :: rest)
      (ht : t = latchCommand w (afterTurn s))
  /-- BUS takes its step, or one instant passes on the wires (R71, R101). -/
  | bus (m : Move) (rest : List Move) (hs : s.schedule = m :: rest) (hm : isBusTurn m = true)
      (ht : BusWrote (afterTurn s) t)
  /-- the reset event (R250). -/
  | reset (rest : List Move) (hs : s.schedule = .reset :: rest) (ht : resetEvent (afterTurn s) = .next t)

theorem stepCase_of_engineTurn {s t : State} (h : engineTurn (afterTurn s) = .next t) : StepCase s t := by
  rcases engineTurn_next h with ⟨-, ht⟩ | ⟨hb, w, i, hir, hd, he⟩
  · exact .pass ht
  · by_cases hi : i = .init
    · subst hi
      cases he
      exact .init w hir hd rfl
    · rcases exec_next_row hi he with ⟨r, hr, hrow⟩ | ht
      · exact .row w i r hb hir hd hr hrow
      · exact .pass ht

/-- A BUS turn that passes writes nothing; one that takes the agent's step writes what that step does (R16). -/
theorem busTurn_wrote {k : BusPhase → State → State} {s t : State} (hk : ∀ p, BusWrote s (k p s))
    (h : busTurn k s = .next t) : BusWrote s t := by
  rcases busTurn_next h with ⟨p, -, rfl⟩ | ⟨-, rfl⟩
  · exact hk p
  · exact ⟨_, _, _, _, rfl⟩

/-- The three kinds of BUS agent write the same registers (R71). -/
theorem turn_busWrote {m : Move} {s t : State} (hm : isBusTurn m = true) (h : turn m s = .next t) : BusWrote s t := by
  cases m with
  | bus status data => exact busTurn_wrote (fun _ => ⟨_, _, _, _, rfl⟩) h
  | busDevice =>
    have h : busDevice s = .next t := h
    unfold busDevice at h
    exact busTurn_wrote (fun _ => ⟨_, _, _, _, rfl⟩) h
  | busWire others =>
    refine busTurn_wrote (fun p => ?_) h
    rcases wireTurn_cases others p s with hw | hw
    · exact ⟨_, _, _, _, hw⟩
    · exact ⟨_, _, _, _, hw⟩
  | engine => cases hm
  | hostIssue w => cases hm
  | irqIssue w => cases hm
  | hostRead p => cases hm
  | reset => cases hm

/-- A step that goes on is one of the cases, agent by agent. -/
theorem step_cases {s t : State} (h : step s = .next t) : StepCase s t := by
  obtain ⟨-, ⟨hs, he⟩ | ⟨m, rest, hs, ht⟩⟩ := step_next h
  · exact stepCase_of_engineTurn (by rwa [afterTurn_of_silence hs])
  · rw [← afterTurn_of_schedule hs] at ht
    cases m with
    | engine => exact stepCase_of_engineTurn ht
    | hostIssue w =>
      obtain ⟨-, -, ht⟩ := hostIssue_next ht
      exact .hostIssue w rest hs ht
    | irqIssue w => cases ht
    | hostRead p => exact .pass (hostRead_next ht)
    | bus status data => exact .bus _ rest hs rfl (turn_busWrote rfl ht)
    | busDevice => exact .bus _ rest hs rfl (turn_busWrote rfl ht)
    | busWire others => exact .bus _ rest hs rfl (turn_busWrote rfl ht)
    | reset => exact .reset rest hs ht

end Sys2Proof.Safety
end

section
/-! PROOFS. Which step writes which register: STATUS (O38), EN (O39), ACTIVE (O40), RDATA (O41), IR and the inputs (O42),
SEQ (O43), PHASE (O20), and the invariant at reset (O34). -/

namespace Sys2Proof.Safety

open Sys2Proof.Machine

/-! ## STATUS, EN, IR and the inputs -/

/-- Settles O38, case by case of the step. -/
theorem onlyBusWritesStatus : Obligations.OnlyBusWritesStatus := by
  intro s t h hne
  cases step_cases h with
  | pass ht => exact absurd (ht ▸ rfl) hne
  | init w hir hd ht => exact absurd (ht ▸ rfl) hne
  | row w i r hb hir hd hr hrow =>
    obtain ⟨-, -, -, hstatus, -⟩ := runRow_frame hrow
    exact absurd hstatus hne
  | hostIssue w rest hs ht => exact absurd (ht ▸ rfl) hne
  | bus m rest hs hm => exact ⟨m, rest, hs, .inl hm⟩
  | reset rest hs => exact ⟨.reset, rest, hs, .inr rfl⟩

/-- A step that goes on keeps `EN`, sets it by INIT, or is the reset event, which clears it (R30). -/
theorem step_en {s t : State} (h : step s = .next t) :
    t.en = s.en ∨ (t.en = true ∧ ∃ w, s.ir = some w ∧ decode w = .ok .init) ∨
      (t.en = false ∧ ∃ rest, s.schedule = .reset :: rest) := by
  cases step_cases h with
  | pass ht => exact .inl (ht ▸ rfl)
  | init w hir hd ht => exact .inr (.inl ⟨ht ▸ rfl, w, hir, hd⟩)
  | row w i r hb hir hd hr hrow =>
    obtain ⟨-, hen, -⟩ := runRow_frame hrow
    exact .inl hen
  | hostIssue w rest hs ht => exact .inl (ht ▸ rfl)
  | bus m rest hs hm ht =>
    obtain ⟨_, _, _, _, rfl⟩ := ht
    exact .inl rfl
  | reset rest hs ht =>
    cases ht
    exact .inr (.inr ⟨rfl, rest, hs⟩)

/-- A command HOST issues with `EN = 0` is INIT (R14, R30). -/
theorem hostIssue_disabled_init {s t : State} {w : Command} (he : s.en = false) (h : hostIssue w s = .next t) :
    decode w = .ok .init := by
  obtain ⟨-, ⟨i, hd, hen | hi⟩, -⟩ := hostIssue_next h
  · exact absurd (he.symm.trans hen) Bool.false_ne_true
  · exact hi ▸ hd

/-- Settles O39: the writers of `EN`, HOST's gate, and INIT's effect. -/
theorem enableWriters : Obligations.EnableWriters := by
  intro s t h
  refine ⟨fun hs ht => ?_, fun hs ht => ?_, fun hs w rest hsch => ?_, fun u v hv => ?_⟩
  · rcases step_en h with hkeep | ⟨hset, -⟩ | ⟨-, hreset⟩
    · simp [hkeep, hs] at ht
    · simp [hset] at ht
    · exact hreset
  · rcases step_en h with hkeep | ⟨-, hinit⟩ | ⟨hclear, -⟩
    · simp [hkeep, hs] at ht
    · exact hinit
    · simp [hclear] at ht
  · obtain ⟨hwf, -⟩ := step_next h
    rw [step_of_schedule hwf hsch] at h
    exact hostIssue_disabled_init (s := { s with schedule := rest }) hs h
  · cases hv
    rfl

/-- Settles O42, case by case of the step. -/
theorem commandAndInputsFrame : Obligations.CommandAndInputsFrame := by
  intro s t h
  cases step_cases h with
  | pass ht =>
    subst ht
    exact ⟨rfl, rfl, fun hne => absurd rfl hne⟩
  | init w hir hd ht =>
    subst ht
    exact ⟨rfl, rfl, fun hne => absurd rfl hne⟩
  | row w i r hb hir hd hr hrow =>
    obtain ⟨hkeep, -, -, -, hcfg, hsch, -⟩ := runRow_frame hrow
    exact ⟨hcfg, hsch, fun hne => absurd hkeep hne⟩
  | hostIssue w rest hs ht =>
    subst ht
    exact ⟨rfl, rfl, fun _ => ⟨_, rest, hs, .inr ⟨w, rfl, rfl⟩⟩⟩
  | bus m rest hs hm ht =>
    obtain ⟨_, _, _, _, rfl⟩ := ht
    exact ⟨rfl, rfl, fun hne => absurd rfl hne⟩
  | reset rest hs ht =>
    cases ht
    exact ⟨rfl, rfl, fun _ => ⟨_, rest, hs, .inl rfl⟩⟩

/-! ## ACTIVE -/

/-- In every step table the row of a stop is the last one, which ends the command whatever `OK` holds (R147, R171, R175). -/
theorem eq_always_stop_of_mem {i : Instr} :
    ∀ r ∈ stepTable i, rowBody r = .stop → r = .always .stop .finish := by
  cases i <;> simp [stepTable, readregTable, writeregTable, rowBody]

/-- An issue step changes `ACTIVE` only for START, from 0 (R144). -/
theorem issueStep_writes_active {p : Primitive} {s : State} (h : (issueStep p s).active ≠ s.active) :
    p = .start ∧ s.active = false := by
  cases p with
  | start => exact ⟨rfl, by simpa [issueStep] using h.symm⟩
  | stop => exact absurd rfl h
  | tx b => exact absurd rfl h
  | rx a => exact absurd rfl h

/-- A row changes `ACTIVE` by the issue step of START or by the completion step of STOP (R31). -/
theorem runRow_writes_active {i : Instr} {r : TableRow} {s t : State} (hr : r ∈ stepTable i)
    (h : runRow r s = .next t) (hne : t.active ≠ s.active) :
    (s.sub = false ∧ t.sub = true ∧ t.phReq = .start false ∧ t.active = true) ∨
    (s.sub = true ∧ s.phDone = true ∧ t.active = false ∧ t.phase = .stopped) := by
  rcases runRow_next h with ⟨hs, rfl⟩ | ⟨-, -, rfl⟩ | ⟨hs, hd, u, hu, rfl⟩
  · obtain ⟨hp, ha⟩ := issueStep_writes_active hne
    rw [hp]
    exact .inl ⟨hs, rfl, congrArg PhReq.start ha, rfl⟩
  · exact absurd rfl hne
  · obtain ⟨-, -, -, -, hactive, -⟩ := applyNext_frame (rowNext r u) u
    have hstop : rowBody r = .stop := by
      by_contra hp
      exact hne (hactive.trans (completeStep_active hu hp))
    obtain rfl := eq_always_stop_of_mem r hr hstop
    cases hu
    exact .inr ⟨hs, hd, rfl, rfl⟩

/-- Settles O40: of the cases of the step only a row of ENGINE's and the reset event write `ACTIVE`. -/
theorem activeWriters : Obligations.ActiveWriters := by
  intro s t h hne
  cases step_cases h with
  | pass ht => exact absurd (ht ▸ rfl) hne
  | init w hir hd ht => exact absurd (ht ▸ rfl) hne
  | row w i r hb hir hd hr hrow =>
    rcases runRow_writes_active hr hrow hne with hissue | hcomplete
    · exact .inr (.inl ⟨hb, hissue⟩)
    · exact .inr (.inr ⟨hb, hcomplete⟩)
  | hostIssue w rest hs ht => exact absurd (ht ▸ rfl) hne
  | bus m rest hs hm ht =>
    obtain ⟨_, _, _, _, rfl⟩ := ht
    exact absurd rfl hne
  | reset rest hs => exact .inl ⟨rest, hs⟩

/-! ## RDATA -/

/-- The rows that write `RDATA`: a reception, and a row that fails as READREG's do (R155, R171). -/
def RowWritesRdata (r : TableRow) : Prop := (∃ a, rowBody r = .rx a) ∨ ∃ u, rowNext r u = .failRead

/-- Only a reception's completion step writes `RDATA` (R155). -/
theorem completeStep_rdata {p : Primitive} {s t : State} (h : completeStep p s = .ok t) (hp : ∀ a, p ≠ .rx a) :
    t.rdata = s.rdata := by
  rcases completeStep_ok h with ⟨-, rfl⟩ | ⟨-, rfl⟩ | ⟨b, st, -, -, rfl⟩ | ⟨a, st, d, ha, -⟩
  · rfl
  · rfl
  · obtain ⟨-, -, hrdata, -⟩ := txFlags_frame (writeAccepted s.cfg st) (retire s)
    exact hrdata
  · exact absurd ha (hp a)

/-- Only READREG's failure writes `RDATA` (R171). -/
theorem applyNext_rdata {n : Next} (s : State) (h : n ≠ .failRead) : (applyNext n s).rdata = s.rdata := by
  cases n with
  | goto k => rfl
  | finish => rfl
  | fail => rfl
  | failRead => exact absurd rfl h

/-- A row changes `RDATA` only in its completion step, and only when it is one of those that write it. -/
theorem runRow_writes_rdata {r : TableRow} {s t : State} (h : runRow r s = .next t) (hne : t.rdata ≠ s.rdata) :
    s.sub = true ∧ s.phDone = true ∧ RowWritesRdata r := by
  rcases runRow_next h with ⟨-, rfl⟩ | ⟨-, -, rfl⟩ | ⟨hs, hd, u, hu, rfl⟩
  · obtain ⟨-, -, -, -, -, hrdata, -⟩ := issueStep_frame (rowBody r) s
    exact absurd hrdata hne
  · exact absurd rfl hne
  · refine ⟨hs, hd, ?_⟩
    by_contra hw
    obtain ⟨hbody, hnext⟩ := not_or.1 hw
    have hcomplete := completeStep_rdata hu fun a ha => hbody ⟨a, ha⟩
    exact hne ((applyNext_rdata u fun hn => hnext ⟨u, hn⟩).trans hcomplete)

/-- No row of WRITEREG's table writes `RDATA` (R175). -/
theorem not_rowWritesRdata_writereg {ra d : Byte} : ∀ r ∈ writeregTable ra d, ¬RowWritesRdata r := by
  simp [writeregTable, RowWritesRdata, rowBody, rowNext, ite_eq_iff]

/-- The row of a primitive command that receives nothing does not write `RDATA` (R144, R147, R150). -/
theorem not_rowWritesRdata_finish {p : Primitive} (hp : ∀ a, p ≠ .rx a) :
    ∀ r ∈ [TableRow.always p .finish], ¬RowWritesRdata r := by
  simp [RowWritesRdata, rowBody, rowNext, hp]

/-- Only READBYTE's and READREG's tables have a row that writes `RDATA` (R23). -/
theorem read_of_rowWritesRdata {i : Instr} {r : TableRow} (hr : r ∈ stepTable i) (hw : RowWritesRdata r) :
    (∃ a, i = .readbyte a) ∨ ∃ ra, i = .readreg ra := by
  cases i with
  | init => cases hr
  | start => exact absurd hw (not_rowWritesRdata_finish (p := .start) nofun r hr)
  | stop => exact absurd hw (not_rowWritesRdata_finish (p := .stop) nofun r hr)
  | writebyte b => exact absurd hw (not_rowWritesRdata_finish (p := .tx b) nofun r hr)
  | readbyte a => exact .inl ⟨a, rfl⟩
  | readreg ra => exact .inr ⟨ra, rfl⟩
  | writereg ra d => exact absurd hw (not_rowWritesRdata_writereg r hr)

/-- Settles O41: of the cases of the step only a row of ENGINE's and the reset event write `RDATA`. -/
theorem rdataWriters : Obligations.RdataWriters := by
  intro s t h hne
  cases step_cases h with
  | pass ht => exact absurd (ht ▸ rfl) hne
  | init w hir hd ht => exact absurd (ht ▸ rfl) hne
  | row w i r hb hir hd hr hrow =>
    obtain ⟨hsub, hdone, hw⟩ := runRow_writes_rdata hrow hne
    exact .inr ⟨hb, hsub, hdone, w, i, hir, hd, read_of_rowWritesRdata hr hw⟩
  | hostIssue w rest hs ht => exact absurd (ht ▸ rfl) hne
  | bus m rest hs hm ht =>
    obtain ⟨_, _, _, _, rfl⟩ := ht
    exact absurd rfl hne
  | reset rest hs => exact .inl ⟨rest, hs⟩

/-! ## SEQ -/

/-- A `SEQ` at which a command has a row is at most 6 (R170). -/
theorem seq_le_of_rowAt {i : Instr} {seq : BitVec 3} {r : TableRow} (h : rowAt i seq = some r) : seq.toNat ≤ 6 := by
  rw [rowAt_eq_stepTable] at h
  obtain ⟨hlt, -⟩ := List.getElem?_eq_some_iff.1 h
  have hlen := length_stepTable_le i
  omega

/-- ENGINE's step at the row a command is at leaves `SEQ`, raises it by one within the table, or ends the command. -/
theorem runRow_seq {i : Instr} {r : TableRow} {s t : State} (hr : rowAt i s.seq = some r) (h : runRow r s = .next t) :
    t.seq.toNat ≤ 6 ∧ (t.seq = s.seq ∨ t.seq.toNat = s.seq.toNat + 1 ∨ (t.seq = 0 ∧ t.busy = false)) := by
  have hle := seq_le_of_rowAt hr
  rcases runRow_next h with ⟨-, rfl⟩ | ⟨-, -, rfl⟩ | ⟨-, -, u, hu, rfl⟩
  · obtain ⟨-, -, -, -, -, -, hseq, -⟩ := issueStep_frame (rowBody r) s
    exact ⟨hseq ▸ hle, .inl hseq⟩
  · exact ⟨hle, .inl rfl⟩
  · rcases applyNext_cases (rowNext r u) u with ⟨k, hk, ha⟩ | ⟨hbusy, hseq, -⟩
    · obtain ⟨hk, ⟨q, hq⟩, -⟩ := rowAt_goto hr hk
      rw [ha]
      exact ⟨seq_le_of_rowAt hq, .inr (.inl (by subst hk; bv_omega))⟩
    · exact ⟨by simp [hseq], .inr (.inr ⟨hseq, hbusy⟩)⟩

/-- Settles O43: INIT ends its command, any other command in progress is at a row of its table. -/
theorem sequencerCountsUp : Obligations.SequencerCountsUp := by
  intro s t hinv hb hs h
  have ht : engineTurn (afterTurn s) = .next t := by
    rcases hs with hs | ⟨rest, hs⟩
    · rwa [afterTurn_of_silence hs, ← step_of_silence hinv.config hs]
    · rw [afterTurn_of_schedule hs]
      exact (step_of_schedule hinv.config hs).symm.trans h
  obtain ⟨w, i, hir, hd, hc⟩ := hinv.command hb
  rw [engineTurn_of_decode (s := afterTurn s) hb hir hd] at ht
  by_cases hi : i = .init
  · subst hi
    cases ht
    exact ⟨Nat.zero_le 6, .inr (.inr ⟨rfl, rfl⟩)⟩
  · obtain ⟨-, -, r, hr, -⟩ := (inProgress_iff hi s).1 hc
    rw [exec_rowAt (s := afterTurn s) hr] at ht
    exact runRow_seq (s := afterTurn s) hr ht

/-! ## PHASE -/

/-- Settles O20, body by body; a byte body by whether its status was accepted. -/
theorem ghostPhaseTransitions : Obligations.GhostPhaseTransitions := by
  refine ⟨fun p s t h => ?_, fun s t h => ?_⟩
  · rcases completeStep_ok h with ⟨rfl, rfl⟩ | ⟨rfl, rfl⟩ | ⟨b, st, rfl, -, rfl⟩ | ⟨a, st, d, rfl, -, -, rfl⟩
    · rfl
    · rfl
    · cases writeAccepted s.cfg st with
      | false => exact .inl ⟨rfl, rfl⟩
      | true => exact .inr ⟨rfl, rfl⟩
    · cases readAccepted s.cfg st with
      | false => exact .inl ⟨rfl, rfl⟩
      | true => exact .inr ⟨rfl, rfl⟩
  · cases h
    rfl

/-! ## Reset -/

theorem designPoint_wf : Config.designPoint.wf = true := by decide

/-- With `BUSY = 0` at rest, and `EN = 0`, nothing else is asked (R41). -/
theorem inv_reset : Inv State.reset :=
  ⟨designPoint_wf, fun _ => ⟨rfl, rfl, rfl, rfl⟩, nofun, nofun, nofun⟩

/-- The device starts with no cell listed and its pointer at 0, below the design point's `DEV_SIZE` (R102). -/
theorem deviceWf_reset : DeviceWf State.reset := ⟨rfl, nofun, by decide⟩

/-- Settles O34, the block and the device apart. -/
theorem invariantHoldsAtReset : Obligations.InvariantHoldsAtReset := ⟨inv_reset, deviceWf_reset⟩

end Sys2Proof.Safety
end

section
/-! PROOFS. `PHASE` and `DIV` are written and never read (R36, R37): every operation of the model, run from a state and
from the same state with the two forgotten, ends in states that differ in nothing else. -/

namespace Sys2Proof.Safety

open Sys2Proof.Machine

/-- The state with `PHASE` and `DIV` forgotten. -/
def forgetGhost (s : State) : State := { s with phase := .idle, div := none }

@[simp] theorem forgetGhost_forgetGhost (s : State) : forgetGhost (forgetGhost s) = forgetGhost s := rfl
@[simp] theorem forgetGhost_ir (s : State) : (forgetGhost s).ir = s.ir := rfl
@[simp] theorem forgetGhost_busy (s : State) : (forgetGhost s).busy = s.busy := rfl
@[simp] theorem forgetGhost_ok (s : State) : (forgetGhost s).ok = s.ok := rfl
@[simp] theorem forgetGhost_rdata (s : State) : (forgetGhost s).rdata = s.rdata := rfl
@[simp] theorem forgetGhost_seq (s : State) : (forgetGhost s).seq = s.seq := rfl
@[simp] theorem forgetGhost_sub (s : State) : (forgetGhost s).sub = s.sub := rfl
@[simp] theorem forgetGhost_en (s : State) : (forgetGhost s).en = s.en := rfl
@[simp] theorem forgetGhost_phDone (s : State) : (forgetGhost s).phDone = s.phDone := rfl
@[simp] theorem forgetGhost_status (s : State) : (forgetGhost s).status = s.status := rfl
@[simp] theorem forgetGhost_data (s : State) : (forgetGhost s).data = s.data := rfl
@[simp] theorem forgetGhost_cfg (s : State) : (forgetGhost s).cfg = s.cfg := rfl
@[simp] theorem forgetGhost_bus (s : State) : (forgetGhost s).bus = s.bus := rfl

@[simp] theorem mapNext_next (f : State → State) (s : State) : mapNext f (.next s) = .next (f s) := rfl
@[simp] theorem mapNext_fault (f : State → State) (e : Fault) : mapNext f (.fault e) = .fault e := rfl
@[simp] theorem mapNext_refused (f : State → State) (e : Refusal) : mapNext f (.refused e) = .refused e := rfl

/-- Two outcomes differ in nothing but `PHASE` and `DIV`. -/
def AgreeUpToGhost (r q : Result) : Prop := mapNext forgetGhost r = mapNext forgetGhost q

/-- An operation that commutes with forgetting `PHASE` and `DIV` does not read them. -/
theorem agree_of_commutes {r q : Result} (h : r = mapNext forgetGhost q) : AgreeUpToGhost r q := by
  subst h
  cases q <;> rfl

/-- Outcomes that differ in nothing but `PHASE` and `DIV`: both go on to such states, or both stop for one reason. -/
theorem agree_cases {r q : Result} (h : AgreeUpToGhost r q) :
    (∃ u v, r = .next u ∧ q = .next v ∧ forgetGhost u = forgetGhost v) ∨
    (∃ f, r = .fault f ∧ q = .fault f) ∨ ∃ e, r = .refused e ∧ q = .refused e := by
  cases r <;> cases q <;> simp_all [AgreeUpToGhost]

/-- The same of two completion steps, which go on or fault. -/
theorem outcomes_of_map_eq {r q : Except Fault State} (h : r.map forgetGhost = q.map forgetGhost) :
    (∃ f, r = .error f ∧ q = .error f) ∨ ∃ u v, r = .ok u ∧ q = .ok v ∧ forgetGhost u = forgetGhost v := by
  cases r <;> cases q <;> simp_all [Except.map]

/-! ## ENGINE -/

theorem issueStep_forgetGhost (p : Primitive) (s : State) :
    issueStep p (forgetGhost s) = forgetGhost (issueStep p s) := by
  cases p <;> rfl

theorem applyNext_forgetGhost (n : Next) (s : State) :
    forgetGhost (applyNext n (forgetGhost s)) = forgetGhost (applyNext n s) := by
  cases n <;> rfl

theorem rowNext_forgetGhost (r : TableRow) (s : State) : rowNext r (forgetGhost s) = rowNext r s := by
  cases r <;> rfl

/-- A completion step writes `PHASE` from `PHASE` and nothing else from it (R143). -/
theorem completeStep_forgetGhost (p : Primitive) (s : State) :
    (completeStep p (forgetGhost s)).map forgetGhost = (completeStep p s).map forgetGhost := by
  cases p with
  | start => rfl
  | stop => rfl
  | tx b =>
    cases hst : s.status with
    | none => simp [completeStep, hst]
    | some st => cases ha : writeAccepted s.cfg st <;> simp [completeStep, hst, ha] <;> rfl
  | rx a =>
    cases hst : s.status with
    | none => simp [completeStep, hst]
    | some st => cases hd : s.data <;> cases ha : readAccepted s.cfg st <;> simp [completeStep, hst, hd, ha] <;> rfl

/-- What a row goes on with, from two states that differ in nothing but `PHASE` and `DIV`. -/
theorem forgetGhost_applyNext_rowNext {r : TableRow} {u v : State} (h : forgetGhost u = forgetGhost v) :
    forgetGhost (applyNext (rowNext r u) u) = forgetGhost (applyNext (rowNext r v) v) := by
  rw [← applyNext_forgetGhost _ u, ← applyNext_forgetGhost _ v, ← rowNext_forgetGhost r u,
    ← rowNext_forgetGhost r v, h]

theorem runRow_agree (r : TableRow) (s : State) : AgreeUpToGhost (runRow r (forgetGhost s)) (runRow r s) := by
  cases hs : s.sub with
  | false =>
    refine agree_of_commutes ?_
    rw [runRow_issue r hs, runRow_issue r (s := forgetGhost s) hs, issueStep_forgetGhost, mapNext_next]
  | true =>
    cases hd : s.phDone with
    | false =>
      refine agree_of_commutes ?_
      rw [runRow_wait r hs hd, runRow_wait r (s := forgetGhost s) hs hd, mapNext_next]
    | true =>
      rcases outcomes_of_map_eq (completeStep_forgetGhost (rowBody r) s) with ⟨f, hu, hv⟩ | ⟨u, v, hu, hv, huv⟩
      · simp [AgreeUpToGhost, runRow, hs, hd, hu, hv]
      · rw [AgreeUpToGhost, runRow_complete r (s := forgetGhost s) hs hd hu, runRow_complete r hs hd hv, mapNext_next,
          mapNext_next, forgetGhost_applyNext_rowNext huv]

theorem runTable_agree (rows : List TableRow) (s : State) :
    AgreeUpToGhost (runTable rows (forgetGhost s)) (runTable rows s) := by
  simp only [runTable, forgetGhost_seq]
  split
  · exact runRow_agree _ s
  · rfl

theorem exec_agree (i : Instr) (s : State) : AgreeUpToGhost (exec i (forgetGhost s)) (exec i s) := by
  cases i with
  | init => rfl
  | start => exact runRow_agree (.always .start .finish) s
  | stop => exact runRow_agree (.always .stop .finish) s
  | writebyte b => exact runRow_agree (.always (.tx b) .finish) s
  | readbyte a => exact runRow_agree (.always (.rx a) .finish) s
  | readreg ra => exact runTable_agree _ s
  | writereg ra d => exact runTable_agree _ s

theorem engineTurn_agree (s : State) : AgreeUpToGhost (engineTurn (forgetGhost s)) (engineTurn s) := by
  cases hb : s.busy with
  | false => simp [AgreeUpToGhost, engineTurn, hb]
  | true =>
    cases hir : s.ir with
    | none => simp [AgreeUpToGhost, engineTurn, hb, hir]
    | some w =>
      cases hd : decode w with
      | error e => simp [AgreeUpToGhost, engineTurn, hb, hir, hd]
      | ok i =>
        rw [engineTurn_of_decode hb hir hd, engineTurn_of_decode (s := forgetGhost s) hb hir hd]
        exact exec_agree i s

/-! ## HOST and BUS -/

theorem hostIssue_forgetGhost (w : Command) (s : State) :
    hostIssue w (forgetGhost s) = mapNext forgetGhost (hostIssue w s) := by
  cases hb : s.busy with
  | true => simp [hostIssue, hb]
  | false =>
    cases hd : decode w with
    | error e => simp [hostIssue, hb, hd]
    | ok i =>
      by_cases hg : s.en = true ∨ i = .init
      · rw [hostIssue_enabled hb hd hg, hostIssue_enabled (s := forgetGhost s) hb hd hg]
        rfl
      · simp [hostIssue, hb, hd, hg]

theorem hostRead_forgetGhost (p : HostPort) (s : State) :
    hostRead p (forgetGhost s) = mapNext forgetGhost (hostRead p s) := by
  cases p with
  | busy => rfl
  | ok => cases h : s.ok <;> simp [hostRead, portOk, h]
  | rdata => cases h : s.rdata <;> simp [hostRead, portRdata, h]

/-- A BUS turn commutes with forgetting when the agent's step does. -/
theorem busTurn_forgetGhost {k : BusPhase → State → State} {s : State}
    (hk : ∀ p, k p (forgetGhost s) = forgetGhost (k p s)) :
    busTurn k (forgetGhost s) = mapNext forgetGhost (busTurn k s) := by
  have ho : outstanding (forgetGhost s) = outstanding s := rfl
  simp only [busTurn, ho]
  split
  · rfl
  · rfl
  · exact congrArg _ (hk _)

theorem busDevice_forgetGhost (s : State) : busDevice (forgetGhost s) = mapNext forgetGhost (busDevice s) := by
  unfold busDevice
  exact busTurn_forgetGhost fun _ => rfl

theorem wireTurn_forgetGhost (others : Lines) (p : BusPhase) (s : State) :
    wireTurn others p (forgetGhost s) = forgetGhost (wireTurn others p s) := by
  by_cases hw : (wireInstant p others s.bus.wire).todo = some []
  · simp only [wireTurn, forgetGhost_bus, forgetGhost_cfg, hw, if_true]
    rfl
  · simp only [wireTurn, forgetGhost_bus, forgetGhost_cfg, hw, if_false]
    rfl

/-! ## Steps and runs -/

theorem turn_agree (m : Move) (s : State) : AgreeUpToGhost (turn m (forgetGhost s)) (turn m s) := by
  cases m with
  | engine => exact engineTurn_agree s
  | hostIssue w => exact agree_of_commutes (hostIssue_forgetGhost w s)
  | irqIssue w => rfl
  | hostRead p => exact agree_of_commutes (hostRead_forgetGhost p s)
  | bus status data => exact agree_of_commutes (busTurn_forgetGhost fun _ => rfl)
  | busDevice => exact agree_of_commutes (busDevice_forgetGhost s)
  | busWire others => exact agree_of_commutes (busTurn_forgetGhost fun p => wireTurn_forgetGhost others p s)
  | reset => rfl

/-- No step reads `PHASE` or `DIV` (R36, R37). -/
theorem step_agree (s : State) : AgreeUpToGhost (step (forgetGhost s)) (step s) := by
  cases hw : s.cfg.wf with
  | false =>
    rw [step_of_illFormed hw, step_of_illFormed (s := forgetGhost s) hw]
    rfl
  | true =>
    cases hs : s.schedule with
    | nil =>
      rw [step_of_silence hw hs, step_of_silence (s := forgetGhost s) hw hs]
      exact engineTurn_agree s
    | cons m rest =>
      rw [step_of_schedule hw hs, step_of_schedule (s := forgetGhost s) hw hs]
      exact turn_agree m { s with schedule := rest }

/-- Steps from states that differ in nothing but `PHASE` and `DIV` end in such states, or stop alike. -/
theorem step_agree_of_eq {s t : State} (h : forgetGhost s = forgetGhost t) : AgreeUpToGhost (step s) (step t) :=
  (step_agree s).symm.trans (h ▸ step_agree t)

/-- Runs of any length from states that differ in nothing but `PHASE` and `DIV`. -/
theorem run_agree (k : Nat) {s t : State} (h : forgetGhost s = forgetGhost t) : AgreeUpToGhost (run k s) (run k t) := by
  induction k generalizing s t with
  | zero => exact congrArg Host.Outcome.next h
  | succ k ih =>
    rcases agree_cases (step_agree_of_eq h) with ⟨u, v, hu, hv, huv⟩ | ⟨f, hu, hv⟩ | ⟨e, hu, hv⟩
    · rw [run_next hu, run_next hv]
      exact ih huv
    · rw [run_fault hu, run_fault hv, AgreeUpToGhost]
    · rw [run_refused hu, run_refused hv, AgreeUpToGhost]

/-- Settles O45: the two states are one when `PHASE` and `DIV` are forgotten. -/
theorem ghostPhaseAndDivisorAreNeverRead : Obligations.GhostPhaseAndDivisorAreNeverRead :=
  fun k s p d => run_agree k (s := { s with phase := p, div := d }) (t := s) rfl

end Sys2Proof.Safety
end

section
/-! PROOFS. The BUS agent: what its step writes (O27), the reference device's answers (O28, O29), the device memory over a
step of any agent (O30, O36), and that at most one phase is outstanding (O44). -/

namespace Sys2Proof.Machine

/-! ## The BUS turn -/

theorem outstanding_start {s : State} {rep : Bool} (hd : s.phDone = false) (hr : s.phReq = .start rep) :
    outstanding s = .ok (some (.start rep)) := by
  simp [outstanding, hd, hr]

theorem outstanding_stop {s : State} (hd : s.phDone = false) (hr : s.phReq = .stop) :
    outstanding s = .ok (some .stop) := by
  simp [outstanding, hd, hr]

theorem outstanding_tx {s : State} {b : Byte} (hd : s.phDone = false) (hr : s.phReq = .tx) (hb : s.data = some b) :
    outstanding s = .ok (some (.tx b)) := by
  simp [outstanding, hd, hr, hb]

theorem outstanding_rx {s : State} {a : Bool} (hd : s.phDone = false) (hr : s.phReq = .rx) (ha : s.acken = some a) :
    outstanding s = .ok (some (.rx a)) := by
  simp [outstanding, hd, hr, ha]

theorem outstanding_none {s : State} (h : s.phReq = .none ∨ s.phDone = true) : outstanding s = .ok none := by
  rcases h with h | h <;> simp [outstanding, h]

/-- A phase handed over is outstanding when the register its BUS step reads holds a value (R16, R71). -/
theorem exists_outstanding {s : State} (hd : s.phDone = false) (hr : s.phReq ≠ .none)
    (hdata : s.phReq = .tx → s.data ≠ none) (hacken : s.phReq = .rx → s.acken ≠ none) :
    ∃ p, outstanding s = .ok (some p) := by
  cases hq : s.phReq with
  | none => exact absurd hq hr
  | start rep => exact ⟨_, outstanding_start hd hq⟩
  | stop => exact ⟨_, outstanding_stop hd hq⟩
  | tx =>
    obtain ⟨b, hb⟩ := Option.ne_none_iff_exists'.1 (hdata hq)
    exact ⟨_, outstanding_tx hd hq hb⟩
  | rx =>
    obtain ⟨a, ha⟩ := Option.ne_none_iff_exists'.1 (hacken hq)
    exact ⟨_, outstanding_rx hd hq ha⟩

theorem busTurn_of_some {s : State} {p : BusPhase} (k : BusPhase → State → State)
    (h : outstanding s = .ok (some p)) : busTurn k s = .next (k p s) := by
  simp [busTurn, h]

theorem busTurn_of_none {s : State} (k : BusPhase → State → State) (h : outstanding s = .ok none) :
    busTurn k s = .next s := by
  simp [busTurn, h]

theorem busFree_of_outstanding {s : State} {p : BusPhase} (status data : Byte) (h : outstanding s = .ok (some p)) :
    busFree status data s = .next (completePhase p ⟨status, data⟩ s) :=
  busTurn_of_some _ h

/-- The device takes the phase and completes it with its answer (R103 to R107). -/
theorem busDevice_of_outstanding {s : State} {p : BusPhase} (h : outstanding s = .ok (some p)) :
    busDevice s =
      .next
        (completePhase p (deviceStep s.cfg p s.bus.dev).2
          { s with bus := { s.bus with dev := (deviceStep s.cfg p s.bus.dev).1 } }) := by
  unfold busDevice
  rw [busTurn_of_some _ h]

/-- A turn of any BUS agent passes where no phase is outstanding (R16). -/
theorem turn_passes {m : Move} {s : State} (hm : Safety.isBusTurn m = true) (h : outstanding s = .ok none) :
    turn m s = .next s := by
  cases m with
  | bus status data => exact busTurn_of_none _ h
  | busDevice =>
    show busDevice s = .next s
    unfold busDevice
    exact busTurn_of_none _ h
  | busWire others => exact busTurn_of_none _ h
  | engine => cases hm
  | hostIssue w => cases hm
  | irqIssue w => cases hm
  | hostRead p => cases hm
  | reset => cases hm

/-- What completing the outstanding phase writes in the block, whatever becomes of the hidden state (R71). -/
theorem completePhase_sameBlock {s : State} {p : BusPhase} (a : BusAnswer) (b : BusAgent)
    (h : outstanding s = .ok (some p)) :
    Safety.sameBlock
      { s with
        status := some a.status
        phDone := true
        data := if s.phReq = .rx then some a.data else s.data }
      (completePhase p a { s with bus := b }) := by
  obtain ⟨-, ⟨rep, hr, rfl⟩ | ⟨hr, rfl⟩ | ⟨b, hr, -, rfl⟩ | ⟨ack, hr, -, rfl⟩⟩ := outstanding_some h <;>
    simp [Safety.sameBlock, completePhase, hr]

/-! ## The reference device, mode by mode -/

section
variable {c : Config} {b : Byte} {dev : RefDevice}

theorem deviceAddressed_iff : deviceAddressed dev b = true ↔ dev.present = true ∧ b.extractLsb' 1 7 = devAddr := by
  simp [deviceAddressed]

theorem addressStatus_acked (c : Config) (b : Byte) :
    addressStatus c b true = if b.getLsbD 0 then c.stSlaRAck else c.stSlaWAck := by
  unfold addressStatus
  cases b.getLsbD 0 <;> rfl

theorem addressStatus_notAcked (c : Config) (b : Byte) :
    addressStatus c b false = if b.getLsbD 0 then stSlaRNack else stSlaWNack := by
  unfold addressStatus
  cases b.getLsbD 0 <;> rfl

/-- An address byte of the device's own is acknowledged, and its direction bit chooses the mode (R104). -/
theorem deviceTx_addressed (hm : dev.mode = .awaitAddr) (hp : dev.present = true)
    (ha : b.extractLsb' 1 7 = devAddr) :
    deviceTx c b dev =
      ({ dev with mode := if b.getLsbD 0 then .rd else .wrPtr },
        if b.getLsbD 0 then c.stSlaRAck else c.stSlaWAck) := by
  simp only [deviceTx, hm, deviceAddressed_iff.2 ⟨hp, ha⟩, if_true, addressStatus_acked]

/-- An address byte of another device, or with none present, is not acknowledged (R104). -/
theorem deviceTx_notAddressed (hm : dev.mode = .awaitAddr)
    (ha : dev.present = false ∨ b.extractLsb' 1 7 ≠ devAddr) :
    deviceTx c b dev = ({ dev with mode := .off }, if b.getLsbD 0 then stSlaRNack else stSlaWNack) := by
  have haddr : deviceAddressed dev b = false := by
    rw [← Bool.not_eq_true, deviceAddressed_iff, not_and_or, Bool.not_eq_true]
    exact ha
  simp only [deviceTx, hm, haddr, Bool.false_eq_true, if_false, addressStatus_notAcked]

/-- The register pointer byte (R104). -/
theorem deviceTx_wrPtr (hm : dev.mode = .wrPtr) (hn : dev.nackPtr = false) :
    deviceTx c b dev = ({ dev with ptr := b.toNat % c.devSize, mode := .wrData }, c.stDataAck) := by
  simp [deviceTx, hm, hn]

theorem deviceTx_wrPtr_nack (hm : dev.mode = .wrPtr) (hn : dev.nackPtr = true) :
    deviceTx c b dev = ({ dev with mode := .off }, stDataNack) := by
  simp [deviceTx, hm, hn]

/-- A data byte: the one store to the device's memory (R104). -/
theorem deviceTx_wrData (hm : dev.mode = .wrData) (hn : dev.nackData = false) :
    deviceTx c b dev =
      ({ dev with mem := memWrite dev.mem dev.ptr b, ptr := (dev.ptr + 1) % c.devSize }, c.stDataAck) := by
  simp [deviceTx, hm, hn]

theorem deviceTx_wrData_nack (hm : dev.mode = .wrData) (hn : dev.nackData = true) :
    deviceTx c b dev = ({ dev with mode := .off }, stDataNack) := by
  simp [deviceTx, hm, hn]

theorem deviceTx_off (hm : dev.mode = .off) : deviceTx c b dev = (dev, stDataNack) := by
  simp [deviceTx, hm]

/-- A byte sent to a device that is not listening for one (R104). -/
theorem deviceTx_noListener (hm : dev.mode = .idle ∨ dev.mode = .rd) : deviceTx c b dev = (dev, stNoInfo) := by
  rcases hm with hm | hm <;> simp [deviceTx, hm]

theorem deviceRx_rd (ack : Bool) (hm : dev.mode = .rd) :
    deviceRx c ack dev =
      ({ dev with ptr := (dev.ptr + 1) % c.devSize, mode := if ack then .rd else .off },
        memRead dev.mem dev.ptr) := by
  simp [deviceRx, hm]

/-- A released data line reads ones (R105). -/
theorem deviceRx_released (ack : Bool) (hm : dev.mode ≠ .rd) : deviceRx c ack dev = (dev, 0xFF) := by
  unfold deviceRx
  split
  · next h => exact absurd h hm
  all_goals rfl

/-- A step of the device stores a byte sent in mode `wrData`, or leaves the memory (R103 to R105). -/
theorem deviceStep_mem (c : Config) (p : BusPhase) (dev : RefDevice) :
    (deviceStep c p dev).1.mem = dev.mem ∨
      ∃ b, p = .tx b ∧ dev.mode = .wrData ∧ dev.nackData = false ∧
        (deviceStep c p dev).1.mem = memWrite dev.mem dev.ptr b := by
  cases p with
  | start rep => exact .inl rfl
  | stop => exact .inl rfl
  | tx b =>
    simp only [deviceStep, deviceTx]
    split
    · split <;> exact .inl rfl
    · split <;> exact .inl rfl
    · next hm =>
      cases hn : dev.nackData
      · exact .inr ⟨b, rfl, hm, rfl, rfl⟩
      · exact .inl rfl
    all_goals exact .inl rfl
  | rx ack =>
    by_cases hm : dev.mode = .rd
    · simp [deviceStep, deviceRx_rd ack hm]
    · simp [deviceStep, deviceRx_released ack hm]

/-- A step of the device leaves the pointer, or takes the new one modulo `DEV_SIZE` (R104, R105). -/
theorem deviceStep_ptr (c : Config) (p : BusPhase) (dev : RefDevice) :
    (deviceStep c p dev).1.ptr = dev.ptr ∨ ∃ n, (deviceStep c p dev).1.ptr = n % c.devSize := by
  cases p with
  | start rep => exact .inl rfl
  | stop => exact .inl rfl
  | tx b =>
    simp only [deviceStep, deviceTx]
    split
    · split <;> exact .inl rfl
    · split
      · exact .inl rfl
      · exact .inr ⟨_, rfl⟩
    · split
      · exact .inl rfl
      · exact .inr ⟨_, rfl⟩
    all_goals exact .inl rfl
  | rx ack =>
    by_cases hm : dev.mode = .rd
    · exact .inr ⟨dev.ptr + 1, by simp [deviceStep, deviceRx_rd ack hm]⟩
    · simp [deviceStep, deviceRx_released ack hm]

end

end Sys2Proof.Machine

namespace Sys2Proof.Safety

open Sys2Proof.Machine

/-- Settles O27: no phase outstanding, the turn passes; else the free turn completes the phase with its two draws. -/
theorem busStepWrites : Obligations.BusStepWrites := by
  refine ⟨fun s m rest hwf hs hm hidle => ?_, fun s rest st d hwf hs hr hd hdata hacken => ?_⟩
  · rw [step_of_schedule hwf hs]
    exact turn_passes hm (outstanding_none hidle)
  · obtain ⟨p, hp⟩ := exists_outstanding (s := { s with schedule := rest }) hd hr hdata hacken
    rw [step_of_schedule hwf hs]
    exact ⟨_, busFree_of_outstanding st d hp, completePhase_sameBlock ⟨st, d⟩ s.bus hp⟩

/-- The reference device's turn with a phase outstanding: what becomes of the device and of the block (R103 to R107). -/
theorem step_busDevice {s : State} {rest : List Move} {p : BusPhase} (hwf : s.cfg.wf = true)
    (hs : s.schedule = .busDevice :: rest) (hp : outstanding s = .ok (some p)) :
    ∃ t, step s = .next t ∧ t.bus.dev = (deviceStep s.cfg p s.bus.dev).1 ∧
      sameBlock
        { s with
          schedule := rest
          phDone := true
          status := some (deviceStep s.cfg p s.bus.dev).2.status
          data := if s.phReq = .rx then some (deviceStep s.cfg p s.bus.dev).2.data else s.data } t := by
  rw [step_of_schedule hwf hs]
  exact ⟨_, busDevice_of_outstanding (s := { s with schedule := rest }) hp, rfl,
    completePhase_sameBlock (s := { s with schedule := rest }) _ _ hp⟩

/-- Settles O28, request by request; a reception by whether the device is in mode `rd`. -/
theorem deviceStartStopRx : Obligations.DeviceStartStopRx := by
  intro s rest hwf hs hd
  refine ⟨fun rep hr => ?_, fun hr => ?_, fun a hr ha => ?_⟩
  · obtain ⟨t, ht, hdev, hblock⟩ := step_busDevice hwf hs (outstanding_start hd hr)
    exact ⟨t, ht, hdev, by simpa [hr, deviceStep, startStatus, stRepStart, stStart] using hblock⟩
  · obtain ⟨t, ht, hdev, hblock⟩ := step_busDevice hwf hs (outstanding_stop hd hr)
    exact ⟨t, ht, hdev, by simpa [hr, deviceStep, stNoInfo] using hblock⟩
  · obtain ⟨t, ht, hdev, hblock⟩ := step_busDevice hwf hs (outstanding_rx hd hr ha)
    refine ⟨t, ht, ?_⟩
    by_cases hm : s.bus.dev.mode = .rd
    · simp only [deviceStep, deviceRx_rd a hm, if_pos hr, receiveStatus] at hdev hblock
      simpa only [hm, if_true] using ⟨hdev, hblock⟩
    · simp only [deviceStep, deviceRx_released a hm, if_pos hr, receiveStatus] at hdev hblock
      simpa only [hm, if_false] using ⟨hdev, hblock⟩

/-- Settles O29, clause by clause from the device's answer in each mode. -/
theorem deviceTransmit : Obligations.DeviceTransmit := by
  intro s rest b hwf hs hd hr hb
  obtain ⟨t, ht, hdev, hblock⟩ := step_busDevice hwf hs (outstanding_tx hd hr hb)
  have hdev : t.bus.dev = (deviceTx s.cfg b s.bus.dev).1 := hdev
  refine ⟨t, (deviceTx s.cfg b s.bus.dev).2, ht, by simpa [hr, deviceStep] using hblock, ?_⟩
  rw [hdev]
  refine ⟨fun hm hp ha => ?_, fun hm hp => ?_, fun hm => ⟨fun hn => ?_, fun hn => ?_⟩,
    fun hm => ⟨fun hn => ?_, fun hn => ?_⟩, fun hm => ?_, fun hm => ?_⟩
  · rw [deviceTx_addressed hm hp ha]
    exact ⟨fun h0 => by rw [h0]; exact ⟨rfl, rfl⟩, fun h0 => by rw [h0]; exact ⟨rfl, rfl⟩⟩
  · rw [deviceTx_notAddressed hm hp]
    exact ⟨rfl, rfl⟩
  · rw [deviceTx_wrPtr hm hn]
    exact ⟨rfl, rfl⟩
  · rw [deviceTx_wrPtr_nack hm hn]
    exact ⟨rfl, rfl⟩
  · rw [deviceTx_wrData hm hn]
    exact ⟨rfl, rfl⟩
  · rw [deviceTx_wrData_nack hm hn]
    exact ⟨rfl, rfl⟩
  · rw [deviceTx_off hm]
    exact ⟨rfl, rfl⟩
  · rw [deviceTx_noListener hm]
    exact ⟨rfl, rfl⟩

/-! ## The device over a step of any agent -/

/-- Of the BUS agents only the reference device's own turn touches the device; that the other two leave it is the model's
choice (log entry 12). -/
theorem turn_dev {m : Move} {s t : State} (hm : isBusTurn m = true) (h : turn m s = .next t) :
    t.bus.dev = s.bus.dev ∨
      m = .busDevice ∧ ∃ p, outstanding s = .ok (some p) ∧ t.bus.dev = (deviceStep s.cfg p s.bus.dev).1 := by
  cases m with
  | bus status data =>
    rcases busTurn_next h with ⟨p, -, rfl⟩ | ⟨-, rfl⟩
    · exact .inl rfl
    · exact .inl rfl
  | busDevice =>
    have h : busDevice s = .next t := h
    unfold busDevice at h
    rcases busTurn_next h with ⟨p, hp, rfl⟩ | ⟨-, rfl⟩
    · exact .inr ⟨rfl, p, hp, rfl⟩
    · exact .inl rfl
  | busWire others =>
    rcases busTurn_next h with ⟨p, -, rfl⟩ | ⟨-, rfl⟩
    · rcases wireTurn_cases others p s with hw | hw <;> rw [hw] <;> exact .inl rfl
    · exact .inl rfl
  | engine => cases hm
  | hostIssue w => cases hm
  | irqIssue w => cases hm
  | hostRead p => cases hm
  | reset => cases hm

/-- A step of any agent leaves the reference device, or is that device's step for the outstanding phase (R39, R251). -/
theorem step_dev {s t : State} (h : step s = .next t) :
    t.bus.dev = s.bus.dev ∨
      ∃ rest p, s.schedule = .busDevice :: rest ∧ outstanding s = .ok (some p) ∧
        t.bus.dev = (deviceStep s.cfg p s.bus.dev).1 := by
  cases step_cases h with
  | pass ht => exact .inl (ht ▸ rfl)
  | init w hir hd ht => exact .inl (ht ▸ rfl)
  | row w i r hb hir hd hr hrow =>
    obtain ⟨-, -, -, -, -, -, hbus⟩ := runRow_frame hrow
    exact .inl (congrArg BusAgent.dev hbus)
  | hostIssue w rest hs ht => exact .inl (ht ▸ rfl)
  | bus m rest hs hm ht =>
    obtain ⟨hwf, -⟩ := step_next h
    rw [step_of_schedule hwf hs] at h
    rcases turn_dev hm h with hdev | ⟨rfl, p, hp, hdev⟩
    · exact .inl hdev
    · exact .inr ⟨rest, p, hs, hp, hdev⟩
  | reset rest hs ht =>
    cases ht
    exact .inl rfl

/-- Settles O30: a step that touches the device is the device's own, and stores only a data byte it acknowledges. -/
theorem deviceMemoryFrame : Obligations.DeviceMemoryFrame := by
  intro s t hmem h
  refine ⟨fun rest b hs hd hr hb hm hn => ?_, fun hno a => ?_⟩
  · obtain ⟨hwf, -⟩ := step_next h
    obtain ⟨u, hu, hdev, -⟩ := step_busDevice hwf hs (outstanding_tx hd hr hb)
    cases h.symm.trans hu
    rw [hdev, deviceStep, deviceTx_wrData hm hn]
    exact ⟨memRead_memWrite_self hmem _ b, fun a ha => memRead_memWrite_of_ne _ ha b⟩
  · rcases step_dev h with hdev | ⟨rest, p, hs, hp, hdev⟩
    · rw [hdev]
    · rcases deviceStep_mem s.cfg p s.bus.dev with hsame | ⟨b, rfl, hm, hn, -⟩
      · rw [hdev, hsame]
      · obtain ⟨hd, hreq⟩ := outstanding_some hp
        obtain ⟨hr, hb⟩ : s.phReq = .tx ∧ s.data = some b := by simpa using hreq
        exact absurd ⟨rest, b, hs, hd, hr, hb, hm, hn⟩ hno

/-- A step of the device keeps its memory canonical and inside `DEV_SIZE`, and its pointer below it (R102). -/
theorem deviceStep_keeps_wf {s : State} (p : BusPhase) (h : DeviceWf s) :
    Memory.wf (deviceStep s.cfg p s.bus.dev).1.mem = true ∧
      (∀ c ∈ (deviceStep s.cfg p s.bus.dev).1.mem, c.1 < s.cfg.devSize) ∧
      (deviceStep s.cfg p s.bus.dev).1.ptr < s.cfg.devSize := by
  obtain ⟨hwf, hcells, hptr⟩ := h
  have hptr' : (deviceStep s.cfg p s.bus.dev).1.ptr < s.cfg.devSize := by
    rcases deviceStep_ptr s.cfg p s.bus.dev with hp | ⟨n, hp⟩ <;> rw [hp]
    · exact hptr
    · exact Nat.mod_lt _ (Nat.zero_lt_of_lt hptr)
  rcases deviceStep_mem s.cfg p s.bus.dev with hm | ⟨b, -, -, -, hm⟩ <;> rw [hm]
  · exact ⟨hwf, hcells, hptr'⟩
  · refine ⟨memWrite_wf hwf _ b, fun c hc => ?_, hptr'⟩
    rcases mem_memWrite hc with hc | hc
    · exact hcells c hc
    · exact hc ▸ hptr

/-- Settles O36: what the device's own step may do to its memory and pointer keeps both well formed. -/
theorem everyStepKeepsDeviceWf : Obligations.EveryStepKeepsDeviceWf := by
  intro s t hdw h
  obtain ⟨hcfg, -⟩ := commandAndInputsFrame s t h
  unfold DeviceWf
  rw [hcfg]
  rcases step_dev h with hdev | ⟨rest, p, -, -, hdev⟩
  · rw [hdev]
    exact hdw
  · rw [hdev]
    exact deviceStep_keeps_wf p hdw

/-! ## The phase handed over -/

/-- Settles O44: only a row of ENGINE's writes `PH_REQ`, its issue step where `SUB = 0` and so no phase is outstanding. -/
theorem atMostOnePhaseOutstanding : Obligations.AtMostOnePhaseOutstanding := by
  intro s t hinv h hne hreset
  cases step_cases h with
  | pass ht => exact absurd (ht ▸ rfl) hne
  | init w hir hd ht => exact absurd (ht ▸ rfl) hne
  | row w i r hb hir hd hr hrow =>
    rcases runRow_next hrow with ⟨hs, rfl⟩ | ⟨-, -, rfl⟩ | ⟨-, hdone, u, hu, rfl⟩
    · obtain ⟨-, hdone, -⟩ := issueStep_frame (rowBody r) (afterTurn s)
      rcases inv_phase_cases hinv with ⟨hreq, hd⟩ | ⟨-, hsub, -⟩
      · exact .inl ⟨hreq, hd, hdone⟩
      · cases hsub.symm.trans hs
    · exact absurd rfl hne
    · obtain ⟨-, hreq, -⟩ := completeStep_frame hu
      obtain ⟨-, -, -, -, -, hkeep, -⟩ := applyNext_frame (rowNext r u) u
      exact .inr ⟨hdone, hkeep.trans hreq⟩
  | hostIssue w rest hs ht => exact absurd (ht ▸ rfl) hne
  | bus m rest hs hm ht =>
    obtain ⟨_, _, _, _, rfl⟩ := ht
    exact absurd rfl hne
  | reset rest hs ht => exact absurd hs (hreset rest)

end Sys2Proof.Safety
end

section
/-! PROOFS. The wire level: an instant is no step of the block or a BUS step with the status of R74 (O31), and a byte is
shifted out and in, most significant bit first, act by act and bit by bit (O32, O33; R97, R98). -/

namespace Sys2Proof.Safety

open Sys2Proof.Machine

/-- The status the wires leave, the byte told as first or later by the phases before this one (R74, R101). -/
theorem wireAnswer_status (c : Config) (p : BusPhase) (others : Lines) (w : WireState) :
    (wireAnswer c p (wireInstant p others w)).status =
      if (wireInstant p others w).illegal then 0x00
      else phaseStatus c p (!w.byteSeen) ((wireInstant p others w).bits == [false]) := by
  simp only [wireAnswer, wireInstant_byteSeen]
  rfl

/-- Settles O31: an instant that completes the phase does what the free BUS turn with the wires' answer does. -/
theorem wireInstantRefinesBusStep : Obligations.WireInstantRefinesBusStep := by
  intro s t others rest hs h
  obtain ⟨hwf, -⟩ := step_next h
  rw [step_of_schedule hwf hs] at h
  rcases busTurn_next h with ⟨p, hp, rfl⟩ | ⟨-, rfl⟩
  · rcases wireTurn_cases others p { s with schedule := rest } with hw | hw <;> rw [hw]
    · exact .inl rfl
    · have hconf := wireAnswer_conforms s.cfg p (wireInstant p others s.bus.wire)
      rw [wireInstant_byteSeen] at hconf
      let answer := wireAnswer s.cfg p (wireInstant p others s.bus.wire)
      have hfree : step { s with schedule := .bus answer.status answer.data :: rest } =
          .next (completePhase p answer { s with schedule := rest }) :=
        (step_of_schedule (s := { s with schedule := .bus answer.status answer.data :: rest }) hwf rfl).trans
          (busFree_of_outstanding (s := { s with schedule := rest }) _ _ hp)
      exact .inr ⟨p, _, _, _, hp, wireAnswer_status s.cfg p others s.bus.wire, hconf, hfree, rfl⟩
  · exact .inl rfl

/-! ## The acts of a phase -/

/-- The wires with the acts `todo` still to do, the master driving `drive`, and `bits` sampled. -/
def WireAt (todo : List WireAct) (drive : Lines) (bits : List Bool) (w : WireState) : Prop :=
  w.todo = some todo ∧ w.drive = drive ∧ w.bits = bits

section
variable {p : BusPhase} {o : Lines} {rest : List WireAct} {scl sda : Bool} {bits : List Bool} {w : WireState}

/-- Watching the lines for an illegal start or stop touches nothing of the shift (R74, R101). -/
theorem wireObserve_frame (o : Lines) (w : WireState) :
    (wireObserve o w).todo = w.todo ∧ (wireObserve o w).drive = w.drive ∧ (wireObserve o w).bits = w.bits := by
  unfold wireObserve
  split <;> exact ⟨rfl, rfl, rfl⟩

/-- What an act drives and samples depends on what was driven and sampled before it, and on the levels. -/
theorem wirePerform_congr (a : WireAct) (level : Lines) {v w : WireState} (hd : v.drive = w.drive)
    (hb : v.bits = w.bits) :
    (wirePerform a level v).drive = (wirePerform a level w).drive ∧
      (wirePerform a level v).bits = (wirePerform a level w).bits := by
  cases a <;> simp [wirePerform, hd, hb]

/-- An instant in which the master can do its next act does it (R96 to R100). -/
theorem wireAt_instant {a : WireAct} (h : w.todo = some (a :: rest))
    (hr : wireReady a (lineLevels w.drive o) = true) :
    WireAt rest (wirePerform a (lineLevels w.drive o) w).drive (wirePerform a (lineLevels w.drive o) w).bits
      (wireInstant p o w) := by
  obtain ⟨htodo, hdrive, hbits⟩ := wireObserve_frame o w
  have hbegin : wireBegin p w = w := by simp [wireBegin, h]
  have hact : wireAct o (wireObserve o w) =
      { wirePerform a (lineLevels w.drive o) (wireObserve o w) with todo := some rest } := by
    simp [wireAct, htodo, h, hdrive, hr]
  simp only [WireAt, wireInstant, hbegin, hact, true_and]
  exact wirePerform_congr a _ hdrive hbits

theorem wireAt_releaseSda (h : WireAt (.releaseSda :: rest) ⟨scl, sda⟩ bits w) :
    WireAt rest ⟨scl, true⟩ bits (wireInstant p o w) := by
  obtain ⟨ht, hd, rfl⟩ := h
  simpa [wirePerform, hd] using wireAt_instant (p := p) (o := o) ht rfl

theorem wireAt_pullSda (h : WireAt (.pullSda :: rest) ⟨scl, sda⟩ bits w) :
    WireAt rest ⟨scl, false⟩ bits (wireInstant p o w) := by
  obtain ⟨ht, hd, rfl⟩ := h
  simpa [wirePerform, hd] using wireAt_instant (p := p) (o := o) ht rfl

theorem wireAt_releaseScl (h : WireAt (.releaseScl :: rest) ⟨scl, sda⟩ bits w) :
    WireAt rest ⟨true, sda⟩ bits (wireInstant p o w) := by
  obtain ⟨ht, hd, rfl⟩ := h
  simpa [wirePerform, hd] using wireAt_instant (p := p) (o := o) ht rfl

theorem wireAt_pullScl (h : WireAt (.pullScl :: rest) ⟨scl, sda⟩ bits w) :
    WireAt rest ⟨false, sda⟩ bits (wireInstant p o w) := by
  obtain ⟨ht, hd, rfl⟩ := h
  simpa [wirePerform, hd] using wireAt_instant (p := p) (o := o) ht rfl

/-- With SCL released by every agent the master does not wait (R100). -/
theorem wireAt_awaitSclHigh (ho : o.scl = true) (h : WireAt (.awaitSclHigh :: rest) ⟨true, sda⟩ bits w) :
    WireAt rest ⟨true, sda⟩ bits (wireInstant p o w) := by
  obtain ⟨ht, hd, rfl⟩ := h
  simpa [wirePerform, hd] using wireAt_instant (p := p) (o := o) ht (by simp [wireReady, lineLevels, hd, ho])

/-- With SDA released by the master the level sampled is the other agents' (R95). -/
theorem wireAt_sampleSda (h : WireAt (.sampleSda :: rest) ⟨scl, true⟩ bits w) :
    WireAt rest ⟨scl, true⟩ (bits ++ [o.sda]) (wireInstant p o w) := by
  obtain ⟨ht, hd, rfl⟩ := h
  simpa [wirePerform, lineLevels, hd] using wireAt_instant (p := p) (o := o) ht rfl

/-! ## Bits -/

theorem wireRun_append (p : BusPhase) (xs ys : List Lines) (w : WireState) :
    wireRun p (xs ++ ys) w = wireRun p ys (wireRun p xs w) :=
  List.foldl_append

/-- The first three acts of a bit out: the bit is on SDA while SCL is released (R97). -/
theorem wireAt_bitOut_high (level : Bool) {drive : Lines} (ho : o.scl = true)
    (h : WireAt (wireBitOut level ++ rest) drive bits w) :
    WireAt (.pullScl :: rest) ⟨true, level⟩ bits (wireRun p (List.replicate 3 o) w) := by
  cases level with
  | false => exact wireAt_awaitSclHigh ho (wireAt_releaseScl (wireAt_pullSda h))
  | true => exact wireAt_awaitSclHigh ho (wireAt_releaseScl (wireAt_releaseSda h))

/-- A bit out leaves SCL low (R97). -/
theorem wireAt_bitOut (level : Bool) {drive : Lines} (ho : o.scl = true)
    (h : WireAt (wireBitOut level ++ rest) drive bits w) :
    WireAt rest ⟨false, level⟩ bits (wireRun p (List.replicate 4 o) w) :=
  wireAt_pullScl (wireAt_bitOut_high level ho h)

/-- A bit in: the level the other agents leave on SDA is sampled, and SCL is left low (R97, R98). -/
theorem wireAt_bitIn (level : Bool) (h : WireAt (wireBitIn ++ rest) ⟨scl, true⟩ bits w) :
    WireAt rest ⟨false, true⟩ (bits ++ [level]) (wireRun p (List.replicate 4 ⟨true, level⟩) w) :=
  wireAt_pullScl (wireAt_sampleSda (wireAt_awaitSclHigh rfl (wireAt_releaseScl h)))

/-- Bits out, four instants each. -/
theorem wireAt_bitsOut (ho : o.scl = true) (levels : List Bool) {drive : Lines} {w : WireState}
    (h : WireAt (levels.flatMap wireBitOut ++ rest) drive bits w) :
    ∃ drive', WireAt rest drive' bits (wireRun p (List.replicate (4 * levels.length) o) w) := by
  induction levels generalizing drive w with
  | nil => exact ⟨drive, h⟩
  | cons level levels ih =>
    rw [List.flatMap_cons, List.append_assoc] at h
    rw [List.length_cons, Nat.mul_succ, Nat.add_comm, List.replicate_add, wireRun_append]
    exact ih (wireAt_bitOut level ho h)

/-- Bits in, four instants each: the levels are sampled in order. -/
theorem wireAt_bitsIn (levels : List Bool) {scl : Bool} {bits : List Bool} {w : WireState}
    (h : WireAt ((List.replicate levels.length wireBitIn).flatten ++ rest) ⟨scl, true⟩ bits w) :
    ∃ scl', WireAt rest ⟨scl', true⟩ (bits ++ levels)
      (wireRun p (levels.flatMap fun level => List.replicate 4 ⟨true, level⟩) w) := by
  induction levels generalizing scl bits w with
  | nil => exact ⟨scl, by rwa [List.append_nil]⟩
  | cons level levels ih =>
    rw [List.length_cons, List.replicate_succ, List.flatten_cons, List.append_assoc] at h
    rw [List.flatMap_cons, wireRun_append, List.append_cons]
    exact ih (wireAt_bitIn level h)

/-- A phase not under way begins with all its acts to do and nothing sampled. -/
theorem wireAt_begin (p : BusPhase) (h : w.todo = none) : WireAt (wireActs p) w.drive [] (wireBegin p w) := by
  simp [WireAt, wireBegin, h]

/-- The first instant begins the phase. -/
theorem wireRun_begin (p : BusPhase) (h : w.todo = none) {others : List Lines} (hne : others ≠ []) :
    wireRun p others w = wireRun p others (wireBegin p w) := by
  obtain ⟨o, os, rfl⟩ := List.exists_cons_of_ne_nil hne
  have hbegin : wireBegin p (wireBegin p w) = wireBegin p w := by simp [wireBegin, h]
  simp only [wireRun, List.foldl_cons, wireInstant, hbegin]

end

/-! ## Bytes -/

theorem length_bitsMsbFirst (b : Byte) : (bitsMsbFirst b).length = 8 := rfl

/-- The bit shifted at place `i` is bit `7 - i` (R66). -/
theorem bitsMsbFirst_split (b : Byte) {i : Nat} (h : i < 8) :
    ∃ before after, bitsMsbFirst b = before ++ b.getLsbD (7 - i) :: after ∧ before.length = i := by
  refine ⟨(bitsMsbFirst b).take i, (bitsMsbFirst b).drop (i + 1), ?_, ?_⟩
  · interval_cases i <;> rfl
  · rw [List.length_take, length_bitsMsbFirst, Nat.min_eq_left h.le]

/-- Sampling a byte's bits gives the byte (R98). -/
theorem byteOfBits_bitsMsbFirst : ∀ b : Byte, byteOfBits (bitsMsbFirst b) = b := by decide

/-- Settles O32: the bits before the `i`-th, then the first three acts of the `i`-th; and all eight bits, then the
acknowledge bit in. -/
theorem wireTransmitShiftsMsbFirst : Obligations.WireTransmitShiftsMsbFirst := by
  intro b ackLevel w hw _
  have hbegin := wireAt_begin (.tx b) hw
  refine ⟨fun i hi => ?_, ?_⟩
  · obtain ⟨before, after, hbits, hlen⟩ := bitsMsbFirst_split b hi
    rw [wireActs, hbits, List.flatMap_append, List.flatMap_cons, List.append_assoc, List.append_assoc] at hbegin
    obtain ⟨drive, hat⟩ := wireAt_bitsOut (p := .tx b) (o := ⟨true, true⟩) rfl before hbegin
    have hhigh := wireAt_bitOut_high (p := .tx b) (o := ⟨true, true⟩) _ rfl hat
    rw [List.take_append_of_le_length (by rw [List.length_replicate]; omega), List.take_replicate,
      Nat.min_eq_left (by omega), wireRun_begin _ hw (by simp), List.replicate_add, wireRun_append, ← hlen]
    rw [← hlen] at hhigh
    exact hhigh.2.1
  · obtain ⟨⟨scl, sda⟩, hat⟩ := wireAt_bitsOut (p := .tx b) (o := ⟨true, true⟩) rfl (bitsMsbFirst b) hbegin
    have hack := wireAt_bitIn (p := .tx b) (rest := []) ackLevel
      (wireAt_releaseSda (p := .tx b) (o := ⟨true, true⟩) hat)
    have hrun : wireRun (.tx b) (List.replicate 33 ⟨true, true⟩ ++ List.replicate 4 ⟨true, ackLevel⟩) w =
        wireRun (.tx b) (List.replicate 4 ⟨true, ackLevel⟩)
          (wireInstant (.tx b) ⟨true, true⟩
            (wireRun (.tx b) (List.replicate (4 * (bitsMsbFirst b).length) ⟨true, true⟩) (wireBegin (.tx b) w))) := by
      rw [wireRun_begin _ hw (by simp), wireRun_append, List.replicate_succ' (n := 32), wireRun_append]
      rfl
    obtain ⟨htodo, hdrive, hbits⟩ := hack
    rw [hrun]
    exact ⟨htodo, hbits, hdrive⟩

/-- Settles O33: SDA released, eight bits in, the acknowledge bit out, SDA released. -/
theorem wireReceiveShiftsMsbFirst : Obligations.WireReceiveShiftsMsbFirst := by
  intro d ack w hw _
  obtain ⟨scl, hat⟩ := wireAt_bitsIn (p := .rx ack) (bitsMsbFirst d)
    (wireAt_releaseSda (p := .rx ack) (o := ⟨true, true⟩) (wireAt_begin (.rx ack) hw))
  have hhigh := wireAt_bitOut_high (p := .rx ack) (o := ⟨true, true⟩) (!ack) rfl hat
  have hend := wireAt_releaseSda (p := .rx ack) (o := ⟨true, true⟩)
    (wireAt_pullScl (p := .rx ack) (o := ⟨true, true⟩) hhigh)
  obtain ⟨htodo, hdrive, hbits⟩ := hend
  intro others
  have hfront : others.take 36 =
      ⟨true, true⟩ :: ((bitsMsbFirst d).flatMap (fun level => List.replicate 4 ⟨true, level⟩) ++
        List.replicate 3 ⟨true, true⟩) := rfl
  have hall : others = others.take 36 ++ [⟨true, true⟩, ⟨true, true⟩] := rfl
  have hrun : wireRun (.rx ack) (others.take 36) w =
      wireRun (.rx ack) (List.replicate 3 ⟨true, true⟩)
        (wireRun (.rx ack) ((bitsMsbFirst d).flatMap fun level => List.replicate 4 ⟨true, level⟩)
          (wireInstant (.rx ack) ⟨true, true⟩ (wireBegin (.rx ack) w))) := by
    rw [hfront, wireRun_begin _ hw (by simp), ← List.singleton_append, wireRun_append, wireRun_append]
    rfl
  rw [hrun, hall, wireRun_append, hrun]
  refine ⟨?_, htodo, hhigh.2.1, hdrive⟩
  calc byteOfBits _ = byteOfBits (bitsMsbFirst d) := congrArg byteOfBits hbits
    _ = d := byteOfBits_bitsMsbFirst d

end Sys2Proof.Safety
end

section
/-! PROOFS. A command on the reference device, phase by phase: ENGINE's issue step, the BUS turn and ENGINE's completion
step are one row of the step table (R143), so that a WRITEREG and a READREG run as the device answers them (O56). -/

namespace Sys2Proof

/-- The word of a command decodes to the command (R113, R114). -/
theorem decode_encode (i : Instr) : decode (encode i) = .ok i := by
  cases i with
  | init => rfl
  | start => rfl
  | stop => rfl
  | writebyte b => simp [decode, encode, formatA]
  | readbyte a => cases a <;> rfl
  | readreg ra => simp [decode, encode, formatA]
  | writereg ra d => simp [decode, encode, formatAB]

end Sys2Proof

namespace Sys2Proof.Safety

open Sys2Proof.Machine

/-! ## One row: issued, answered and completed -/

/-- The phase the issue step of a body hands over; START's is a repeated start when `ACTIVE = 1` (R143, R144). -/
def phaseOf (p : Primitive) (active : Bool) : BusPhase :=
  match p with
  | .start => .start active
  | .stop => .stop
  | .tx b => .tx b
  | .rx a => .rx a

theorem outstanding_issueStep (p : Primitive) (s : State) :
    outstanding (issueStep p s) = .ok (some (phaseOf p s.active)) := by
  cases p <;> rfl

/-- A body issued, answered and completed is one transition of R161's table, whatever the turns and the hidden state. -/
theorem completeStep_of_answer (p : Primitive) (a : BusAnswer) (s : State) (turns : List Move) (b : BusAgent) :
    completeStep p (completePhase (phaseOf p s.active) a { issueStep p s with schedule := turns, bus := b }) =
      .ok
        { primitiveOutcome p a s with
          schedule := turns
          bus := { b with wire := wireDone (phaseOf p s.active) b.wire } } := by
  cases p with
  | start => rfl
  | stop => rfl
  | tx byte =>
    cases h : writeAccepted s.cfg a.status <;>
      simp [completeStep, primitiveOutcome, issueStep, phaseOf, txFlags, h]
  | rx ack =>
    cases h : readAccepted s.cfg a.status <;>
      simp [completeStep, primitiveOutcome, issueStep, phaseOf, rxFlags, h]

/-- A row of a step table as one transition: its body, then what it continues with (R143, R178). -/
def rowOutcome (r : TableRow) (a : BusAnswer) (s : State) : State :=
  applyNext (rowNext r (primitiveOutcome (rowBody r) a s)) (primitiveOutcome (rowBody r) a s)

/-- What a row continues with does not depend on the turns to come or on the BUS agent's hidden state (R39). -/
theorem applyNext_rowNext_inputs (r : TableRow) (s : State) (turns : List Move) (b : BusAgent) :
    applyNext (rowNext r { s with schedule := turns, bus := b }) { s with schedule := turns, bus := b } =
      { applyNext (rowNext r s) s with schedule := turns, bus := b } := by
  have hnext : rowNext r { s with schedule := turns, bus := b } = rowNext r s := by cases r <;> rfl
  rw [hnext]
  cases rowNext r s <;> rfl

/-- ENGINE's step of the command in progress is a step at the row it is at. -/
theorem step_engine_row {i : Instr} {w : Command} {r : TableRow} {s : State} {rest : List Move}
    (hwf : s.cfg.wf = true) (hb : s.busy = true) (hir : s.ir = some w) (hd : decode w = .ok i)
    (hr : rowAt i s.seq = some r) (hs : s.schedule = .engine :: rest) :
    step s = runRow r { s with schedule := rest } := by
  rw [step_of_schedule hwf hs]
  exact (engineTurn_of_decode (s := { s with schedule := rest }) hb hir hd).trans
    (exec_rowAt (s := { s with schedule := rest }) hr)

/-- Three turns take a command through the row it is at, when the middle one, of any BUS agent, answers `a`. -/
theorem run_row {i : Instr} {w : Command} {r : TableRow} {a : BusAnswer} {b : BusAgent} {m : Move} {s : State}
    {rest : List Move} (hwf : s.cfg.wf = true) (hb : s.busy = true) (hir : s.ir = some w) (hd : decode w = .ok i)
    (hr : rowAt i s.seq = some r) (hsub : s.sub = false) (hs : s.schedule = .engine :: m :: .engine :: rest)
    (hm : ∀ v, outstanding v = .ok (some (phaseOf (rowBody r) s.active)) → v.cfg = s.cfg → v.bus = s.bus →
      turn m v = .next (completePhase (phaseOf (rowBody r) s.active) a { v with bus := b })) :
    run 3 s =
      .next
        { rowOutcome r a s with
          schedule := rest
          bus := { b with wire := wireDone (phaseOf (rowBody r) s.active) b.wire } } := by
  obtain ⟨hisub, -, hiir, hibusy, -, -, hiseq, -, -, -, -, hicfg, -, hibus⟩ := issueStep_frame (rowBody r) s
  have hschedule : issueStep (rowBody r) { s with schedule := m :: .engine :: rest } =
      { issueStep (rowBody r) s with schedule := m :: .engine :: rest } := by cases rowBody r <;> rfl
  have hiwf : (issueStep (rowBody r) s).cfg.wf = true := hicfg ▸ hwf
  have hissue := (step_engine_row hwf hb hir hd hr hs).trans
    (runRow_issue r (s := { s with schedule := m :: .engine :: rest }) hsub)
  rw [hschedule] at hissue
  have hanswer := (step_of_schedule (s := { issueStep (rowBody r) s with schedule := m :: .engine :: rest })
    hiwf rfl).trans (hm _ (outstanding_issueStep (rowBody r) s) hicfg hibus)
  have hcomplete := (step_engine_row
    (s := completePhase (phaseOf (rowBody r) s.active) a
      { issueStep (rowBody r) s with schedule := .engine :: rest, bus := b })
    hiwf (hibusy.trans hb) (hiir.trans hir) hd (hiseq ▸ hr) rfl).trans
    (runRow_complete r hisub rfl (completeStep_of_answer (rowBody r) a s rest b))
  rw [applyNext_rowNext_inputs] at hcomplete
  rw [run_next hissue, run_next hanswer, run_next hcomplete, run_zero]
  rfl

/-- A row whose byte out is accepted goes on (R150, R171, R175). -/
theorem rowOutcome_tx_accepted {b : Byte} {k : BitVec 3} {bad : Next} {a : BusAnswer} {s : State}
    (h : writeAccepted s.cfg a.status = true) :
    rowOutcome (.test (.tx b) (.goto k) bad) a s =
      { s with
        status := some a.status
        phReq := .none
        phDone := false
        sub := false
        data := some b
        ok := some true
        phase := byteOk s.phase
        seq := k } := by
  simp [rowOutcome, rowBody, primitiveOutcome, rowNext, applyNext, h]

/-- A row whose byte in is accepted goes on, with the byte as the result (R155, R171). -/
theorem rowOutcome_rx_accepted {ack : Bool} {k : BitVec 3} {bad : Next} {a : BusAnswer} {s : State}
    (h : readAccepted s.cfg a.status = true) :
    rowOutcome (.test (.rx ack) (.goto k) bad) a s =
      { s with
        status := some a.status
        phReq := .none
        phDone := false
        sub := false
        data := some a.data
        acken := some ack
        ok := some true
        rdata := some a.data
        phase := byteOk s.phase
        seq := k } := by
  simp [rowOutcome, rowBody, primitiveOutcome, rowNext, applyNext, h]

/-! ## Runs that end in a state with a property -/

/-- `k` steps from `s` go on to a state with the property `P`. -/
def RunsTo (k : Nat) (s : State) (P : State → Prop) : Prop := ∃ t, run k s = .next t ∧ P t

theorem RunsTo.trans {j k : Nat} {s : State} {P Q : State → Prop} (h : RunsTo j s P)
    (hk : ∀ t, P t → RunsTo k t Q) : RunsTo (j + k) s Q := by
  obtain ⟨t, ht, hp⟩ := h
  obtain ⟨u, hu, hq⟩ := hk t hp
  exact ⟨u, (run_add ht k).trans hu, hq⟩

/-- Between commands: the block is enabled and at rest, the device is `dev`, and `turns` are to come. -/
structure AtRest (c : Config) (dev : RefDevice) (turns : List Move) (s : State) : Prop where
  config : s.cfg = c
  busy : s.busy = false
  enabled : s.en = true
  device : s.bus.dev = dev
  turns : s.schedule = turns

/-- In the command `i`, about to issue the phase of its row `n`, with the device `dev` and `turns` to come. -/
structure AtRow (c : Config) (i : Instr) (n : BitVec 3) (dev : RefDevice) (turns : List Move) (s : State) : Prop where
  config : s.cfg = c
  busy : s.busy = true
  enabled : s.en = true
  command : ∃ w, s.ir = some w ∧ decode w = .ok i
  seq : s.seq = n
  sub : s.sub = false
  device : s.bus.dev = dev
  turns : s.schedule = turns

section
variable {c : Config} {i : Instr} {n k : BitVec 3} {dev : RefDevice} {turns : List Move} {s : State}

/-- HOST's issue puts the command at its first row (R14). -/
theorem runsTo_issue (hwf : c.wf = true) (h : AtRest c dev (.hostIssue (encode i) :: turns) s) :
    RunsTo 1 s (AtRow c i 0 dev turns) := by
  obtain ⟨rfl, hb, hen, hdev, hs⟩ := h
  have hstep : step s = .next (latchCommand (encode i) { s with schedule := turns }) := by
    rw [step_of_schedule hwf hs]
    exact hostIssue_enabled (s := { s with schedule := turns }) hb (decode_encode i) (.inl hen)
  exact ⟨_, run_next hstep 0, rfl, rfl, hen, ⟨_, rfl, decode_encode i⟩, rfl, rfl, hdev, rfl⟩

/-- A row on the reference device: the phase is answered as the device answers it (R103 to R106). -/
theorem run_row_device {r : TableRow} (hwf : c.wf = true) (h : AtRow c i n dev (phaseTurnsDevice ++ turns) s)
    (hr : rowAt i n = some r) :
    ∃ b : BusAgent, b.dev = (deviceStep c (phaseOf (rowBody r) s.active) dev).1 ∧
      run 3 s =
        .next
          { rowOutcome r (deviceStep c (phaseOf (rowBody r) s.active) dev).2 s with
            schedule := turns
            bus := b } := by
  obtain ⟨rfl, hb, hen, ⟨w, hir, hd⟩, rfl, hsub, rfl, hs⟩ := h
  refine ⟨_, ?_, run_row hwf hb hir hd hr hsub hs
    (b := { s.bus with dev := (deviceStep s.cfg (phaseOf (rowBody r) s.active) s.bus.dev).1 }) fun v hv hc hbus => ?_⟩
  · rfl
  · rw [← hc, ← hbus]
    exact busDevice_of_outstanding hv

/-- A start puts the device to await an address byte, whatever its mode (R103). -/
theorem runsTo_start (hwf : c.wf = true) (h : AtRow c i n dev (phaseTurnsDevice ++ turns) s)
    (hr : rowAt i n = some (.always .start (.goto k))) :
    RunsTo 3 s (AtRow c i k { dev with mode := .awaitAddr } turns) := by
  obtain ⟨b, hdev, hrun⟩ := run_row_device hwf h hr
  exact ⟨_, hrun, h.config, h.busy, h.enabled, h.command, rfl, rfl, hdev, rfl⟩

/-- A byte the device acknowledges takes a transaction to its next row (R104, R151). -/
theorem runsTo_tx {b : Byte} {bad : Next} (hwf : c.wf = true) (h : AtRow c i n dev (phaseTurnsDevice ++ turns) s)
    (hr : rowAt i n = some (.test (.tx b) (.goto k) bad)) (hacc : writeAccepted c (deviceTx c b dev).2 = true) :
    RunsTo 3 s (AtRow c i k (deviceTx c b dev).1 turns) := by
  obtain ⟨agent, hdev, hrun⟩ := run_row_device hwf h hr
  rw [rowOutcome_tx_accepted (h.config ▸ hacc)] at hrun
  exact ⟨_, hrun, h.config, h.busy, h.enabled, h.command, rfl, rfl, hdev, rfl⟩

/-- The status of a reception on the device is always in the read accept set (R106, R156). -/
theorem readAccepted_receiveStatus (c : Config) (ack : Bool) : readAccepted c (receiveStatus c ack) = true := by
  cases ack <;> simp [readAccepted, receiveStatus]

/-- A byte in takes a transaction to its next row, with the device's byte as the result (R105, R156). -/
theorem runsTo_rx {ack : Bool} {bad : Next} (hwf : c.wf = true) (h : AtRow c i n dev (phaseTurnsDevice ++ turns) s)
    (hr : rowAt i n = some (.test (.rx ack) (.goto k) bad)) :
    RunsTo 3 s fun t =>
      AtRow c i k (deviceRx c ack dev).1 turns t ∧ t.ok = some true ∧ t.rdata = some (deviceRx c ack dev).2 := by
  obtain ⟨agent, hdev, hrun⟩ := run_row_device hwf h hr
  rw [rowOutcome_rx_accepted (h.config ▸ readAccepted_receiveStatus c ack)] at hrun
  exact ⟨_, hrun, ⟨h.config, h.busy, h.enabled, h.command, rfl, rfl, hdev, rfl⟩, rfl, rfl⟩

/-- A stop ends the command, with its results as they were, and the device idle (R103, R147). -/
theorem runsTo_stop (hwf : c.wf = true) (h : AtRow c i n dev (phaseTurnsDevice ++ turns) s)
    (hr : rowAt i n = some (.always .stop .finish)) :
    RunsTo 3 s fun t =>
      AtRest c { dev with mode := .idle } turns t ∧ t.ok = s.ok ∧ t.rdata = s.rdata ∧ t.active = false ∧
        t.phase = .stopped := by
  obtain ⟨b, hdev, hrun⟩ := run_row_device hwf h hr
  exact ⟨_, hrun, ⟨h.config, rfl, h.enabled, hdev, rfl⟩, rfl, rfl, rfl, rfl⟩

/-! ## The transactions on the reference device -/

theorem slaW_addressed : slaW.extractLsb' 1 7 = devAddr ∧ slaW.getLsbD 0 = false := by decide

theorem slaR_addressed : slaR.extractLsb' 1 7 = devAddr ∧ slaR.getLsbD 0 = true := by decide

/-- The three codes of the write accept set are accepted (R151). -/
theorem writeAccepted_codes (c : Config) :
    writeAccepted c c.stSlaWAck = true ∧ writeAccepted c c.stSlaRAck = true ∧ writeAccepted c c.stDataAck = true := by
  simp [writeAccepted]

/-- The address byte of a write, taken by the device (R104). -/
theorem deviceTx_slaW (c : Config) {dev : RefDevice} (hm : dev.mode = .awaitAddr) (hp : dev.present = true) :
    deviceTx c slaW dev = ({ dev with mode := .wrPtr }, c.stSlaWAck) := by
  obtain ⟨haddr, hbit⟩ := slaW_addressed
  rw [deviceTx_addressed hm hp haddr, hbit]
  rfl

/-- The address byte of a read, taken by the device (R104). -/
theorem deviceTx_slaR (c : Config) {dev : RefDevice} (hm : dev.mode = .awaitAddr) (hp : dev.present = true) :
    deviceTx c slaR dev = ({ dev with mode := .rd }, c.stSlaRAck) := by
  obtain ⟨haddr, hbit⟩ := slaR_addressed
  rw [deviceTx_addressed hm hp haddr, hbit]
  rfl

/-- The first three rows of both transactions set the device's pointer to the register (R171, R175). -/
theorem runsTo_select {ra : Byte} {bad bad' : Next} (hwf : c.wf = true)
    (h : AtRow c i 0 dev (phaseTurnsDevice ++ (phaseTurnsDevice ++ (phaseTurnsDevice ++ turns))) s)
    (hp : dev.present = true) (hn : dev.nackPtr = false) (h0 : rowAt i 0 = some (.always .start (.goto 1)))
    (h1 : rowAt i 1 = some (.test (.tx slaW) (.goto 2) bad))
    (h2 : rowAt i 2 = some (.test (.tx ra) (.goto 3) bad')) :
    RunsTo 9 s (AtRow c i 3 { dev with ptr := ra.toNat % c.devSize, mode := .wrData } turns) := by
  obtain ⟨hw, -, hdata⟩ := writeAccepted_codes c
  have haddr := deviceTx_slaW c (dev := { dev with mode := .awaitAddr }) rfl hp
  have hptr := deviceTx_wrPtr (c := c) (b := ra) (dev := { dev with mode := .wrPtr }) rfl hn
  have haddressed : RunsTo 6 s (AtRow c i 2 { dev with mode := .wrPtr } (phaseTurnsDevice ++ turns)) :=
    (runsTo_start hwf h h0).trans (k := 3) fun t ht => by
      simpa only [haddr] using runsTo_tx hwf ht h1 (by rw [haddr]; exact hw)
  exact haddressed.trans (k := 3) fun t ht => by
    simpa only [hptr] using runsTo_tx hwf ht h2 (by rw [hptr]; exact hdata)

/-- WRITEREG on the device stores its byte in the register (R104, R175). -/
theorem runsTo_writereg {ra d : Byte} (hwf : c.wf = true)
    (h : AtRest c dev (commandTurnsDevice (.writereg ra d) 5 ++ turns) s) (hp : dev.present = true)
    (hn : dev.nackPtr = false) (hd : dev.nackData = false) :
    RunsTo 16 s
      (AtRest c
        { dev with
          mem := memWrite dev.mem (ra.toNat % c.devSize) d
          ptr := (ra.toNat % c.devSize + 1) % c.devSize
          mode := .idle }
        turns) := by
  obtain ⟨-, -, hacc⟩ := writeAccepted_codes c
  have hstore := deviceTx_wrData (c := c) (b := d)
    (dev := { dev with ptr := ra.toNat % c.devSize, mode := .wrData }) rfl hd
  have hselected : RunsTo 10 s
      (AtRow c (.writereg ra d) 3 { dev with ptr := ra.toNat % c.devSize, mode := .wrData }
        (phaseTurnsDevice ++ (phaseTurnsDevice ++ turns))) :=
    (runsTo_issue hwf h).trans (k := 9) fun t ht => runsTo_select hwf ht hp hn rfl rfl rfl
  have hstored := hselected.trans (k := 3) fun t ht => runsTo_tx hwf ht rfl (by rw [hstore]; exact hacc)
  rw [hstore] at hstored
  exact hstored.trans (k := 3) fun t ht => by
    obtain ⟨u, hu, hrest, -⟩ := runsTo_stop hwf ht rfl
    exact ⟨u, hu, hrest⟩

/-- READREG on the device gives the register's byte and leaves the memory (R105, R171). -/
theorem runsTo_readreg {ra : Byte} (hwf : c.wf = true)
    (h : AtRest c dev (commandTurnsDevice (.readreg ra) 7 ++ turns) s) (hp : dev.present = true)
    (hn : dev.nackPtr = false) :
    RunsTo 22 s fun t =>
      AtRest c { dev with ptr := (ra.toNat % c.devSize + 1) % c.devSize, mode := .idle } turns t ∧
        t.ok = some true ∧ t.rdata = some (memRead dev.mem (ra.toNat % c.devSize)) ∧ t.active = false ∧
        t.phase = .stopped := by
  obtain ⟨-, hacc, -⟩ := writeAccepted_codes c
  have haddr := deviceTx_slaR c (dev := { dev with ptr := ra.toNat % c.devSize, mode := .awaitAddr }) rfl hp
  have hselected : RunsTo 10 s
      (AtRow c (.readreg ra) 3 { dev with ptr := ra.toNat % c.devSize, mode := .wrData }
        (phaseTurnsDevice ++ (phaseTurnsDevice ++ (phaseTurnsDevice ++ (phaseTurnsDevice ++ turns))))) :=
    (runsTo_issue hwf h).trans (k := 9) fun t ht => runsTo_select hwf ht hp hn rfl rfl rfl
  have hrestarted := hselected.trans (k := 3) fun t ht => runsTo_start hwf ht rfl
  have haddressed := hrestarted.trans (k := 3) fun t ht => runsTo_tx hwf ht rfl (by rw [haddr]; exact hacc)
  rw [haddr] at haddressed
  have hread := haddressed.trans (k := 3) fun t ht => runsTo_rx hwf ht rfl
  rw [deviceRx_rd false rfl] at hread
  exact hread.trans (k := 3) fun t ⟨ht, hok, hrdata⟩ => by
    obtain ⟨u, hu, hrest, hok', hrdata', hstopped⟩ := runsTo_stop hwf ht rfl
    exact ⟨u, hu, hrest, hok'.trans hok, hrdata'.trans hrdata, hstopped⟩

end

/-- Settles O56: the WRITEREG stores the byte in canonical memory, where the READREG finds it. -/
theorem deviceReturnsTheByteWritten : Obligations.DeviceReturnsTheByteWritten := by
  intro ra d s rest hwf hdw hb hen hp hn hd hs
  obtain ⟨hmem, -⟩ := hdw
  have hstored := memRead_memWrite_self hmem (ra.toNat % s.cfg.devSize) d
  rw [List.append_assoc] at hs
  obtain ⟨t, ht, hrest, hok, hrdata, hactive, hphase⟩ :=
    (runsTo_writereg hwf ⟨rfl, hb, hen, rfl, hs⟩ hp hn hd).trans (k := 22) fun t ht => runsTo_readreg hwf ht hp hn
  refine ⟨t, ht, hok, ?_, hactive, hphase, hrest.turns, ?_⟩
  · rw [hrdata, hstored]
  · rw [hrest.device, hstored]

end Sys2Proof.Safety
end

section
/-! PROOFS. The command word: decoding and encoding are inverse to each other (R112, R113, R115), the rows of the opcode
map by format, the reserved words (R116), the address byte (R118), and the line of a command (R121). -/

namespace Sys2Proof

/-! ## Decoding and encoding -/

/-- Settles O2: every operand stands in its field of the encoded word, and its format's other fields are zero. -/
theorem decodeInvertsEncode : Obligations.DecodeInvertsEncode := fun i _ => decode_encode i

/-- A word is made of three fields exactly when they are its own (R111). -/
theorem eq_word_iff {w : Command} {op a b : Byte} :
    w = word op a b ↔ opField w = op ∧ aField w = a ∧ bField w = b := by
  rw [← word_inj, word_fields]

/-- Format F's byte `a` for a flag: the bits under the mask are zero, and bit 0, which the mask leaves out, is the flag
(R112). -/
theorem eq_flagByte_iff : ∀ (x : Byte) (flag : Bool),
    x = (if flag then 1 else 0) ↔ x &&& 0xFE = 0 ∧ flag = x.getLsbD 0 := by decide

/-- A word selects a command exactly when it is the command's own word (R113, R115). -/
theorem decode_eq_ok_iff {w : Command} {i : Instr} : decode w = .ok i ↔ w = encode i := by
  refine ⟨fun h => ?_, fun h => h ▸ decode_encode i⟩
  rcases decode_ok h with ⟨ho, ha, hb, rfl⟩ | ⟨ho, ha, hb, rfl⟩ | ⟨ho, ha, hb, rfl⟩ | ⟨ho, hb, rfl⟩ |
    ⟨ho, ha, hb, rfl⟩ | ⟨ho, hb, rfl⟩ | ⟨ho, rfl⟩
  · exact eq_word_iff.mpr ⟨ho, ha, hb⟩
  · exact eq_word_iff.mpr ⟨ho, ha, hb⟩
  · exact eq_word_iff.mpr ⟨ho, ha, hb⟩
  · exact eq_word_iff.mpr ⟨ho, rfl, hb⟩
  · exact eq_word_iff.mpr ⟨ho, (eq_flagByte_iff _ _).mpr ⟨and_flagMask_eq_zero _ ha, rfl⟩, hb⟩
  · exact eq_word_iff.mpr ⟨ho, rfl, hb⟩
  · exact eq_word_iff.mpr ⟨ho, rfl, rfl⟩

/-- Settles O3: the fields of a word that decodes are those of the command's word, so the words are equal. -/
theorem encodeInvertsDecode : Obligations.EncodeInvertsDecode := fun _ _ h => (decode_eq_ok_iff.mp h).symm

/-! ## The rows of the opcode map, by format -/

/-- A masked word by its fields, each under its part of the mask (R111). -/
theorem and_word_eq_iff {w : Command} {op a b mo ma mb : Byte} :
    w &&& word mo ma mb = word op a b ↔ opField w &&& mo = op ∧ aField w &&& ma = a ∧ bField w &&& mb = b := by
  rw [← word_inj, ← word_and_word, word_fields]

/-- A field wholly under the mask is compared whole. -/
theorem and_fullMask (x : Byte) : x &&& 0xFF = x := BitVec.and_allOnes

/-- Format N: the mask covers the whole word (R112). -/
theorem eq_iff_formatN (w p : Command) : w = p ↔ w &&& 0xFFFFFF = p := by
  rw [show w &&& 0xFFFFFF = w from BitVec.and_allOnes]

/-- Format A: the mask leaves out `a`, the operand (R112). -/
theorem eq_iff_formatA (w : Command) (op a : Byte) :
    w = word op a 0 ↔ w &&& 0xFF00FF = word op 0 0 ∧ a = aField w := by
  rw [show (0xFF00FF : Command) = word 0xFF 0 0xFF from rfl, eq_word_iff, and_word_eq_iff, and_fullMask, and_fullMask]
  exact ⟨fun ⟨ho, ha, hb⟩ => ⟨⟨ho, BitVec.and_zero, hb⟩, ha.symm⟩, fun ⟨⟨ho, _, hb⟩, ha⟩ => ⟨ho, ha.symm, hb⟩⟩

/-- Format F: the mask leaves out bit 0 of `a`, the flag (R112). -/
theorem eq_iff_formatF (w : Command) (op : Byte) (flag : Bool) :
    w = word op (if flag then 1 else 0) 0 ↔ w &&& 0xFFFEFF = word op 0 0 ∧ flag = w.getLsbD 8 := by
  have hflag : (aField w).getLsbD 0 = w.getLsbD 8 := by simp [aField]
  rw [show (0xFFFEFF : Command) = word 0xFF 0xFE 0xFF from rfl, eq_word_iff, and_word_eq_iff, and_fullMask, and_fullMask,
    eq_flagByte_iff, hflag]
  exact ⟨fun ⟨ho, ⟨ha, hf⟩, hb⟩ => ⟨⟨ho, ha, hb⟩, hf⟩, fun ⟨⟨ho, ha, hb⟩, hf⟩ => ⟨ho, ⟨ha, hf⟩, hb⟩⟩

/-- Format AB: the mask leaves out both operands (R112). -/
theorem eq_iff_formatAB (w : Command) (op a b : Byte) :
    w = word op a b ↔ w &&& 0xFF0000 = word op 0 0 ∧ a = aField w ∧ b = bField w := by
  rw [show (0xFF0000 : Command) = word 0xFF 0 0 from rfl, eq_word_iff, and_word_eq_iff, and_fullMask]
  exact ⟨fun ⟨ho, ha, hb⟩ => ⟨⟨ho, BitVec.and_zero, BitVec.and_zero⟩, ha.symm, hb.symm⟩,
    fun ⟨⟨ho, _, _⟩, ha, hb⟩ => ⟨ho, ha.symm, hb.symm⟩⟩

theorem opField_and (v w : Command) : opField (v &&& w) = opField v &&& opField w := BitVec.extractLsb'_and

/-- Every row fixes the whole opcode, so a word it selects has the row's opcode (R113). -/
theorem opField_of_selects {r : OpcodeRow} {w : Command} (hr : r ∈ opcodeTable) (h : r.selects w = true) :
    opField w = opField r.pattern := by
  have hmask : ∀ r ∈ opcodeTable, opField r.mask = 0xFF := by decide
  have hselects := congrArg opField (beq_iff_eq.mp h)
  rwa [opField_and, hmask r hr, and_fullMask] at hselects

/-- No two rows have one opcode (R113). -/
theorem row_eq_of_opcode_eq :
    ∀ r₁ ∈ opcodeTable, ∀ r₂ ∈ opcodeTable, opField r₁.pattern = opField r₂.pattern → r₁ = r₂ := by decide

/-- Settles O4: each row's mask compares what its format fixes, and the opcodes tell the rows apart. -/
theorem opcodeMapSelectsCommands : Obligations.OpcodeMapSelectsCommands := by
  refine ⟨fun w => ⟨?_, ?_, ?_, fun b => ?_, fun a => ?_, fun ra => ?_, fun ra d => ?_⟩,
    fun w r₁ h₁ r₂ h₂ hs₁ hs₂ => ?_⟩
  · exact decode_eq_ok_iff.trans (eq_iff_formatN w _)
  · exact decode_eq_ok_iff.trans (eq_iff_formatN w _)
  · exact decode_eq_ok_iff.trans (eq_iff_formatN w _)
  · exact decode_eq_ok_iff.trans (eq_iff_formatA w 0x04 b)
  · exact decode_eq_ok_iff.trans (eq_iff_formatF w 0x05 a)
  · exact decode_eq_ok_iff.trans (eq_iff_formatA w 0x10 ra)
  · exact decode_eq_ok_iff.trans (eq_iff_formatAB w 0x11 ra d)
  · exact row_eq_of_opcode_eq r₁ h₁ r₂ h₂ ((opField_of_selects h₁ hs₁).symm.trans (opField_of_selects h₂ hs₂))

/-! ## Reserved words -/

/-- Bits 7 to 1 of field `a` are bits 15 to 9 of the word (R111, R112). -/
theorem extractLsb'_aField (w : Command) : (aField w).extractLsb' 1 7 = w.extractLsb' 9 7 := by
  ext i hi
  simp [aField, show 1 + i < 8 by omega, show 8 + (1 + i) = 9 + i by omega]

/-- A word that a row selects decodes (R113). -/
theorem exists_decode_of_selects {r : OpcodeRow} {w : Command} (hr : r ∈ opcodeTable) (h : r.selects w = true) :
    ∃ i, decode w = .ok i := by
  obtain ⟨hrows, -⟩ := opcodeMapSelectsCommands
  obtain ⟨hinit, hstart, hstop, hwritebyte, hreadbyte, hreadreg, hwritereg⟩ := hrows w
  have hw : w &&& r.mask = r.pattern := beq_iff_eq.mp h
  simp only [opcodeTable, List.mem_cons, List.not_mem_nil, or_false] at hr
  rcases hr with rfl | rfl | rfl | rfl | rfl | rfl | rfl
  · exact ⟨_, hinit.mpr hw⟩
  · exact ⟨_, hstart.mpr hw⟩
  · exact ⟨_, hstop.mpr hw⟩
  · exact ⟨_, (hwritebyte _).mpr ⟨hw, rfl⟩⟩
  · exact ⟨_, (hreadbyte _).mpr ⟨hw, rfl⟩⟩
  · exact ⟨_, (hreadreg _).mpr ⟨hw, rfl⟩⟩
  · exact ⟨_, (hwritereg _ _).mpr ⟨hw, rfl, rfl⟩⟩

/-- Settles O5: a word without a row does not decode, so HOST's issue refuses it; a word with a row decodes, so its fields
are those its format asks for. -/
theorem reservedWordsAreRefused : Obligations.ReservedWordsAreRefused := by
  refine ⟨fun w hrows => ?_, fun w => ?_⟩
  · obtain ⟨e, he⟩ := decode_error_of_no_row hrows
    exact ⟨e, he, fun s hb => Machine.hostIssue_reserved hb he⟩
  · intro op hreserved r hr
    refine Bool.eq_false_iff.mpr fun hs => ?_
    obtain ⟨i, hd⟩ := exists_decode_of_selects hr hs
    have hop : op = (opField w).toNat := rfl
    have hflag : w.extractLsb' 9 7 = (aField w).extractLsb' 1 7 := (extractLsb'_aField w).symm
    rw [show w.extractLsb' 8 8 = aField w from rfl, show w.extractLsb' 0 8 = bField w from rfl, hflag] at hreserved
    clear_value op
    rcases decode_ok hd with ⟨ho, ha, hb, -⟩ | ⟨ho, ha, hb, -⟩ | ⟨ho, ha, hb, -⟩ | ⟨ho, hb, -⟩ |
      ⟨ho, ha, hb, -⟩ | ⟨ho, hb, -⟩ | ⟨ho, -⟩
    · simp [hop, ho, ha, hb] at hreserved
    · simp [hop, ho, ha, hb] at hreserved
    · simp [hop, ho, ha, hb] at hreserved
    · simp [hop, ho, hb] at hreserved
    · simp [hop, ho, ha, hb] at hreserved
    · simp [hop, ho, hb] at hreserved
    · simp [hop, ho] at hreserved

/-! ## The decoding vectors and the address byte -/

/-- Settles O6: a command's word of the vectors is the command's own; a reserved one fails by its opcode or by a
must-be-zero field. -/
theorem sampleWordsDecode : Obligations.SampleWordsDecode := by
  simp only [Obligations.SampleWordsDecode, decode_eq_ok_iff, List.forall_mem_cons, List.not_mem_nil, false_imp_iff,
    implies_true, and_true]
  exact ⟨rfl, rfl, rfl, rfl, rfl, rfl, rfl, rfl, rfl, ⟨.opcode 0x00, rfl⟩, ⟨.fieldB 0x01 0x01, rfl⟩,
    ⟨.fieldB 0x04 0x01, rfl⟩, ⟨.fieldA 0x05 0x02, rfl⟩, ⟨.fieldB 0x10 0x01, rfl⟩, ⟨.opcode 0x12, rfl⟩,
    ⟨.opcode 0x06, rfl⟩, ⟨.opcode 0xFF, rfl⟩⟩

end Sys2Proof

namespace Sys2Proof.Machine

theorem extractLsb'_addressByte (a : BitVec 7) (read : Bool) : (addressByte a read).extractLsb' 1 7 = a := by
  ext i hi
  cases read <;> simp [addressByte, show 1 + i < 8 by omega, BitVec.getLsbD_eq_getElem hi]

theorem getLsbD_zero_addressByte (a : BitVec 7) (read : Bool) : (addressByte a read).getLsbD 0 = read := by
  cases read <;> simp [addressByte]

/-- Settles O7: the shift leaves bit 0 free for the direction. -/
theorem addressByteLayout : Obligations.AddressByteLayout :=
  ⟨fun a read => ⟨extractLsb'_addressByte a read, getLsbD_zero_addressByte a read⟩, by decide, by decide⟩

/-! ## The line of a command -/

/-- Characters none of which parts two words or starts a comment (R121). -/
def Plain (cs : List Char) : Prop := ∀ c ∈ cs, c ≠ ' ' ∧ c ≠ ',' ∧ c ≠ ';'

/-- A word of a line that can be a mnemonic or an operand (R121). -/
structure IsWord (cs : List Char) : Prop where
  nonempty : cs ≠ []
  plain : Plain cs

theorem isWord_hexByte (b : Byte) : IsWord (hexByte b) := by
  have hb := b.isLt
  have hhigh := hexDigit_ne_separator (b.toNat / 16) (by omega)
  have hlow := hexDigit_ne_separator (b.toNat % 16) (by omega)
  exact ⟨nofun, by simpa [Plain, hexByte] using ⟨hhigh, hlow⟩⟩

theorem Plain.no_comment {cs : List Char} (h : Plain cs) : ∀ c ∈ cs, c ≠ ';' := fun c hc => (h c hc).2.2

/-- A line without a `;` has no comment (R121). -/
theorem stripComment_eq_self {cs : List Char} (h : ∀ c ∈ cs, c ≠ ';') : stripComment cs = cs :=
  List.takeWhile_eq_self_iff.mpr (by simpa using h)

theorem tokens_space (rest : List Char) : tokens (' ' :: rest) = [] :: tokens rest := rfl

theorem tokens_comma (rest : List Char) : tokens (',' :: rest) = [] :: [','] :: tokens rest := rfl

/-- The first word of a line grows by a character that parts no words. -/
theorem tokens_cons {c : Char} {rest t : List Char} {ts : List (List Char)} (hspace : c ≠ ' ') (hcomma : c ≠ ',')
    (h : tokens rest = t :: ts) : tokens (c :: rest) = (c :: t) :: ts := by
  simp [tokens, hspace, hcomma, h]

/-- A word before a space or a comma is the first of the words (R121). -/
theorem tokens_append {cs rest : List Char} {ts : List (List Char)} (h : Plain cs) (hrest : tokens rest = [] :: ts) :
    tokens (cs ++ rest) = cs :: ts := by
  induction cs with
  | nil => exact hrest
  | cons c cs ih =>
    obtain ⟨⟨hspace, hcomma, -⟩, hcs⟩ := List.forall_mem_cons.mp h
    exact tokens_cons hspace hcomma (ih hcs)

/-- A word at the end of a line is the last of the words. -/
theorem tokens_word {cs : List Char} (h : IsWord cs) : tokens cs = [cs] := by
  obtain ⟨hne, hplain⟩ := h
  induction cs with
  | nil => exact absurd rfl hne
  | cons c rest ih =>
    obtain ⟨⟨hspace, hcomma, -⟩, hrest⟩ := List.forall_mem_cons.mp hplain
    cases rest with
    | nil => simp [tokens, hspace, hcomma]
    | cons d ds => exact tokens_cons hspace hcomma (ih nofun hrest)

/-- The words of a line with one operand. -/
theorem words_operand {m a : List Char} (hm : IsWord m) (ha : IsWord a) :
    (tokens (stripComment (m ++ ' ' :: a))).filter (· != []) = [m, a] := by
  have hcomment : ∀ c ∈ m ++ ' ' :: a, c ≠ ';' := by
    simpa [or_imp, forall_and] using ⟨hm.plain.no_comment, ha.plain.no_comment⟩
  rw [stripComment_eq_self hcomment, tokens_append hm.plain (tokens_space a), tokens_word ha]
  simp [hm.nonempty, ha.nonempty]

/-- The words of a line with two operands; the comma is one of them. -/
theorem words_operands {m a b : List Char} (hm : IsWord m) (ha : IsWord a) (hb : IsWord b) :
    (tokens (stripComment (m ++ ' ' :: (a ++ ',' :: ' ' :: b)))).filter (· != []) = [m, a, [','], b] := by
  have hcomment : ∀ c ∈ m ++ ' ' :: (a ++ ',' :: ' ' :: b), c ≠ ';' := by
    simpa [or_imp, forall_and] using ⟨hm.plain.no_comment, ha.plain.no_comment, hb.plain.no_comment⟩
  rw [stripComment_eq_self hcomment, tokens_append hm.plain (tokens_space _), tokens_append ha.plain (tokens_comma _),
    tokens_space, tokens_word hb]
  simp [hm.nonempty, ha.nonempty, hb.nonempty]

/-- Settles O8: the words of the line are the mnemonic and the operands, and each operand reads back as its byte. -/
theorem commandLineRoundTrip : Obligations.CommandLineRoundTrip := by
  intro i
  cases i with
  | init => rfl
  | start => rfl
  | stop => rfl
  | writebyte b =>
    have hm : IsWord ['W', 'R', 'I', 'T', 'E', 'B', 'Y', 'T', 'E'] := ⟨nofun, by simp [Plain]⟩
    have hline : commandLine (.writebyte b) = ['W', 'R', 'I', 'T', 'E', 'B', 'Y', 'T', 'E'] ++ ' ' :: hexByte b := rfl
    rw [parseLine, hline, words_operand hm (isWord_hexByte b)]
    exact congrArg (Option.map _) (readByteOperand_hexByte b)
  | readbyte sendAck => cases sendAck <;> rfl
  | readreg ra =>
    have hm : IsWord ['R', 'E', 'A', 'D', 'R', 'E', 'G'] := ⟨nofun, by simp [Plain]⟩
    have hline : commandLine (.readreg ra) = ['R', 'E', 'A', 'D', 'R', 'E', 'G'] ++ ' ' :: hexByte ra := rfl
    rw [parseLine, hline, words_operand hm (isWord_hexByte ra)]
    exact congrArg (Option.map _) (readByteOperand_hexByte ra)
  | writereg ra d =>
    have hm : IsWord ['W', 'R', 'I', 'T', 'E', 'R', 'E', 'G'] := ⟨nofun, by simp [Plain]⟩
    have hline : commandLine (.writereg ra d) =
        ['W', 'R', 'I', 'T', 'E', 'R', 'E', 'G'] ++ ' ' :: (hexByte ra ++ ',' :: ' ' :: hexByte d) := rfl
    rw [parseLine, hline, words_operands hm (isWord_hexByte ra) (isWord_hexByte d)]
    exact congrArg₂ (fun x y => x.bind fun ra => y.bind fun d => some (Instr.writereg ra d))
      (readByteOperand_hexByte ra) (readByteOperand_hexByte d)

end Sys2Proof.Machine
end

section
/-! PROOFS. The accept sets (R151, R156): a status is accepted when it is one of three, or of two, codes, and R9 makes the
five distinct (O19). -/

namespace Sys2Proof.Safety

open Sys2Proof.Machine

/-- The codes of the write accept set (R151). -/
def writeCodes (c : Config) : List Byte := [c.stSlaWAck, c.stSlaRAck, c.stDataAck]

/-- The codes of the read accept set (R156). -/
def readCodes (c : Config) : List Byte := [c.stRxAck, c.stRxNack]

theorem writeAccepted_iff_mem {c : Config} {st : Byte} : writeAccepted c st = true ↔ st ∈ writeCodes c := by
  simp [writeAccepted, writeCodes, or_assoc]

theorem readAccepted_iff_mem {c : Config} {st : Byte} : readAccepted c st = true ↔ st ∈ readCodes c := by
  simp [readAccepted, readCodes]

theorem writeAccepted_iff {c : Config} {st : Byte} : writeAccepted c st = true ↔ InWriteSet c st := by
  simp [writeAccepted_iff_mem, writeCodes, InWriteSet]

theorem readAccepted_iff {c : Config} {st : Byte} : readAccepted c st = true ↔ InReadSet c st := by
  simp [readAccepted_iff_mem, readCodes, InReadSet]

/-- In a well-formed configuration the codes of the two sets are pairwise distinct (R9). -/
theorem nodup_acceptCodes {c : Config} (h : c.wf = true) : (writeCodes c ++ readCodes c).Nodup := by
  obtain ⟨-, -, -, hnodup, -⟩ := (Config.wf_iff c).mp h
  exact hnodup

/-- Among the 256 bytes there are as many with a property as a list without repetition of just these has entries. -/
theorem length_filter_bytes {p : Byte → Bool} {l : List Byte} (hl : l.Nodup) (hp : ∀ b, p b = true ↔ b ∈ l) :
    ((List.range 256).filter fun n => p (BitVec.ofNat 8 n)).length = l.length := by
  have hmem : ∀ n, n ∈ (List.range 256).filter (fun n => p (BitVec.ofNat 8 n)) ↔ n ∈ l.map BitVec.toNat := by
    intro n
    rw [List.mem_filter, List.mem_range, List.mem_map, hp]
    constructor
    · rintro ⟨hn, hb⟩
      exact ⟨_, hb, by rw [BitVec.toNat_ofNat, Nat.mod_eq_of_lt hn]⟩
    · rintro ⟨b, hb, rfl⟩
      exact ⟨b.isLt, by rwa [BitVec.ofNat_toNat, BitVec.setWidth_eq]⟩
  have hnodup : (l.map BitVec.toNat).Nodup := hl.map fun _ _ => BitVec.eq_of_toNat_eq
  have hperm := (List.perm_ext_iff_of_nodup (List.nodup_range.filter _) hnodup).mpr hmem
  rw [hperm.length_eq, List.length_map]

/-- Settles O19: each set is counted by its list of codes, and the two lists have no code in common. -/
theorem acceptSetSizes : Obligations.AcceptSetSizes := by
  intro c hwf
  have hnodup := nodup_acceptCodes hwf
  refine ⟨length_filter_bytes hnodup.of_append_left fun _ => writeAccepted_iff_mem,
    length_filter_bytes hnodup.of_append_right fun _ => readAccepted_iff_mem, fun st hst => ?_⟩
  rw [← Bool.not_eq_true, readAccepted_iff_mem]
  exact List.disjoint_of_nodup_append hnodup (writeAccepted_iff_mem.mp hst)

end Sys2Proof.Safety
end

section
/-! PROOFS. The primitive commands one ENGINE step at a time: INIT (O13, O23), the issue and the completion step of the
other four (O14 to O17), and the wait between them (O18). -/

namespace Sys2Proof.Safety

open Sys2Proof.Machine

/-! ## INIT -/

/-- In a well-formed configuration the divisor fits its 8-bit register (R9, R141). -/
theorem toNat_divValue {c : Config} (h : c.wf = true) : (BitVec.ofNat 8 (divValue c)).toNat = divValue c := by
  obtain ⟨-, -, hle, -⟩ := (Config.wf_iff c).mp h
  rw [BitVec.toNat_ofNat, Nat.mod_eq_of_lt (Nat.lt_succ_of_le hle)]

/-- Settles O13: INIT is one step, its divisor fits, and the step refuses an ill-formed configuration. -/
theorem initResult : Obligations.InitResult := by
  refine ⟨fun _ => rfl, fun c hwf => ?_, fun s hwf => step_of_illFormed hwf, by decide⟩
  obtain ⟨-, hratio, -⟩ := (Config.wf_iff c).mp hwf
  exact ⟨hratio, toNat_divValue hwf⟩

/-- Settles O23: the one next state of INIT, register by register. -/
theorem initFrame : Obligations.InitFrame := by
  intro s t h
  cases h
  exact ⟨rfl, rfl, rfl, rfl, rfl, rfl, rfl, rfl, rfl, rfl, rfl, rfl, rfl, fun _ => rfl⟩

/-! ## The completion step, body by body -/

theorem completeStep_start (s : State) :
    completeStep .start s = .ok { retire s with phase := .started, sub := false } := rfl

theorem completeStep_stop (s : State) :
    completeStep .stop s = .ok { retire s with active := false, phase := .stopped, sub := false } := rfl

section
variable {s : State} {st d : Byte}

theorem completeStep_tx_accepted (b : Byte) (hst : s.status = some st) (h : InWriteSet s.cfg st) :
    completeStep (.tx b) s = .ok { retire s with ok := some true, phase := byteOk s.phase, sub := false } := by
  simp [completeStep, hst, writeAccepted_iff.mpr h, txFlags]

theorem completeStep_tx_failed (b : Byte) (hst : s.status = some st) (h : ¬InWriteSet s.cfg st) :
    completeStep (.tx b) s = .ok { retire s with ok := some false, phase := .error, sub := false } := by
  simp [completeStep, hst, mt writeAccepted_iff.mp h, txFlags]

theorem completeStep_rx_accepted (ack : Bool) (hst : s.status = some st) (hd : s.data = some d)
    (h : InReadSet s.cfg st) :
    completeStep (.rx ack) s =
      .ok { retire s with ok := some true, rdata := some d, phase := byteOk s.phase, sub := false } := by
  simp [completeStep, hst, hd, readAccepted_iff.mpr h, rxFlags]

theorem completeStep_rx_failed (ack : Bool) (hst : s.status = some st) (h : ¬InReadSet s.cfg st) :
    completeStep (.rx ack) s =
      .ok { retire s with ok := some false, rdata := none, phase := .error, sub := false } := by
  cases hd : s.data <;> simp [completeStep, hst, hd, mt readAccepted_iff.mp h, rxFlags]

end

/-! ## One step of a primitive command -/

/-- A primitive command has one row, which ends the command whatever `OK` holds (R143). -/
theorem stepTable_primitive {i : Instr} {p : Primitive} (h : primitiveOf i = some p) :
    stepTable i = [.always p .finish] := by
  cases i <;> cases h <;> rfl

/-- A primitive command runs its one row and does not look at `SEQ` (R25, R143). -/
theorem exec_primitive {i : Instr} {p : Primitive} (h : primitiveOf i = some p) (s : State) :
    exec i s = runRow (.always p .finish) s := by
  cases i <;> cases h <;> rfl

theorem exec_primitive_issue {i : Instr} {p : Primitive} {s : State} (h : primitiveOf i = some p)
    (hs : s.sub = false) : exec i s = .next (issueStep p s) :=
  (exec_primitive h s).trans (runRow_issue _ hs)

theorem exec_primitive_wait {i : Instr} {p : Primitive} {s : State} (h : primitiveOf i = some p)
    (hs : s.sub = true) (hd : s.phDone = false) : exec i s = .next s :=
  (exec_primitive h s).trans (runRow_wait _ hs hd)

theorem exec_primitive_complete {i : Instr} {p : Primitive} {s t : State} (h : primitiveOf i = some p)
    (hs : s.sub = true) (hd : s.phDone = true) (ht : completeStep p s = .ok t) : exec i s = .next (finish t) :=
  (exec_primitive h s).trans (runRow_complete _ hs hd ht)

/-- Settles O14, the issue step and the completion step of START's body. -/
theorem startResult : Obligations.StartResult := fun s =>
  ⟨exec_primitive_issue (p := .start) rfl, fun hs hd => exec_primitive_complete rfl hs hd (completeStep_start s)⟩

/-- Settles O15, the issue step and the completion step of STOP's body. -/
theorem stopResult : Obligations.StopResult := fun s =>
  ⟨exec_primitive_issue (p := .stop) rfl, fun hs hd => exec_primitive_complete rfl hs hd (completeStep_stop s)⟩

/-- Settles O16, the issue step, and the completion step by whether the status is one of the three codes. -/
theorem writebyteResult : Obligations.WritebyteResult := fun byte _ =>
  ⟨exec_primitive_issue (p := .tx byte) rfl, fun _ hs hd hst =>
    ⟨fun h => exec_primitive_complete rfl hs hd (completeStep_tx_accepted byte hst h),
      fun h => exec_primitive_complete rfl hs hd (completeStep_tx_failed byte hst h)⟩⟩

/-- Settles O17, the issue step, and the completion step by whether the status is one of the two codes. -/
theorem readbyteResult : Obligations.ReadbyteResult := fun sendAck _ =>
  ⟨exec_primitive_issue (p := .rx sendAck) rfl, fun _ _ hs hd hst hdata =>
    ⟨fun h => exec_primitive_complete rfl hs hd (completeStep_rx_accepted sendAck hst hdata h),
      fun h => exec_primitive_complete rfl hs hd (completeStep_rx_failed sendAck hst h)⟩⟩

/-- At any row of its table, or at none, a transaction whose phase has not completed has no step (R12, R143). -/
theorem runTable_wait (rows : List TableRow) {s : State} (hs : s.sub = true) (hd : s.phDone = false) :
    runTable rows s = .next s := by
  unfold runTable
  split
  · next r _ => exact runRow_wait r hs hd
  · rfl

/-- Settles O18: a primitive command waits at its one row, a transaction at the row it is at. -/
theorem busCommandsWaitForThePhase : Obligations.BusCommandsWaitForThePhase := by
  intro i s hi hs hd
  cases i with
  | init => exact absurd rfl hi
  | start => exact exec_primitive_wait (p := .start) rfl hs hd
  | stop => exact exec_primitive_wait (p := .stop) rfl hs hd
  | writebyte b => exact exec_primitive_wait (p := .tx b) rfl hs hd
  | readbyte a => exact exec_primitive_wait (p := .rx a) rfl hs hd
  | readreg ra => exact runTable_wait _ hs hd
  | writereg ra d => exact runTable_wait _ hs hd

end Sys2Proof.Safety
end

section
/-! PROOFS. What one ENGINE step of a command that uses the bus leaves unchanged (O24, O25, O26): no row writes the
command, the enable, the divisor, `STATUS` or the inputs, and which body stands in a row tells the rest. -/

namespace Sys2Proof.Safety

open Sys2Proof.Machine

/-! ## Rows -/

/-- Only an `Rx` body writes `ACKEN` (R32). -/
theorem runRow_acken {r : TableRow} {s t : State} (h : runRow r s = .next t) (hp : ∀ a, rowBody r ≠ .rx a) :
    t.acken = s.acken := by
  rcases runRow_next h with ⟨-, rfl⟩ | ⟨-, -, rfl⟩ | ⟨-, -, u, hu, rfl⟩
  · cases hbody : rowBody r with
    | start => rfl
    | stop => rfl
    | tx b => rfl
    | rx a => exact absurd hbody (hp a)
  · rfl
  · obtain ⟨-, -, -, -, -, -, -, -, hcomplete, -⟩ := completeStep_frame hu
    obtain ⟨-, -, -, hnext, -⟩ := applyNext_frame (rowNext r u) u
    exact hnext.trans hcomplete

/-- Of ENGINE's steps only the issue step of a `Tx` body writes `DATA` (R21). -/
theorem runRow_data {r : TableRow} {s t : State} (h : runRow r s = .next t) (hp : ∀ b, rowBody r ≠ .tx b) :
    t.data = s.data := by
  rcases runRow_next h with ⟨-, rfl⟩ | ⟨-, -, rfl⟩ | ⟨-, -, u, hu, rfl⟩
  · cases hbody : rowBody r with
    | start => rfl
    | stop => rfl
    | tx b => exact absurd hbody (hp b)
    | rx a => rfl
  · rfl
  · obtain ⟨-, -, -, -, -, -, -, -, -, -, hcomplete, -⟩ := completeStep_frame hu
    obtain ⟨-, -, -, -, -, -, -, -, hnext, -⟩ := applyNext_frame (rowNext r u) u
    exact hnext.trans hcomplete

/-- Only START's and STOP's bodies write `ACTIVE` (R31). -/
theorem runRow_active {r : TableRow} {s t : State} (h : runRow r s = .next t) (hstart : rowBody r ≠ .start)
    (hstop : rowBody r ≠ .stop) : t.active = s.active := by
  rcases runRow_next h with ⟨-, rfl⟩ | ⟨-, -, rfl⟩ | ⟨-, -, u, hu, rfl⟩
  · by_contra hne
    exact hstart (issueStep_writes_active hne).1
  · rfl
  · obtain ⟨-, -, -, -, hnext, -⟩ := applyNext_frame (rowNext r u) u
    exact hnext.trans (completeStep_active hu hstop)

/-- The row of START or of STOP does not write `OK` (R28). -/
theorem runRow_startStop_ok {p : Primitive} {s t : State} (hp : p = .start ∨ p = .stop)
    (h : runRow (.always p .finish) s = .next t) : t.ok = s.ok := by
  rcases runRow_next h with ⟨-, rfl⟩ | ⟨-, -, rfl⟩ | ⟨-, -, u, hu, rfl⟩
  · obtain ⟨-, -, -, -, hok, -⟩ := issueStep_frame p s
    exact hok
  · rfl
  · rcases hp with rfl | rfl <;> cases hu <;> rfl

/-! ## Commands -/

section
variable {i : Instr} {s t : State}

/-- What no row writes, whatever its body, no command that uses the bus writes (R143). -/
theorem exec_frame (hi : i ≠ .init) (h : exec i s = .next t) :
    t.ir = s.ir ∧ t.en = s.en ∧ t.div = s.div ∧ t.status = s.status ∧ t.cfg = s.cfg ∧ t.schedule = s.schedule ∧
      t.bus = s.bus := by
  rcases exec_next_row hi h with ⟨r, -, hrow⟩ | rfl
  · exact runRow_frame hrow
  · exact ⟨rfl, rfl, rfl, rfl, rfl, rfl, rfl⟩

/-- A register that every row of the command's table keeps, the command keeps. -/
theorem exec_keeps {α : Type} (f : State → α) (hi : i ≠ .init) (h : exec i s = .next t)
    (hf : ∀ r ∈ stepTable i, runRow r s = .next t → f t = f s) : f t = f s := by
  rcases exec_next_row hi h with ⟨r, hr, hrow⟩ | rfl
  · exact hf r hr hrow
  · rfl

variable (hread : ¬((∃ a, i = .readbyte a) ∨ ∃ ra, i = .readreg ra))
include hread

/-- A command that is not a read keeps `RDATA` (R23). -/
theorem exec_rdata (hi : i ≠ .init) (h : exec i s = .next t) : t.rdata = s.rdata :=
  exec_keeps State.rdata hi h fun r hr hrow => by
    by_contra hne
    obtain ⟨-, -, hw⟩ := runRow_writes_rdata hrow hne
    exact hread (read_of_rowWritesRdata hr hw)

/-- A command that is not a read has no row that receives, and keeps `ACKEN` (R32). -/
theorem exec_acken (hi : i ≠ .init) (h : exec i s = .next t) : t.acken = s.acken :=
  exec_keeps State.acken hi h fun _ hr hrow =>
    runRow_acken hrow fun a hbody => hread (read_of_rowWritesRdata hr (.inl ⟨a, hbody⟩))

end

/-- Settles O24: neither body writes `OK`, `RDATA`, `ACKEN` or `DATA`. -/
theorem startStopFrame : Obligations.StartStopFrame := by
  intro i s t hcmd h
  obtain ⟨p, hp, hbody⟩ : ∃ p, (p = .start ∨ p = .stop) ∧ primitiveOf i = some p := by
    rcases hcmd with rfl | rfl
    · exact ⟨.start, .inl rfl, rfl⟩
    · exact ⟨.stop, .inr rfl, rfl⟩
  have hi : i ≠ .init := by rintro rfl; cases hbody
  have hread : ¬((∃ a, i = .readbyte a) ∨ ∃ ra, i = .readreg ra) := by rcases hcmd with rfl | rfl <;> simp
  have hrow : runRow (.always p .finish) s = .next t := exec_primitive hbody s ▸ h
  have hok := runRow_startStop_ok hp hrow
  have hdata : t.data = s.data := runRow_data hrow (by rcases hp with rfl | rfl <;> nofun)
  obtain ⟨hir, hen, hdiv, hstatus, hcfg, hsch, hbus⟩ := exec_frame hi h
  exact ⟨hir, hok, exec_rdata hread hi h, hen, hdiv, exec_acken hread hi h, hstatus, hdata, hcfg, hsch, hbus,
    fun _ => by rw [hbus]⟩

/-- Settles O25: no row of the two tables receives, and WRITEBYTE's neither starts nor stops. -/
theorem writeCommandsFrame : Obligations.WriteCommandsFrame := by
  intro i s t hcmd h
  have hi : i ≠ .init := by rintro rfl; simp at hcmd
  have hread : ¬((∃ a, i = .readbyte a) ∨ ∃ ra, i = .readreg ra) := by
    rcases hcmd with ⟨b, rfl⟩ | ⟨ra, d, rfl⟩ <;> simp
  have hactive : (∃ b, i = .writebyte b) → t.active = s.active := by
    rintro ⟨b, rfl⟩
    exact runRow_active (r := .always (.tx b) .finish) h nofun nofun
  obtain ⟨hir, hen, hdiv, hstatus, hcfg, hsch, hbus⟩ := exec_frame hi h
  exact ⟨hir, exec_rdata hread hi h, hen, hdiv, exec_acken hread hi h, hstatus, hactive, hcfg, hsch, hbus,
    fun _ => by rw [hbus]⟩

/-- Settles O26: READBYTE's one row neither starts nor stops nor transmits. -/
theorem readCommandsFrame : Obligations.ReadCommandsFrame := by
  intro i s t hcmd h
  have hi : i ≠ .init := by rintro rfl; simp at hcmd
  have hreadbyte : (∃ a, i = .readbyte a) → t.active = s.active ∧ t.data = s.data := by
    rintro ⟨a, rfl⟩
    have hrow : runRow (.always (.rx a) .finish) s = .next t := h
    exact ⟨runRow_active hrow nofun nofun, runRow_data hrow nofun⟩
  obtain ⟨hir, hen, hdiv, hstatus, hcfg, hsch, hbus⟩ := exec_frame hi h
  exact ⟨hir, hen, hdiv, hstatus, hreadbyte, hcfg, hsch, hbus, fun _ => by rw [hbus]⟩

end Sys2Proof.Safety
end

section
/-! PROOFS. A primitive command as one transition (R161): HOST's issue, then its one row, answered by the free BUS turn
(O47). -/

namespace Sys2Proof.Safety

open Sys2Proof.Machine

/-- HOST's issue of a command to an enabled block at rest goes on to the command's first step (R14). -/
theorem step_hostIssue {i : Instr} {s : State} {rest : List Move} (hwf : s.cfg.wf = true) (hb : s.busy = false)
    (hen : s.en = true) (hs : s.schedule = .hostIssue (encode i) :: rest) :
    step s = .next (latchCommand (encode i) { s with schedule := rest }) := by
  rw [step_of_schedule hwf hs]
  exact hostIssue_enabled (s := { s with schedule := rest }) hb (decode_encode i) (.inl hen)

/-- Three turns take a command through the row it is at, when the free BUS turn answers `a` (R71, R143). -/
theorem run_row_free {i : Instr} {w : Command} {r : TableRow} {a : BusAnswer} {s : State} {rest : List Move}
    (hwf : s.cfg.wf = true) (hb : s.busy = true) (hir : s.ir = some w) (hd : decode w = .ok i)
    (hr : rowAt i s.seq = some r) (hsub : s.sub = false) (hs : s.schedule = phaseTurns a ++ rest) :
    run 3 s =
      .next
        { rowOutcome r a s with
          schedule := rest
          bus := { s.bus with wire := wireDone (phaseOf (rowBody r) s.active) s.bus.wire } } :=
  run_row hwf hb hir hd hr hsub hs fun v hv _ hbus => by
    rw [← hbus]
    exact busFree_of_outstanding a.status a.data hv

/-- A primitive's outcome hands on the command, the turns and the sequencer as it finds them (R161). -/
theorem primitiveOutcome_issued (p : Primitive) (a : BusAnswer) (w : Command) (turns : List Move) (s : State) :
    primitiveOutcome p a (latchCommand w { s with schedule := turns }) =
      latchCommand w { primitiveOutcome p a s with schedule := turns } := by
  cases p with
  | start => rfl
  | stop => rfl
  | tx b => cases h : writeAccepted s.cfg a.status <;> simp [primitiveOutcome, latchCommand, h]
  | rx ack => cases h : readAccepted s.cfg a.status <;> simp [primitiveOutcome, latchCommand, h]

/-- Settles O47: HOST's issue, then the command's one row, whose outcome is R161's. -/
theorem primitiveCommandBigStep : Obligations.PrimitiveCommandBigStep := by
  intro i p a s rest hp hwf hb hen hs
  have hissue := step_hostIssue hwf hb hen (rest := phaseTurns a ++ rest) (by simpa [commandTurns] using hs)
  have hat : rowAt i 0 = some (.always p .finish) := by rw [rowAt_eq_stepTable, stepTable_primitive hp]; rfl
  have hrow := run_row_free (s := latchCommand (encode i) { s with schedule := phaseTurns a ++ rest }) (a := a) hwf
    rfl rfl (decode_encode i) hat rfl rfl
  refine ⟨_, (run_next hissue 3).trans hrow, ?_⟩
  simp only [rowOutcome, rowBody, rowNext, applyNext, primitiveOutcome_issued]
  rfl

end Sys2Proof.Safety
end

section
/-! PROOFS. The register transactions one ENGINE step at a time: the row a command is at, issued and completed, gives
READREG's and WRITEREG's step tables (O21, O22), and a completion step on a status outside both accept sets does not show
which status it was (O46). -/

namespace Sys2Proof.Safety

open Sys2Proof.Machine

/-! ## The row a command is at -/

section
variable {i : Instr} {n : BitVec 3} {r : TableRow} {s : State}

theorem exec_issue_at (hs : s.sub = false) (hn : s.seq = n) (hr : rowAt i n = some r) :
    exec i s = .next (issueStep (rowBody r) s) :=
  (exec_rowAt (hn ▸ hr)).trans (runRow_issue r hs)

theorem exec_complete_at {t : State} (hs : s.sub = true) (hd : s.phDone = true) (hn : s.seq = n)
    (hr : rowAt i n = some r) (ht : completeStep (rowBody r) s = .ok t) :
    exec i s = .next (applyNext (rowNext r t) t) :=
  (exec_rowAt (hn ▸ hr)).trans (runRow_complete r hs hd ht)

theorem exec_complete_start_at {k : BitVec 3} (hs : s.sub = true) (hd : s.phDone = true) (hn : s.seq = n)
    (hr : rowAt i n = some (.always .start (.goto k))) : exec i s = .next (wentOn k { s with phase := .started }) :=
  exec_complete_at hs hd hn hr (completeStep_start s)

theorem exec_complete_stop_at (hs : s.sub = true) (hd : s.phDone = true) (hn : s.seq = n)
    (hr : rowAt i n = some (.always .stop .finish)) :
    exec i s = .next (ended { s with active := false, phase := .stopped }) :=
  exec_complete_at hs hd hn hr (completeStep_stop s)

/-- A row that sends a byte, completed on a status of the write accept set, goes on (R150, R151, R178). -/
theorem exec_complete_tx_accepted {b st : Byte} {k : BitVec 3} {bad : Next} (hs : s.sub = true)
    (hd : s.phDone = true) (hn : s.seq = n) (hr : rowAt i n = some (.test (.tx b) (.goto k) bad))
    (hst : s.status = some st) (h : InWriteSet s.cfg st) :
    exec i s = .next (wentOn k { s with ok := some true, phase := byteOk s.phase }) :=
  exec_complete_at hs hd hn hr (completeStep_tx_accepted b hst h)

/-- A row that sends a byte, completed on any other status, continues as its table says of a failure (R150, R178). -/
theorem exec_complete_tx_failed {b st : Byte} {good bad : Next} (hs : s.sub = true) (hd : s.phDone = true)
    (hn : s.seq = n) (hr : rowAt i n = some (.test (.tx b) good bad)) (hst : s.status = some st)
    (h : ¬InWriteSet s.cfg st) :
    exec i s = .next (applyNext bad { retire s with ok := some false, phase := .error, sub := false }) :=
  exec_complete_at hs hd hn hr (completeStep_tx_failed b hst h)

end

/-- Settles O21, row by row of R171: the issue step, then the completion step by what the status says. -/
theorem readregStepTable : Obligations.ReadregStepTable := by
  intro ra s
  refine ⟨fun hs => ?_, fun hs hd => ?_⟩
  · have issue {n r} (h : s.seq = n) (hr : rowAt (.readreg ra) n = some r) := exec_issue_at hs h hr
    exact ⟨fun h => (issue h rfl :), fun h => (issue h rfl :), fun h => (issue h rfl :), fun h => (issue h rfl :),
      fun h => (issue h rfl :), fun h => (issue h rfl :), fun h => (issue h rfl :)⟩
  · refine ⟨fun h => exec_complete_start_at hs hd h rfl, fun h => exec_complete_start_at hs hd h rfl, fun st hst hseq => ?_,
      fun st d hst hdata h => ?_, fun h => exec_complete_stop_at hs hd h rfl⟩
    · rcases hseq with h | h | h <;> rw [h] <;>
        exact ⟨exec_complete_tx_accepted hs hd h rfl hst,
          exec_complete_tx_failed (bad := .failRead) hs hd h rfl hst⟩
    · have complete {t} (ht : completeStep (.rx false) s = .ok t) :=
        exec_complete_at (i := .readreg ra) (r := .test (.rx false) (.goto 6) (.goto 6)) hs hd h rfl ht
      exact ⟨fun hin => complete (completeStep_rx_accepted false hst hdata hin),
        fun hout => complete (completeStep_rx_failed false hst hout)⟩

/-- Settles O22, row by row of R175: the issue step, then the completion step by what the status says. -/
theorem writeregStepTable : Obligations.WriteregStepTable := by
  intro ra d s
  refine ⟨fun hs => ?_, fun hs hd => ?_⟩
  · have issue {n r} (h : s.seq = n) (hr : rowAt (.writereg ra d) n = some r) := exec_issue_at hs h hr
    exact ⟨fun h => (issue h rfl :), fun h => (issue h rfl :), fun h => (issue h rfl :), fun h => (issue h rfl :),
      fun h => (issue h rfl :)⟩
  · refine ⟨fun h => exec_complete_start_at hs hd h rfl, fun st hst hseq => ?_,
      fun h => exec_complete_stop_at hs hd h rfl⟩
    rcases hseq with h | h | h <;> rw [h] <;>
      exact ⟨exec_complete_tx_accepted hs hd h rfl hst, exec_complete_tx_failed (bad := .fail) hs hd h rfl hst⟩

/-! ## A failure hides its cause -/

/-- The state with the status `st` in it. -/
def withStatus (st : Byte) (s : State) : State := { s with status := some st }

theorem issueStep_withStatus (p : Primitive) (st : Byte) (s : State) :
    issueStep p (withStatus st s) = withStatus st (issueStep p s) := by
  cases p <;> rfl

theorem applyNext_rowNext_withStatus (r : TableRow) (st : Byte) (s : State) :
    applyNext (rowNext r (withStatus st s)) (withStatus st s) = withStatus st (applyNext (rowNext r s) s) := by
  have hnext : rowNext r (withStatus st s) = rowNext r s := by cases r <;> rfl
  rw [hnext]
  cases rowNext r s <;> rfl

/-- On a status outside both accept sets every body completes in the same way, with that status kept (R151, R156). -/
theorem completeStep_of_rejected (p : Primitive) (s : State) :
    ∃ t, ∀ st, ¬InWriteSet s.cfg st → ¬InReadSet s.cfg st →
      completeStep p (withStatus st s) = .ok (withStatus st t) := by
  cases p with
  | start =>
    exact ⟨{ retire s with phase := .started, sub := false }, fun st _ _ => completeStep_start (withStatus st s)⟩
  | stop =>
    exact ⟨{ retire s with active := false, phase := .stopped, sub := false },
      fun st _ _ => completeStep_stop (withStatus st s)⟩
  | tx b =>
    exact ⟨{ retire s with ok := some false, phase := .error, sub := false },
      fun st hw _ => completeStep_tx_failed (s := withStatus st s) b rfl hw⟩
  | rx ack =>
    exact ⟨{ retire s with ok := some false, rdata := none, phase := .error, sub := false },
      fun st _ hr => completeStep_rx_failed (s := withStatus st s) ack rfl hr⟩

/-- One ENGINE step at a row goes on in the same way on every status outside both accept sets. -/
theorem runRow_of_rejected (r : TableRow) (s : State) :
    ∃ t, ∀ st, ¬InWriteSet s.cfg st → ¬InReadSet s.cfg st → runRow r (withStatus st s) = .next (withStatus st t) := by
  cases hs : s.sub with
  | false =>
    exact ⟨issueStep (rowBody r) s, fun st _ _ =>
      (runRow_issue r (s := withStatus st s) hs).trans (congrArg _ (issueStep_withStatus _ st s))⟩
  | true =>
    cases hd : s.phDone with
    | false => exact ⟨s, fun st _ _ => runRow_wait r (s := withStatus st s) hs hd⟩
    | true =>
      obtain ⟨t, ht⟩ := completeStep_of_rejected (rowBody r) s
      exact ⟨applyNext (rowNext r t) t, fun st hw hr =>
        (runRow_complete r (s := withStatus st s) hs hd (ht st hw hr)).trans
          (congrArg _ (applyNext_rowNext_withStatus r st t))⟩

theorem runTable_of_rejected (rows : List TableRow) (s : State) :
    ∃ t, ∀ st, ¬InWriteSet s.cfg st → ¬InReadSet s.cfg st →
      runTable rows (withStatus st s) = .next (withStatus st t) := by
  cases hr : rows[s.seq.toNat]? with
  | none => exact ⟨s, fun st _ _ => by simp only [runTable, withStatus, hr]⟩
  | some r =>
    obtain ⟨t, ht⟩ := runRow_of_rejected r s
    exact ⟨t, fun st hw hrd => by rw [← ht st hw hrd]; simp only [runTable, withStatus, hr]⟩

/-- One ENGINE step of any command does not tell apart the statuses outside both accept sets (R181). -/
theorem exec_of_rejected (i : Instr) (s : State) :
    ∃ t, ∀ st, ¬InWriteSet s.cfg st → ¬InReadSet s.cfg st → exec i (withStatus st s) = .next (withStatus st t) := by
  cases i with
  | init => exact ⟨finish { s with div := some (BitVec.ofNat 8 (divValue s.cfg)), en := true }, fun _ _ _ => rfl⟩
  | start => exact runRow_of_rejected (.always .start .finish) s
  | stop => exact runRow_of_rejected (.always .stop .finish) s
  | writebyte b => exact runRow_of_rejected (.always (.tx b) .finish) s
  | readbyte a => exact runRow_of_rejected (.always (.rx a) .finish) s
  | readreg ra => exact runTable_of_rejected _ s
  | writereg ra d => exact runTable_of_rejected _ s

/-- Settles O46: the two steps go on to one state that differs in `STATUS` alone. -/
theorem failureHidesItsCause : Obligations.FailureHidesItsCause := by
  intro i s st₁ st₂ hw₁ hr₁ hw₂ hr₂
  obtain ⟨t, ht⟩ := exec_of_rejected i s
  have forget : ∀ st, mapNext (fun t => { t with status := none }) (.next (withStatus st t)) =
      .next { t with status := none } := fun _ => rfl
  calc
    _ = mapNext (fun t => { t with status := none }) (.next (withStatus st₁ t)) := congrArg _ (ht st₁ hw₁ hr₁)
    _ = mapNext (fun t => { t with status := none }) (.next (withStatus st₂ t)) := (forget st₁).trans (forget st₂).symm
    _ = _ := congrArg _ (ht st₂ hw₂ hr₂).symm

end Sys2Proof.Safety
end

section
/-! PROOFS. A register transaction is the walk of its step table (O48): a row is three turns, the walk goes on where the
row does, and the walk of each table by the statuses gives how READREG and WRITEREG end (O50 to O53). Two READREG on the
reference device, each a run by the device's answers (O57). -/

namespace Sys2Proof.Safety

open Sys2Proof.Machine

/-! ## The walk, row by row -/

section
variable {r : TableRow} {rows : List TableRow} {a : BusAnswer} {answers : List BusAnswer} {s : State}

/-- The outcome of a row that goes on: its body's, at the next row (R143). -/
theorem rowOutcome_goto {k : BitVec 3} (h : rowNext r (primitiveOutcome (rowBody r) a s) = .goto k) :
    rowOutcome r a s = { primitiveOutcome (rowBody r) a s with seq := k } := by
  simp only [rowOutcome, h, applyNext]

/-- Where the row goes on, so does the walk, from the row's outcome. -/
theorem walkTable_goes_on {k : BitVec 3} (h : rowNext r (primitiveOutcome (rowBody r) a s) = .goto k) :
    walkTable (r :: rows) (a :: answers) s =
      ((walkTable rows answers (rowOutcome r a s)).1, (walkTable rows answers (rowOutcome r a s)).2 + 1) := by
  rw [rowOutcome_goto h]
  simp only [walkTable, h]

/-- Where the row ends the command, the walk ends in the row's outcome. -/
theorem walkTable_ends (h : ∀ k, rowNext r (primitiveOutcome (rowBody r) a s) ≠ .goto k) :
    walkTable (r :: rows) (a :: answers) s = (rowOutcome r a s, 1) := by
  cases hn : rowNext r (primitiveOutcome (rowBody r) a s) with
  | goto k => exact absurd hn (h k)
  | finish => simp only [walkTable, rowOutcome, hn, applyNext]
  | fail => simp only [walkTable, rowOutcome, hn, applyNext]
  | failRead => simp only [walkTable, rowOutcome, hn, applyNext]

end

/-- What the body of a row, issued, answered and completed, leaves alone (R161). -/
theorem primitiveOutcome_frame (p : Primitive) (a : BusAnswer) (s : State) :
    (primitiveOutcome p a s).sub = false ∧ (primitiveOutcome p a s).ir = s.ir ∧
      (primitiveOutcome p a s).busy = s.busy ∧ (primitiveOutcome p a s).seq = s.seq ∧
      (primitiveOutcome p a s).en = s.en ∧ (primitiveOutcome p a s).cfg = s.cfg := by
  cases p with
  | start => exact ⟨rfl, rfl, rfl, rfl, rfl, rfl⟩
  | stop => exact ⟨rfl, rfl, rfl, rfl, rfl, rfl⟩
  | tx b => cases h : writeAccepted s.cfg a.status <;> simp [primitiveOutcome, h]
  | rx ack => cases h : readAccepted s.cfg a.status <;> simp [primitiveOutcome, h]

/-- The state with other turns to come and another hidden state of the BUS agent. -/
def withInputs (turns : List Move) (b : BusAgent) (s : State) : State := { s with schedule := turns, bus := b }

/-- The turns to come and the BUS agent's hidden state are no part of what a body does (R39). -/
theorem primitiveOutcome_withInputs (p : Primitive) (a : BusAnswer) (turns : List Move) (b : BusAgent) (s : State) :
    primitiveOutcome p a (withInputs turns b s) = withInputs turns b (primitiveOutcome p a s) := by
  cases p with
  | start => rfl
  | stop => rfl
  | tx byte => cases h : writeAccepted s.cfg a.status <;> simp [primitiveOutcome, withInputs, h]
  | rx ack => cases h : readAccepted s.cfg a.status <;> simp [primitiveOutcome, withInputs, h]

theorem rowOutcome_withInputs (r : TableRow) (a : BusAnswer) (turns : List Move) (b : BusAgent) (s : State) :
    rowOutcome r a (withInputs turns b s) = withInputs turns b (rowOutcome r a s) := by
  simp only [rowOutcome, primitiveOutcome_withInputs]
  exact applyNext_rowNext_inputs r _ turns b

/-! ## The steps of a walk -/

/-- In the command `i`, about to issue the phase of the row it is at. -/
structure Issuing (i : Instr) (s : State) : Prop where
  config : s.cfg.wf = true
  busy : s.busy = true
  command : ∃ w, s.ir = some w ∧ decode w = .ok i
  sub : s.sub = false

section
variable {i : Instr} {r : TableRow} {a : BusAnswer} {s : State}

/-- A row that goes on leaves the command about to issue the phase of the next row (R143, R170). -/
theorem issuing_rowOutcome {k : BitVec 3} (h : Issuing i s)
    (hk : rowNext r (primitiveOutcome (rowBody r) a s) = .goto k) :
    Issuing i (rowOutcome r a s) ∧ (rowOutcome r a s).seq = k := by
  obtain ⟨hwf, hb, hcmd, -⟩ := h
  obtain ⟨hsub, hir, hbusy, -, -, hcfg⟩ := primitiveOutcome_frame (rowBody r) a s
  rw [rowOutcome_goto hk]
  exact ⟨⟨hcfg ▸ hwf, hbusy.trans hb, hir ▸ hcmd, hsub⟩, rfl⟩

/-- The free BUS turn answers the row's phase, and three turns give the row's outcome (R71, R143). -/
theorem run_row_of_issuing (h : Issuing i s) (hr : rowAt i s.seq = some r) (a : BusAnswer) (rest : List Move)
    (b : BusAgent) :
    ∃ b', run 3 (withInputs (phaseTurns a ++ rest) b s) = .next (withInputs rest b' (rowOutcome r a s)) := by
  obtain ⟨hwf, hb, ⟨w, hir, hd⟩, hsub⟩ := h
  have hrow := run_row_free (s := withInputs (phaseTurns a ++ rest) b s) (a := a) hwf hb hir hd hr hsub rfl
  rw [rowOutcome_withInputs] at hrow
  exact ⟨_, hrow⟩

/-- The row a command is at is the first of the rows still to come. -/
theorem rowAt_of_drop {seq : BitVec 3} {rows : List TableRow} (hrows : (stepTable i).drop seq.toNat = r :: rows) :
    rowAt i seq = some r := by
  rw [rowAt_eq_stepTable, ← Nat.add_zero seq.toNat, ← List.getElem?_drop, hrows]
  rfl

/-- Where the row a command is at goes on, the rows after it are the rows still to come (R170). -/
theorem drop_stepTable_goto {seq k : BitVec 3} {rows : List TableRow} {t : State}
    (hrows : (stepTable i).drop seq.toNat = r :: rows) (hk : rowNext r t = .goto k) :
    (stepTable i).drop k.toNat = rows := by
  obtain ⟨rfl, -⟩ := rowAt_goto (rowAt_of_drop hrows) hk
  have hlt : seq.toNat < (stepTable i).length := by
    by_contra hge
    rw [List.drop_eq_nil_of_le (by omega)] at hrows
    cases hrows
  have hle := length_stepTable_le i
  rw [show (seq + 1).toNat = seq.toNat + 1 by bv_omega, ← List.drop_drop, hrows]
  rfl

/-- Three turns for each phase the walk takes lead to where the walk ends (R170). -/
theorem run_walkTable {rows : List TableRow} (h : Issuing i s) (hrows : (stepTable i).drop s.seq.toNat = rows)
    (answers : List BusAnswer) (rest : List Move) (b : BusAgent) :
    ∃ b', run (3 * (walkTable rows answers s).2)
        (withInputs ((answers.take (walkTable rows answers s).2).flatMap phaseTurns ++ rest) b s) =
      .next (withInputs rest b' (walkTable rows answers s).1) := by
  induction rows generalizing answers s b with
  | nil => exact ⟨b, rfl⟩
  | cons r rows ih =>
    cases answers with
    | nil => exact ⟨b, rfl⟩
    | cons a answers =>
      have hr := rowAt_of_drop hrows
      by_cases hk : ∃ k, rowNext r (primitiveOutcome (rowBody r) a s) = .goto k
      · obtain ⟨k, hk⟩ := hk
        obtain ⟨hissuing, hseq⟩ := issuing_rowOutcome h hk
        rw [walkTable_goes_on hk, List.take_succ_cons, List.flatMap_cons, List.append_assoc, Nat.mul_succ, Nat.add_comm]
        obtain ⟨b₁, hrow⟩ := run_row_of_issuing h hr a
          ((answers.take (walkTable rows answers (rowOutcome r a s)).2).flatMap phaseTurns ++ rest) b
        rw [run_add hrow]
        exact ih hissuing (hseq ▸ drop_stepTable_goto hrows hk) answers b₁
      · rw [walkTable_ends (not_exists.1 hk)]
        exact run_row_of_issuing h hr a rest b

/-- A command that uses the bus is about to issue its first phase once HOST has issued it (R14). -/
theorem issuing_latchCommand (hwf : s.cfg.wf = true) : Issuing i (latchCommand (encode i) s) :=
  ⟨hwf, rfl, ⟨_, rfl, decode_encode i⟩, rfl⟩

end

theorem withInputs_self {s : State} {turns : List Move} (h : s.schedule = turns) : withInputs turns s.bus s = s := by
  subst h
  rfl

/-- HOST's issue and three turns for each phase the walk of a command's table takes (R14, R170). -/
theorem run_command {i : Instr} {s : State} (hwf : s.cfg.wf = true) (hb : s.busy = false) (hen : s.en = true)
    (answers : List BusAnswer) (rest : List Move) (b : BusAgent) :
    ∃ b', run (1 + 3 * (walkTable (stepTable i) answers (latchCommand (encode i) s)).2)
        (withInputs
          (commandTurns i (answers.take (walkTable (stepTable i) answers (latchCommand (encode i) s)).2) ++ rest) b s) =
      .next (withInputs rest b' (walkTable (stepTable i) answers (latchCommand (encode i) s)).1) := by
  obtain ⟨b', hwalk⟩ := run_walkTable (i := i) (issuing_latchCommand hwf) rfl answers rest b
  refine ⟨b', ?_⟩
  rw [Nat.add_comm]
  exact (run_next (step_hostIssue (s := withInputs _ b s) hwf hb hen rfl) _).trans hwalk

/-- The table of a register transaction is its step table (R171, R175). -/
theorem tableOf_eq_stepTable {i : Instr} (hi : (∃ ra, i = .readreg ra) ∨ ∃ ra d, i = .writereg ra d) :
    tableOf i = stepTable i := by
  rcases hi with ⟨ra, rfl⟩ | ⟨ra, d, rfl⟩ <;> rfl

/-- Settles O48: the table of a register transaction is walked from HOST's issue. -/
theorem transactionIsTableWalk : Obligations.TransactionIsTableWalk := by
  intro i answers s rest hi hwf hb hen
  rw [tableOf_eq_stepTable hi]
  intro walk hs
  obtain ⟨b, hrun⟩ := run_command hwf hb hen answers rest s.bus
  rw [withInputs_self hs] at hrun
  exact ⟨_, hrun, rfl⟩

/-! ## How a walk ends, by the statuses -/

/-- A phase answered and retired: `STATUS` is the answer's (R12, R71). -/
def answered (a : BusAnswer) (s : State) : State :=
  { s with status := some a.status, phReq := .none, phDone := false, sub := false }

section
variable {rows : List TableRow} {a : BusAnswer} {answers : List BusAnswer} {s x : State} {n : Nat} {k : BitVec 3}
  {good bad : Next} {b : Byte} {ack : Bool}

/-- A walk that goes on is one phase longer than the walk of the rows after it. -/
theorem walk_goes_on {r : TableRow} (hk : rowNext r (primitiveOutcome (rowBody r) a s) = .goto k)
    (h : walkTable rows answers (rowOutcome r a s) = (x, n)) :
    walkTable (r :: rows) (a :: answers) s = (x, n + 1) := by
  rw [walkTable_goes_on hk, h]

theorem walk_start
    (h : walkTable rows answers { answered a s with active := true, phase := .started, seq := k } = (x, n)) :
    walkTable (.always .start (.goto k) :: rows) (a :: answers) s = (x, n + 1) :=
  walk_goes_on rfl h

/-- A byte out whose status is in the write accept set (R151, R178). -/
theorem walk_tx_accepted (hst : InWriteSet s.cfg a.status)
    (h : walkTable rows answers
      { answered a s with data := some b, ok := some true, phase := byteOk s.phase, seq := k } = (x, n)) :
    walkTable (.test (.tx b) (.goto k) bad :: rows) (a :: answers) s = (x, n + 1) := by
  have hacc := writeAccepted_iff.2 hst
  refine walk_goes_on (k := k) (by simp [rowBody, primitiveOutcome, rowNext, hacc]) ?_
  rw [rowOutcome_tx_accepted hacc]
  exact h

/-- A byte out whose status is not: the walk ends where the table does not go on (R151, R178). -/
theorem walk_tx_failed (hst : ¬InWriteSet s.cfg a.status) (hbad : ∀ k, bad ≠ .goto k) :
    walkTable (.test (.tx b) good bad :: rows) (a :: answers) s =
      (applyNext bad { answered a s with data := some b, ok := some false, phase := .error }, 1) := by
  have hrej := mt writeAccepted_iff.1 hst
  have hnext : rowNext (.test (.tx b) good bad) (primitiveOutcome (.tx b) a s) = bad := by
    simp [primitiveOutcome, rowNext, hrej]
  rw [walkTable_ends (fun k hk => hbad k (hnext.symm.trans hk)), rowOutcome, rowBody, hnext]
  simp [primitiveOutcome, answered, hrej]

/-- A byte in whose status is in the read accept set (R156, R178). -/
theorem walk_rx_accepted (hst : InReadSet s.cfg a.status)
    (h : walkTable rows answers
      { answered a s with
        data := some a.data
        acken := some ack
        ok := some true
        rdata := some a.data
        phase := byteOk s.phase
        seq := k } = (x, n)) :
    walkTable (.test (.rx ack) (.goto k) bad :: rows) (a :: answers) s = (x, n + 1) := by
  have hacc := readAccepted_iff.2 hst
  refine walk_goes_on (k := k) (by simp [rowBody, primitiveOutcome, rowNext, hacc]) ?_
  rw [rowOutcome_rx_accepted hacc]
  exact h

/-- A byte in whose status is not, where the table goes on all the same (R171, D11). -/
theorem walk_rx_failed (hst : ¬InReadSet s.cfg a.status)
    (h : walkTable rows answers
      { answered a s with
        data := some a.data
        acken := some ack
        ok := some false
        rdata := none
        phase := .error
        seq := k } = (x, n)) :
    walkTable (.test (.rx ack) good (.goto k) :: rows) (a :: answers) s = (x, n + 1) := by
  have hrej := mt readAccepted_iff.1 hst
  refine walk_goes_on (k := k) (by simp [rowBody, primitiveOutcome, rowNext, hrej]) ?_
  simpa [rowOutcome, rowBody, primitiveOutcome, rowNext, applyNext, answered, hrej] using h

theorem walk_stop :
    walkTable (.always .stop .finish :: rows) (a :: answers) s =
      (finish { answered a s with active := false, phase := .stopped }, 1) :=
  walkTable_ends nofun

end

/-- A command whose walk takes all its answers runs to where the walk ends (R14, R170). -/
theorem run_command_of_walk {i : Instr} {answers : List BusAnswer} {s x : State} {rest : List Move}
    (hwf : s.cfg.wf = true) (hb : s.busy = false) (hen : s.en = true)
    (hs : s.schedule = commandTurns i answers ++ rest)
    (hw : walkTable (stepTable i) answers (latchCommand (encode i) s) = (x, answers.length)) :
    ∃ b, run (1 + 3 * answers.length) s = .next (withInputs rest b x) := by
  have hrun := run_command (i := i) hwf hb hen answers rest s.bus
  rwa [hw, List.take_length, withInputs_self hs] at hrun

/-- Settles O50: the walk of R171's table in which every status is accepted. -/
theorem readregSuccess : Obligations.ReadregSuccess := by
  intro ra d d₀ d₁ d₂ d₃ d₄ d₆ st₀ st₁ st₂ st₃ st₄ st₅ st₆ s rest hwf hb hen h₁ h₂ h₄ h₅ hs
  obtain ⟨b, hrun⟩ := run_command_of_walk hwf hb hen hs
    (walk_start (walk_tx_accepted h₁ (walk_tx_accepted h₂ (walk_start (walk_tx_accepted h₄ (walk_rx_accepted h₅
      walk_stop))))))
  exact ⟨_, hrun, rfl⟩

/-- Settles O52: the walk of R175's table in which every status is accepted. -/
theorem writeregSuccess : Obligations.WriteregSuccess := by
  intro ra d d₀ d₁ d₂ d₃ d₄ st₀ st₁ st₂ st₃ st₄ s rest hwf hb hen h₁ h₂ h₃ hs
  obtain ⟨b, hrun⟩ := run_command_of_walk hwf hb hen hs
    (walk_start (walk_tx_accepted h₁ (walk_tx_accepted h₂ (walk_tx_accepted h₃ walk_stop))))
  exact ⟨_, hrun, rfl⟩

/-- Settles O51: the walks of R171's table to the first byte out that fails, and past a byte in that fails. -/
theorem readregFailurePaths : Obligations.ReadregFailurePaths := by
  intro ra a₀ a₁ a₂ a₃ a₄ a₅ a₆ s rest hwf hb hen
  refine ⟨fun h₁ hs => ?_, fun h₁ h₂ hs => ?_, fun h₁ h₂ h₄ hs => ?_, fun h₁ h₂ h₄ h₅ hs => ?_⟩
  · obtain ⟨b, hrun⟩ := run_command_of_walk hwf hb hen hs (walk_start (walk_tx_failed h₁ nofun))
    exact ⟨_, hrun, rfl, rfl, rfl, rfl, rfl, rfl, rfl⟩
  · obtain ⟨b, hrun⟩ := run_command_of_walk hwf hb hen hs (walk_start (walk_tx_accepted h₁ (walk_tx_failed h₂ nofun)))
    exact ⟨_, hrun, rfl, rfl, rfl, rfl, rfl, rfl, rfl⟩
  · obtain ⟨b, hrun⟩ := run_command_of_walk hwf hb hen hs
      (walk_start (walk_tx_accepted h₁ (walk_tx_accepted h₂ (walk_start (walk_tx_failed h₄ nofun)))))
    exact ⟨_, hrun, rfl, rfl, rfl, rfl, rfl, rfl, rfl⟩
  · obtain ⟨b, hrun⟩ := run_command_of_walk hwf hb hen hs
      (walk_start (walk_tx_accepted h₁ (walk_tx_accepted h₂ (walk_start (walk_tx_accepted h₄ (walk_rx_failed h₅
        walk_stop))))))
    exact ⟨_, hrun, rfl, rfl, rfl, rfl, rfl, rfl, rfl⟩

/-- Settles O53: the walks of R175's table to the first byte out that fails. -/
theorem writeregFailurePaths : Obligations.WriteregFailurePaths := by
  intro ra d a₀ a₁ a₂ a₃ s rest hwf hb hen
  refine ⟨fun h₁ hs => ?_, fun h₁ h₂ hs => ?_, fun h₁ h₂ h₃ hs => ?_⟩
  · obtain ⟨b, hrun⟩ := run_command_of_walk hwf hb hen hs (walk_start (walk_tx_failed h₁ nofun))
    exact ⟨_, hrun, rfl, rfl, rfl, rfl, rfl, rfl, rfl⟩
  · obtain ⟨b, hrun⟩ := run_command_of_walk hwf hb hen hs (walk_start (walk_tx_accepted h₁ (walk_tx_failed h₂ nofun)))
    exact ⟨_, hrun, rfl, rfl, rfl, rfl, rfl, rfl, rfl⟩
  · obtain ⟨b, hrun⟩ := run_command_of_walk hwf hb hen hs
      (walk_start (walk_tx_accepted h₁ (walk_tx_accepted h₂ (walk_tx_failed h₃ nofun))))
    exact ⟨_, hrun, rfl, rfl, rfl, rfl, rfl, rfl, rfl⟩

/-! ## Reads of the reference device -/

/-- Settles O57: each READREG gives the register's byte and leaves the device as the next one needs it. -/
theorem deviceReadsAreIdempotent : Obligations.DeviceReadsAreIdempotent := by
  intro ra s rest hwf hb hen hp hn hs
  obtain ⟨t, ht, hrest, hok, hrdata, -⟩ := runsTo_readreg hwf ⟨rfl, hb, hen, rfl, hs⟩ hp hn
  obtain ⟨u, hu, hrest', hok', hrdata', -⟩ := runsTo_readreg hwf hrest hp hn
  exact ⟨t, u, ht, hu, hok, hok', hrdata, hrdata'.trans hrdata.symm, by rw [hrest'.device]⟩

end Sys2Proof.Safety
end

section
/-! PROOFS. A register transaction ends as the primitive commands its table's bodies stand for (O55, R180): the walk of the
table and the sequence of commands do the same bodies on the same answers, and differ in what a failure adds. -/

namespace Sys2Proof.Safety

open Sys2Proof.Machine

/-! ## Bodies one after the other -/

/-- The bodies `ps`, each issued, answered and completed in turn (R161). -/
def primitivesOutcome (ps : List Primitive) (answers : List BusAnswer) (s : State) : State :=
  match ps, answers with
  | p :: ps, a :: answers => primitivesOutcome ps answers (primitiveOutcome p a s)
  | _, _ => s

/-- The block at rest after a command, with `ir` in `IR` (R12, R22). -/
def afterCommand (ir : Option Command) (s : State) : State := { finish s with ir := ir }

theorem finish_eq_afterCommand {ir : Option Command} {s : State} (h : s.ir = ir) : finish s = afterCommand ir s := by
  subst h
  rfl

/-- A body neither reads the command nor moves the sequencer. -/
theorem primitiveOutcome_afterCommand (p : Primitive) (a : BusAnswer) (ir : Option Command) (s : State) :
    primitiveOutcome p a (afterCommand ir s) = afterCommand ir (primitiveOutcome p a s) := by
  cases p with
  | start => rfl
  | stop => rfl
  | tx b => cases h : writeAccepted s.cfg a.status <;> simp [primitiveOutcome, afterCommand, finish, h]
  | rx ack => cases h : readAccepted s.cfg a.status <;> simp [primitiveOutcome, afterCommand, finish, h]

theorem primitivesOutcome_afterCommand (ps : List Primitive) (answers : List BusAnswer) (ir : Option Command)
    (s : State) :
    primitivesOutcome ps answers (afterCommand ir s) = afterCommand ir (primitivesOutcome ps answers s) := by
  induction ps generalizing answers s with
  | nil => rfl
  | cons p ps ih =>
    cases answers with
    | nil => rfl
    | cons a answers => rw [primitivesOutcome, primitiveOutcome_afterCommand, ih, primitivesOutcome]

/-- States that differ only in the command and the sequencer are alike after the same bodies. -/
theorem afterCommand_primitivesOutcome {ir : Option Command} {s t : State} (h : afterCommand ir s = afterCommand ir t)
    (ps : List Primitive) (answers : List BusAnswer) :
    afterCommand ir (primitivesOutcome ps answers s) = afterCommand ir (primitivesOutcome ps answers t) := by
  rw [← primitivesOutcome_afterCommand, h, primitivesOutcome_afterCommand]

theorem afterCommand_primitivesOutcome_latchCommand (ps : List Primitive) (answers : List BusAnswer) (w : Command)
    (s : State) :
    afterCommand (some w) (primitivesOutcome ps answers (latchCommand w s)) =
      afterCommand (some w) (primitivesOutcome ps answers s) :=
  afterCommand_primitivesOutcome (s := latchCommand w s) (t := s) rfl ps answers

/-- After a byte that failed, `fail` writes no result anew (R227). -/
theorem fail_afterCommand {ir : Option Command} {s : State} (hok : s.ok = some false) (hphase : s.phase = .error) :
    fail (afterCommand ir s) = afterCommand ir s := by
  simp only [fail, afterCommand, finish, hok, hphase]

/-- After a byte that failed, `failRead` takes the result away and writes nothing else anew (R171, R227). -/
theorem failRead_afterCommand {ir : Option Command} {s : State} (hok : s.ok = some false)
    (hphase : s.phase = .error) : failRead (afterCommand ir s) = { afterCommand ir s with rdata := none } := by
  simp only [failRead, fail, afterCommand, finish, hok, hphase]

/-! ## The walk of a table as its bodies -/

/-- On every answer the row goes on, or continues with `bad` after a byte that failed. -/
def GoesOnUnlessFailed (bad : Next) (r : TableRow) : Prop :=
  ∀ (a : BusAnswer) (s : State),
    (∃ k, rowNext r (primitiveOutcome (rowBody r) a s) = .goto k) ∨
    (rowNext r (primitiveOutcome (rowBody r) a s) = bad ∧ (primitiveOutcome (rowBody r) a s).ok = some false ∧
      (primitiveOutcome (rowBody r) a s).phase = .error)

theorem goesOnUnlessFailed_start (bad : Next) (k : BitVec 3) : GoesOnUnlessFailed bad (.always .start (.goto k)) :=
  fun _ _ => .inl ⟨k, rfl⟩

theorem goesOnUnlessFailed_tx (bad : Next) (b : Byte) (k : BitVec 3) :
    GoesOnUnlessFailed bad (.test (.tx b) (.goto k) bad) := fun a s => by
  cases h : writeAccepted s.cfg a.status <;> simp [rowNext, rowBody, primitiveOutcome, h]

theorem goesOnUnlessFailed_rx (bad : Next) (ack : Bool) (k : BitVec 3) :
    GoesOnUnlessFailed bad (.test (.rx ack) (.goto k) (.goto k)) := fun _ _ => .inl ⟨k, by simp [rowNext]⟩

/-- What ends a command leaves the sequencer at rest, wherever it was (R12). -/
theorem applyNext_afterCommand {n : Next} (hn : ∀ k, n ≠ .goto k) (s : State) :
    applyNext n (afterCommand s.ir s) = applyNext n s := by
  cases n with
  | goto k => exact absurd rfl (hn k)
  | finish => rfl
  | fail => rfl
  | failRead => rfl

/-- The last row of both tables (R171, R175). -/
def stopRow : TableRow := .always .stop .finish

/-- With an answer for every row, the walk of rows that go on unless a byte fails, and then a stop, does the bodies of the
rows it takes: all of them, or those up to the failure, to which `bad` is then added. -/
theorem walkTable_as_primitives {bad : Next} (hbad : ∀ k, bad ≠ .goto k) {rows : List TableRow}
    (hrows : ∀ r ∈ rows, GoesOnUnlessFailed bad r) {answers : List BusAnswer}
    (hlen : answers.length = rows.length + 1) (s : State) :
    ∃ n y, y = afterCommand s.ir
        (primitivesOutcome (((rows ++ [stopRow]).map rowBody).take n) (answers.take n) s) ∧ n ≠ 0 ∧
      ((n = rows.length + 1 ∧ walkTable (rows ++ [stopRow]) answers s = (y, n)) ∨
        (n ≤ rows.length ∧ walkTable (rows ++ [stopRow]) answers s = (applyNext bad y, n) ∧
          y.ok = some false ∧ y.phase = .error)) := by
  induction rows generalizing answers s with
  | nil =>
    obtain ⟨a, rfl⟩ := List.length_eq_one_iff.1 hlen
    exact ⟨1, _, rfl, nofun, .inl ⟨rfl, walkTable_ends (r := stopRow) fun _ h => nomatch h⟩⟩
  | cons r rows ih =>
    obtain ⟨a, answers, rfl⟩ := List.exists_cons_of_length_eq_add_one hlen
    obtain ⟨-, hir, -⟩ := primitiveOutcome_frame (rowBody r) a s
    rcases hrows r List.mem_cons_self a s with ⟨k, hk⟩ | ⟨hnext, hok, hphase⟩
    · obtain ⟨n, y, hy, -, hwalk⟩ := ih (fun q hq => hrows q (List.mem_cons_of_mem r hq)) (by simpa using hlen)
        (rowOutcome r a s)
      obtain ⟨hir', halike⟩ : (rowOutcome r a s).ir = s.ir ∧ ∀ ir, afterCommand ir (rowOutcome r a s) =
          afterCommand ir (primitiveOutcome (rowBody r) a s) := by
        rw [rowOutcome_goto hk]
        exact ⟨hir, fun _ => rfl⟩
      have hy' : y = afterCommand s.ir (primitivesOutcome (((rows ++ [stopRow]).map rowBody).take n) (answers.take n)
          (primitiveOutcome (rowBody r) a s)) := by
        rw [hy, hir']
        exact afterCommand_primitivesOutcome (halike _) _ _
      refine ⟨n + 1, y, hy', nofun, ?_⟩
      rcases hwalk with ⟨hn, hwalk⟩ | ⟨hn, hwalk, hfailed⟩
      · exact .inl ⟨by simp [hn], walk_goes_on hk hwalk⟩
      · exact .inr ⟨by simp [hn], walk_goes_on hk hwalk, hfailed⟩
    · have hwalk := walkTable_ends (rows := rows ++ [stopRow]) (answers := answers)
        (fun k h => hbad k (hnext.symm.trans h))
      rw [rowOutcome, hnext, ← applyNext_afterCommand hbad, hir] at hwalk
      exact ⟨1, _, rfl, nofun, .inr ⟨by simp, hwalk, hok, hphase⟩⟩

/-! ## The sequence of primitive commands -/

/-- The primitive command of a body (R143). -/
def commandOf (p : Primitive) : Instr :=
  match p with
  | .start => .start
  | .stop => .stop
  | .tx b => .writebyte b
  | .rx a => .readbyte a

theorem stepTable_commandOf (p : Primitive) : stepTable (commandOf p) = [.always p .finish] := by
  cases p <;> rfl

/-- A primitive command does its body (R161). -/
theorem run_primitive (p : Primitive) (a : BusAnswer) {s : State} (hwf : s.cfg.wf = true) (hb : s.busy = false)
    (hen : s.en = true) (rest : List Move) (b : BusAgent) :
    ∃ b' ir, run 4 (withInputs (commandTurns (commandOf p) [a] ++ rest) b s) =
      .next (withInputs rest b' (afterCommand ir (primitiveOutcome p a s))) := by
  have hwalk : walkTable (stepTable (commandOf p)) [a] (latchCommand (encode (commandOf p)) s) =
      (afterCommand (some (encode (commandOf p))) (primitiveOutcome p a s), 1) := by
    obtain ⟨-, hir, -⟩ := primitiveOutcome_frame p a (latchCommand (encode (commandOf p)) s)
    rw [stepTable_commandOf, walkTable_ends (r := .always p .finish) fun _ h => nomatch h]
    exact congrArg (·, 1) ((finish_eq_afterCommand hir).trans
      (afterCommand_primitivesOutcome_latchCommand [p] [a] _ s))
  obtain ⟨b', hrun⟩ := run_command (i := commandOf p) hwf hb hen [a] rest b
  rw [hwalk] at hrun
  exact ⟨b', _, hrun⟩

/-- Primitive commands one after the other do their bodies one after the other. -/
theorem run_primitives {ps : List Primitive} (hps : ps ≠ []) {answers : List BusAnswer}
    (hlen : ps.length = answers.length) {s : State} (hwf : s.cfg.wf = true) (hb : s.busy = false) (hen : s.en = true)
    (b : BusAgent) :
    ∃ b' ir, run (4 * ps.length) (withInputs (sequenceTurns (ps.map commandOf) answers) b s) =
      .next (withInputs [] b' (afterCommand ir (primitivesOutcome ps answers s))) := by
  induction ps generalizing answers s b with
  | nil => exact absurd rfl hps
  | cons p ps ih =>
    obtain ⟨a, answers, rfl⟩ := List.exists_cons_of_length_eq_add_one hlen.symm
    obtain ⟨b₁, ir₁, hfirst⟩ := run_primitive p a hwf hb hen (sequenceTurns (ps.map commandOf) answers) b
    cases ps with
    | nil => exact ⟨b₁, ir₁, hfirst⟩
    | cons q ps =>
      obtain ⟨-, -, -, -, hen', hcfg⟩ := primitiveOutcome_frame p a s
      obtain ⟨b₂, ir₂, hothers⟩ := ih (List.cons_ne_nil q ps) (by simpa using hlen)
        (s := afterCommand ir₁ (primitiveOutcome p a s)) (hcfg ▸ hwf) rfl (hen'.trans hen) b₁
      refine ⟨b₂, ir₂, ?_⟩
      rw [primitivesOutcome_afterCommand] at hothers
      rw [List.length_cons, Nat.mul_succ, Nat.add_comm]
      exact (run_add hfirst _).trans hothers

/-! ## The transactions -/

/-- A register transaction and the primitive commands of its table's bodies, on the answers its walk takes: both do the
same bodies, and where a byte failed the transaction adds `bad` (R180). -/
theorem run_transaction_and_primitives {i : Instr} {rows : List TableRow} {bad : Next}
    (hi : stepTable i = rows ++ [stopRow]) (hrows : ∀ r ∈ rows, GoesOnUnlessFailed bad r) (hbad : ∀ k, bad ≠ .goto k)
    {answers : List BusAnswer} (hlen : answers.length = rows.length + 1) {s : State} (hwf : s.cfg.wf = true)
    (hb : s.busy = false) (hen : s.en = true) {n : Nat}
    (hn : (walkTable (stepTable i) answers (latchCommand (encode i) s)).2 = n) :
    ∃ x z ir ir' b b',
      run (1 + 3 * n) { s with schedule := commandTurns i (answers.take n) } = .next (withInputs [] b x) ∧
      run (4 * n)
          { s with
            schedule := sequenceTurns ((((stepTable i).map rowBody).map commandOf).take n) (answers.take n) } =
        .next (withInputs [] b' (afterCommand ir' z)) ∧
      ((n = rows.length + 1 ∧ x = afterCommand ir z) ∨
        (n ≤ rows.length ∧ x = applyNext bad (afterCommand ir z) ∧ z.ok = some false ∧ z.phase = .error)) := by
  obtain ⟨m, y, hy, hm, hwalk⟩ := walkTable_as_primitives hbad hrows hlen (latchCommand (encode i) s)
  rw [← hi] at hy hwalk
  obtain ⟨x, hx, hmle⟩ : ∃ x, walkTable (stepTable i) answers (latchCommand (encode i) s) = (x, m) ∧
      m ≤ rows.length + 1 := by
    rcases hwalk with ⟨hm, hx⟩ | ⟨hm, hx, -⟩
    · exact ⟨_, hx, hm.le⟩
    · exact ⟨_, hx, hm.trans (Nat.le_succ _)⟩
  obtain rfl : m = n := by rw [← hn, hx]
  have hy' : y = afterCommand (some (encode i))
      (primitivesOutcome (((stepTable i).map rowBody).take m) (answers.take m) s) :=
    hy.trans (afterCommand_primitivesOutcome_latchCommand _ _ _ s)
  have hps : (((stepTable i).map rowBody).take m).length = m := by simpa [hi] using hmle
  obtain ⟨b, hrun⟩ := run_command (i := i) hwf hb hen answers [] s.bus
  obtain ⟨b', ir', hprimitives⟩ := run_primitives (ps := ((stepTable i).map rowBody).take m)
    (List.ne_nil_of_length_pos (by omega)) (answers := answers.take m) (by rw [hps, List.length_take]; omega) hwf hb hen
    s.bus
  rw [hx, List.append_nil] at hrun
  rw [hps, List.map_take] at hprimitives
  refine ⟨x, _, some (encode i), ir', b, b', hrun, hprimitives, ?_⟩
  simp only [hx, hy', Prod.mk.injEq, and_true] at hwalk
  exact hwalk

theorem goesOnUnlessFailed_readreg (ra : Byte) :
    ∀ r ∈ (readregTable ra).dropLast, GoesOnUnlessFailed .failRead r := by
  simp [readregTable, goesOnUnlessFailed_start, goesOnUnlessFailed_tx, goesOnUnlessFailed_rx]

theorem goesOnUnlessFailed_writereg (ra d : Byte) :
    ∀ r ∈ (writeregTable ra d).dropLast, GoesOnUnlessFailed .fail r := by
  simp [writeregTable, goesOnUnlessFailed_start, goesOnUnlessFailed_tx]

/-- Settles O55: the same bodies on both sides; of what the transactions' failures add, only `RDATA` is new, and only
for READREG. -/
theorem transactionsAreTheirPrimitives : Obligations.TransactionsAreTheirPrimitives := by
  refine ⟨fun ra answers s hwf hb hen hlen => ?_, fun ra d answers s hwf hb hen hlen => ?_⟩
  · intro n
    obtain ⟨x, z, ir, ir', b, b', ht, hu, hcases⟩ := run_transaction_and_primitives (i := .readreg ra) rfl
      (goesOnUnlessFailed_readreg ra) nofun hlen hwf hb hen (n := n) rfl
    refine ⟨_, _, ht, hu, ?_⟩
    rcases hcases with ⟨hn, rfl⟩ | ⟨hn, rfl, hok, hphase⟩
    · have hn : n = 7 := hn
      rw [if_pos hn]
      rfl
    · have hn : n ≤ 6 := hn
      rw [if_neg (by omega), applyNext, failRead_afterCommand hok hphase]
      rfl
  · intro n
    obtain ⟨x, z, ir, ir', b, b', ht, hu, hcases⟩ := run_transaction_and_primitives (i := .writereg ra d) rfl
      (goesOnUnlessFailed_writereg ra d) nofun hlen hwf hb hen (n := n) rfl
    refine ⟨_, _, ht, hu, ?_⟩
    rcases hcases with ⟨-, rfl⟩ | ⟨-, rfl, hok, hphase⟩
    · rfl
    · rw [applyNext, fail_afterCommand hok hphase]
      rfl

end Sys2Proof.Safety
end

section
/-! PROOFS. The companion codec of the device's time registers: a BCD byte as its two digits (R191, R196), the hours
register in both conventions (R194, R195), and a ClockValue field by field (R190, R198, R199). -/

namespace Sys2Proof.Machine

/-! ## A byte of two digits -/

theorem bcdDec_eq (v : Byte) (w : Nat) : bcdDec v w = v.toNat / 16 % 2 ^ w * 10 + v.toNat % 16 := by
  simp [bcdDec, Nat.shiftRight_eq_div_pow]

/-- The bits above the tens digit of a field do not matter. -/
theorem bcdDec_of_digits {v : Byte} {w k n : Nat} (hn : n / 10 < 2 ^ w)
    (hv : v.toNat = (2 ^ w * k + n / 10) * 16 + n % 10) : bcdDec v w = n := by
  have htens : v.toNat / 16 = 2 ^ w * k + n / 10 := by omega
  have hones : v.toNat % 16 = n % 10 := by omega
  rw [bcdDec_eq, htens, hones, Nat.mul_add_mod, Nat.mod_eq_of_lt hn]
  omega

/-- The nibbles of an encoded number do not overlap, so their `|||` is a sum. -/
theorem bcdEnc_toNat {n : Nat} (hn : n < 100) : (bcdEnc n).toNat = n / 10 * 16 + n % 10 := by
  have htens : (BitVec.ofNat 8 (n / 10) <<< 4).toNat = (n / 10) <<< 4 := by
    rw [BitVec.toNat_shiftLeft, BitVec.toNat_ofNat, Nat.shiftLeft_eq, Nat.shiftLeft_eq]
    omega
  have hones : (BitVec.ofNat 8 (n % 10)).toNat = n % 10 := by
    rw [BitVec.toNat_ofNat]
    omega
  rw [bcdEnc, BitVec.toNat_or, htens, hones, ← Nat.shiftLeft_add_eq_or_of_lt (by omega), Nat.shiftLeft_eq]

theorem bcdDec_bcdEnc {w n : Nat} (hn : n < 100) (hw : n / 10 < 2 ^ w) : bcdDec (bcdEnc n) w = n :=
  bcdDec_of_digits (k := 0) hw (by rw [bcdEnc_toNat hn, Nat.mul_zero, Nat.zero_add])

/-! ## The plain fields and the year -/

theorem encodeField_eq_some_iff {lo hi n : Nat} {v : Byte} :
    encodeField lo hi n = some v ↔ (lo ≤ n ∧ n ≤ hi ∧ n < 100) ∧ v = bcdEnc n := by
  simp [encodeField, eq_comm]

theorem encodeField_of_hundred_le (lo hi : Nat) {n : Nat} (hn : 100 ≤ n) : encodeField lo hi n = none :=
  if_neg (by omega)

theorem yearDecode_eq (v : Byte) : yearDecode v = 2000 + bcdDec v 4 := rfl

theorem yearEncode_eq_some_iff {y : Nat} {v : Byte} :
    yearEncode y = some v ↔ (2000 ≤ y ∧ y ≤ 2099) ∧ v = bcdEnc (y - 2000) := by
  have hbase : baseYear = 2000 := rfl
  simp only [yearEncode, Option.ite_none_right_eq_some, encodeField_eq_some_iff, ← and_assoc]
  rw [hbase]
  exact and_congr_left fun _ => by omega

theorem yearEncode_eq_none {y : Nat} (hy : y < 2000 ∨ 2099 < y) : yearEncode y = none := by
  refine Option.eq_none_iff_forall_ne_some.2 fun v hv => ?_
  obtain ⟨hrange, -⟩ := yearEncode_eq_some_iff.1 hv
  omega

/-! ## The hours register -/

theorem hoursDecode_of_twelveHour {v : Byte} (hv : v.getLsbD 6 = true) :
    hoursDecode v = ⟨bcdDec v 1, v.getLsbD 5, true⟩ := if_pos hv

theorem hoursDecode_of_twentyFourHour {v : Byte} (hv : v.getLsbD 6 = false) :
    hoursDecode v = ⟨bcdDec v 2, false, false⟩ := if_neg (ne_true_of_eq_false hv)

theorem hoursEncode_eq_none {hour : Nat} {pm h12 : Bool} (hh : maxHour h12 < hour) :
    hoursEncode ⟨hour, pm, h12⟩ = none := if_neg hh.not_ge

theorem hour_le_of_hoursEncode_eq_some {hour : Nat} {pm h12 : Bool} {v : Byte}
    (hv : hoursEncode ⟨hour, pm, h12⟩ = some v) : hour ≤ maxHour h12 := by
  by_contra hlt
  rw [hoursEncode_eq_none (Nat.lt_of_not_le hlt)] at hv
  cases hv

theorem hoursEncode_twentyFourHour {hour : Nat} (pm : Bool) (hh : hour ≤ 23) :
    hoursEncode ⟨hour, pm, false⟩ = some (bcdEnc hour) := if_pos hh

/-- The mode bit, the PM bit and the digits of an hour up to 12 do not overlap. -/
theorem hoursEncode_twelveHour {hour : Nat} (pm : Bool) (hh : hour ≤ 12) :
    ∃ v, hoursEncode ⟨hour, pm, true⟩ = some v ∧
      v.toNat = 64 + (if pm then 32 else 0) + hour / 10 * 16 + hour % 10 := by
  refine ⟨0x40#8 ||| ((if pm then 1 else 0 : Byte) <<< 5) ||| bcdEnc hour, if_pos hh, ?_⟩
  have hflags : (0x40#8 ||| ((if pm then 1 else 0 : Byte) <<< 5)).toNat = (2 + if pm then 1 else 0) <<< 5 := by
    cases pm <;> decide
  rw [BitVec.toNat_or, hflags, bcdEnc_toNat (by omega), ← Nat.shiftLeft_add_eq_or_of_lt (by omega),
    Nat.shiftLeft_eq]
  split <;> omega

theorem getLsbD_eq_decide (v : Byte) (i : Nat) : v.getLsbD i = decide (v.toNat / 2 ^ i % 2 = 1) :=
  Nat.testBit_eq_decide_div_mod_eq

theorem hoursDecode_of_hoursEncode_twelveHour {hour : Nat} {pm : Bool} {v : Byte}
    (hv : hoursEncode ⟨hour, pm, true⟩ = some v) : hoursDecode v = ⟨hour, pm, true⟩ := by
  have hle : hour ≤ 12 := hour_le_of_hoursEncode_eq_some hv
  obtain ⟨u, hu, hbits⟩ := hoursEncode_twelveHour pm hle
  obtain rfl : u = v := Option.some.inj (hu.symm.trans hv)
  have hdigits : hour / 10 * 16 + hour % 10 < 32 := by omega
  have hmode : u.getLsbD 6 = true := by
    rw [getLsbD_eq_decide, hbits]
    cases pm <;> simp <;> omega
  have hpm : u.getLsbD 5 = pm := by
    rw [getLsbD_eq_decide, hbits]
    cases pm <;> simp <;> omega
  have hhour : bcdDec u 1 = hour :=
    bcdDec_of_digits (k := 2 + if pm then 1 else 0) (by omega) (by rw [hbits]; split <;> omega)
  rw [hoursDecode_of_twelveHour hmode, hhour, hpm]

/-- In 24-hour mode the PM flag is lost, as R190's equality allows. -/
theorem hoursDecode_of_hoursEncode_twentyFourHour {hour : Nat} {pm : Bool} {v : Byte}
    (hv : hoursEncode ⟨hour, pm, false⟩ = some v) : hoursDecode v = ⟨hour, false, false⟩ := by
  have hle : hour ≤ 23 := hour_le_of_hoursEncode_eq_some hv
  obtain rfl : bcdEnc hour = v := Option.some.inj ((hoursEncode_twentyFourHour pm hle).symm.trans hv)
  have hmode : (bcdEnc hour).getLsbD 6 = false := by
    rw [← BitVec.testBit_toNat, bcdEnc_toNat (by omega)]
    exact Nat.testBit_lt_two_pow (by omega)
  rw [hoursDecode_of_twentyFourHour hmode, bcdDec_bcdEnc (by omega) (by omega)]

/-! ## A ClockValue -/

theorem clockInDomain_iff {c : ClockValue} :
    clockInDomain c = true ↔
      (2000 ≤ c.year ∧ c.year ≤ 2099) ∧ (1 ≤ c.month ∧ c.month ≤ 12) ∧ (1 ≤ c.day ∧ c.day ≤ 31) ∧
        c.hour ≤ maxHour c.h12 ∧ c.minute ≤ 59 ∧ c.second ≤ 59 := by
  have hbase : baseYear = 2000 := rfl
  simp only [clockInDomain, Bool.and_eq_true, decide_eq_true_eq, and_assoc, hbase]

/-- Decoding rejects nothing: each field takes its own tens bits and ignores the bits above them. -/
theorem decodeClock_fields (r0 r1 r2 r3 r4 r5 r6 : Byte) :
    let c := decodeClock r0 r1 r2 r3 r4 r5 r6
    c.second = r0.toNat / 16 % 8 * 10 + r0.toNat % 16 ∧ c.minute = r1.toNat / 16 % 8 * 10 + r1.toNat % 16 ∧
      c.day = r4.toNat / 16 % 4 * 10 + r4.toNat % 16 ∧ c.month = r5.toNat / 16 % 2 * 10 + r5.toNat % 16 ∧
      c.year = 2000 + (r6.toNat / 16 * 10 + r6.toNat % 16) := by
  refine ⟨bcdDec_eq r0 3, bcdDec_eq r1 3, bcdDec_eq r4 2, bcdDec_eq r5 1, ?_⟩
  have htens : r6.toNat / 16 % 2 ^ 4 = r6.toNat / 16 := by omega
  exact congrArg (2000 + ·) ((bcdDec_eq r6 4).trans (by rw [htens]))

/-- A ClockValue is encoded field by field, and just in the domain. -/
theorem encodeClock_eq_some_iff {c : ClockValue} {b : ClockBytes} :
    encodeClock c = some b ↔
      clockInDomain c = true ∧ hoursEncode ⟨c.hour, c.pm, c.h12⟩ = some b.r2 ∧ b.r0 = bcdEnc c.second ∧
        b.r1 = bcdEnc c.minute ∧ b.r4 = bcdEnc c.day ∧ b.r5 = bcdEnc c.month ∧ b.r6 = bcdEnc (c.year - 2000) := by
  have hfields : encodeClock c = some b ↔
      encodeField 0 59 c.second = some b.r0 ∧ encodeField 0 59 c.minute = some b.r1 ∧
        hoursEncode ⟨c.hour, c.pm, c.h12⟩ = some b.r2 ∧ encodeField 1 31 c.day = some b.r4 ∧
        encodeField 1 12 c.month = some b.r5 ∧ yearEncode c.year = some b.r6 := by
    obtain ⟨r0, r1, r2, r4, r5, r6⟩ := b
    simp [encodeClock, Option.bind_eq_some_iff]
  rw [hfields, clockInDomain_iff]
  simp only [encodeField_eq_some_iff, yearEncode_eq_some_iff]
  constructor
  · rintro ⟨⟨hsec, h0⟩, ⟨hmin, h1⟩, h2, ⟨hday, h4⟩, ⟨hmonth, h5⟩, hyear, h6⟩
    exact ⟨⟨hyear, by omega, by omega, hour_le_of_hoursEncode_eq_some h2, by omega, by omega⟩, h2, h0, h1, h4, h5, h6⟩
  · rintro ⟨⟨hyear, hmonth, hday, -, hmin, hsec⟩, h2, h0, h1, h4, h5, h6⟩
    exact ⟨⟨by omega, h0⟩, ⟨by omega, h1⟩, h2, ⟨by omega, h4⟩, ⟨by omega, h5⟩, hyear, h6⟩

theorem exists_encodeClock_of_clockInDomain {c : ClockValue} (hc : clockInDomain c = true) :
    ∃ b, encodeClock c = some b := by
  obtain ⟨-, -, -, hhour, -, -⟩ := clockInDomain_iff.1 hc
  exact ⟨⟨_, _, _, _, _, _⟩, encodeClock_eq_some_iff.2 ⟨hc, if_pos hhour, rfl, rfl, rfl, rfl, rfl⟩⟩

theorem encodeClock_eq_none {c : ClockValue} (hc : ¬clockInDomain c = true) : encodeClock c = none :=
  Option.eq_none_iff_forall_ne_some.2 fun _ hb => hc (encodeClock_eq_some_iff.1 hb).1

theorem clockEq_decodeClock_of_encodeClock {c : ClockValue} {b : ClockBytes} (hb : encodeClock c = some b)
    (r3 : Byte) : clockEq (decodeClock b.r0 b.r1 b.r2 r3 b.r4 b.r5 b.r6) c = true := by
  obtain ⟨hc, h2, h0, h1, h4, h5, h6⟩ := encodeClock_eq_some_iff.1 hb
  obtain ⟨hyear, hmonth, hday, -, hmin, hsec⟩ := clockInDomain_iff.1 hc
  have hhours : hoursDecode b.r2 = ⟨c.hour, c.h12 && c.pm, c.h12⟩ := by
    cases hh : c.h12 <;> rw [hh] at h2
    · exact hoursDecode_of_hoursEncode_twentyFourHour h2
    · exact hoursDecode_of_hoursEncode_twelveHour h2
  have hdecode : decodeClock b.r0 b.r1 b.r2 r3 b.r4 b.r5 b.r6 = { c with pm := c.h12 && c.pm } := by
    rw [decodeClock, h0, h1, h4, h5, h6, hhours, yearDecode_eq, secondsTens, minutesTens, dayTens, monthTens,
      bcdDec_bcdEnc (n := c.second), bcdDec_bcdEnc (n := c.minute), bcdDec_bcdEnc (n := c.day),
      bcdDec_bcdEnc (n := c.month), bcdDec_bcdEnc (n := c.year - 2000), Nat.add_sub_cancel' hyear.1] <;> omega
  rw [hdecode]
  cases hh : c.h12 <;> simp [clockEq, hh]

/-! ## The codec -/

/-- Settles O58: the domain is what the codec encodes, and each field decodes what it encodes. -/
theorem clockCodecRoundTrip : Obligations.ClockCodecRoundTrip := by
  intro c hc
  obtain ⟨b, hb⟩ := exists_encodeClock_of_clockInDomain hc
  exact ⟨b, hb, clockEq_decodeClock_of_encodeClock hb⟩

/-- Settles O59: the digits of each field's byte, and no encoding outside the domain. -/
theorem bcdFields : Obligations.BcdFields := by
  refine ⟨bcdDec_eq, decodeClock_fields, fun _ => bcdEnc_toNat, fun lo hi _ => encodeField_of_hundred_le lo hi, ?_, ?_⟩
  · intro c hsec hmin hday hday' hmonth hmonth' hyear hyear' hhour
    obtain ⟨b, hb⟩ := exists_encodeClock_of_clockInDomain
      (clockInDomain_iff.2 ⟨⟨hyear, hyear'⟩, ⟨hmonth, hmonth'⟩, ⟨hday, hday'⟩, hhour, hmin, hsec⟩)
    obtain ⟨-, -, h0, h1, h4, h5, h6⟩ := encodeClock_eq_some_iff.1 hb
    have hclockHalt : b.r0.getLsbD 7 = false := by
      rw [← BitVec.testBit_toNat, h0, bcdEnc_toNat (by omega)]
      exact Nat.testBit_lt_two_pow (by omega)
    exact ⟨b, hb, h0 ▸ bcdEnc_toNat (by omega), hclockHalt, h1 ▸ bcdEnc_toNat (by omega), h4 ▸ bcdEnc_toNat (by omega),
      h5 ▸ bcdEnc_toNat (by omega), h6 ▸ bcdEnc_toNat (by omega)⟩
  · intro c hout
    refine encodeClock_eq_none fun hc => ?_
    obtain ⟨hyear, hmonth, hday, hhour, hmin, hsec⟩ := clockInDomain_iff.1 hc
    rw [maxHour] at hhour
    omega

/-- Settles O60: the year's offset, and the hours register in its two conventions. -/
theorem hoursAndYearFields : Obligations.HoursAndYearFields := by
  refine ⟨yearDecode_eq, fun y => ⟨?_, yearEncode_eq_none⟩, fun v => ⟨?_, ?_⟩, fun hour pm =>
    ⟨hoursEncode_twelveHour pm, hoursEncode_eq_none (h12 := true), ?_, hoursEncode_eq_none (h12 := false)⟩⟩
  · exact fun hlo hhi => yearEncode_eq_some_iff.2 ⟨⟨hlo, hhi⟩, rfl⟩
  · intro hmode
    rw [hoursDecode_of_twelveHour hmode, bcdDec_eq, Nat.pow_one]
  · intro hmode
    rw [hoursDecode_of_twentyFourHour hmode, bcdDec_eq]
    rfl
  · exact fun hle => ⟨_, hoursEncode_twentyFourHour pm hle, bcdEnc_toNat (by omega)⟩

end Sys2Proof.Machine
end

section
/-! PROOFS. How a command ends or hangs. A walk whose last row is the stop ends within its table with a result once a byte
has been moved (O49, R220); without a BUS step for the phase every turn of ENGINE and every poll by HOST passes (O54,
R226). -/

namespace Sys2Proof.Safety

open Sys2Proof.Machine

/-! ## The end of an answered transaction -/

/-- A command has ended, with a result in `OK` (R12, R220). -/
structure EndedWithResult (s : State) : Prop where
  busy : s.busy = false
  seq : s.seq = 0
  sub : s.sub = false
  phReq : s.phReq = .none
  result : s.ok ≠ none

/-- A walk, as its end and its number of phases, takes a phase, takes no more than `most`, and ends the command with a
result. -/
structure EndsWithin (most : Nat) (walk : State × Nat) : Prop where
  phase : 1 ≤ walk.2
  bound : walk.2 ≤ most
  ended : EndedWithResult walk.1

/-- A completed body has retired its phase (R12, R161). -/
theorem primitiveOutcome_phReq (p : Primitive) (a : BusAnswer) (s : State) :
    (primitiveOutcome p a s).phReq = .none := by
  cases p with
  | start => rfl
  | stop => rfl
  | tx b => cases h : writeAccepted s.cfg a.status <;> simp [primitiveOutcome, h]
  | rx ack => cases h : readAccepted s.cfg a.status <;> simp [primitiveOutcome, h]

/-- A byte out writes a result, whatever its status (R150). -/
theorem primitiveOutcome_tx_ok (b : Byte) (a : BusAnswer) (s : State) : (primitiveOutcome (.tx b) a s).ok ≠ none := by
  cases h : writeAccepted s.cfg a.status <;> simp [primitiveOutcome, h]

/-- No body takes a result away (R161). -/
theorem primitiveOutcome_ok (p : Primitive) (a : BusAnswer) {s : State} (hok : s.ok ≠ none) :
    (primitiveOutcome p a s).ok ≠ none := by
  cases p with
  | start => exact hok
  | stop => exact hok
  | tx b => exact primitiveOutcome_tx_ok b a s
  | rx ack => cases h : readAccepted s.cfg a.status <;> simp [primitiveOutcome, h]

/-- What ends a command keeps the result or makes it a failure (R12, R227). -/
theorem endedWithResult_applyNext {n : Next} {s : State} (hn : ∀ k, n ≠ .goto k) (hreq : s.phReq = .none)
    (hok : s.ok ≠ none) : EndedWithResult (applyNext n s) := by
  cases n with
  | goto k => exact absurd rfl (hn k)
  | finish => exact ⟨rfl, rfl, rfl, hreq, hok⟩
  | fail => exact ⟨rfl, rfl, rfl, hreq, nofun⟩
  | failRead => exact ⟨rfl, rfl, rfl, hreq, nofun⟩

/-- Where a row's body leaves a result, the walk ends at the row or in the rows after it. -/
theorem endsWithin_cons {r : TableRow} {rows : List TableRow} {a : BusAnswer} {answers : List BusAnswer} {s : State}
    {most : Nat} (hok : (primitiveOutcome (rowBody r) a s).ok ≠ none)
    (hrows : ∀ t : State, t.ok ≠ none → EndsWithin most (walkTable rows answers t)) :
    EndsWithin (most + 1) (walkTable (r :: rows) (a :: answers) s) := by
  by_cases hk : ∃ k, rowNext r (primitiveOutcome (rowBody r) a s) = .goto k
  · obtain ⟨k, hk⟩ := hk
    have hrow : (rowOutcome r a s).ok ≠ none := by rwa [rowOutcome_goto hk]
    obtain ⟨-, hbound, hend⟩ := hrows _ hrow
    rw [walkTable_goes_on hk]
    exact ⟨Nat.succ_pos _, Nat.succ_le_succ hbound, hend⟩
  · have hn := not_exists.1 hk
    rw [walkTable_ends hn]
    exact ⟨Nat.le_refl 1, Nat.succ_pos most, endedWithResult_applyNext hn (primitiveOutcome_phReq _ a s) hok⟩

/-- With a result in `OK` and an answer for every row, rows that close with the stop end the command (R171, R175). -/
theorem endsWithin_of_result {rows : List TableRow} {answers : List BusAnswer} (hlen : rows.length < answers.length)
    {s : State} (hok : s.ok ≠ none) : EndsWithin (rows.length + 1) (walkTable (rows ++ [stopRow]) answers s) := by
  induction rows generalizing answers s with
  | nil =>
    obtain ⟨a, answers, rfl⟩ := List.exists_cons_of_length_pos hlen
    exact ⟨Nat.le_refl 1, Nat.le_refl 1, rfl, rfl, rfl, rfl, hok⟩
  | cons r rows ih =>
    obtain ⟨a, answers, rfl⟩ := List.exists_cons_of_length_pos (Nat.zero_lt_of_lt hlen)
    exact endsWithin_cons (primitiveOutcome_ok _ a hok) fun _ => ih (Nat.lt_of_succ_lt_succ hlen)

/-- A command whose table is a start, a byte out, some rows and the stop ends when every row has an answer (R220). -/
theorem run_command_ends {i : Instr} {k : BitVec 3} {b : Byte} {good bad : Next} {rows : List TableRow}
    (hi : stepTable i = .always .start (.goto k) :: .test (.tx b) good bad :: (rows ++ [stopRow]))
    (a₀ a₁ : BusAnswer) {answers : List BusAnswer} (hlen : rows.length < answers.length) {s : State}
    (hwf : s.cfg.wf = true) (hb : s.busy = false) (hen : s.en = true) :
    ∃ n, 2 ≤ n ∧ n ≤ answers.length + 2 ∧
      RunsTo (1 + 3 * n) { s with schedule := commandTurns i ((a₀ :: a₁ :: answers).take n) } EndedWithResult := by
  obtain ⟨hphase, hbound, hend⟩ := endsWithin_cons (r := .test (.tx b) good bad) (rows := rows ++ [stopRow])
    (s := rowOutcome (.always .start (.goto k)) a₀ (latchCommand (encode i) s))
    (primitiveOutcome_tx_ok b a₁ _) fun _ => endsWithin_of_result hlen
  obtain ⟨bus, hrun⟩ := run_command (i := i) hwf hb hen (a₀ :: a₁ :: answers) [] s.bus
  rw [hi, walkTable_goes_on rfl, List.append_nil] at hrun
  obtain ⟨hbusy, hseq, hsub, hreq, hok⟩ := hend
  exact ⟨_, Nat.succ_le_succ hphase, Nat.succ_le_succ (hbound.trans (Nat.succ_le_succ hlen)), _, hrun,
    hbusy, hseq, hsub, hreq, hok⟩

/-- Settles O49: both tables start, send a byte, and close with the stop, READREG's in seven rows and WRITEREG's in five. -/
theorem answeredTransactionsEnd : Obligations.AnsweredTransactionsEnd := by
  intro i answers s hi hlen hwf hb hen
  obtain ⟨a₀, answers, rfl⟩ := List.exists_cons_of_length_eq_add_one hlen
  obtain ⟨a₁, answers, rfl⟩ := List.exists_cons_of_length_eq_add_one (Nat.succ.inj hlen)
  have hlen : answers.length = 5 := by simpa using hlen
  obtain ⟨n, hn, hle, t, hrun, hbusy, hseq, hsub, hreq, hok⟩ : ∃ n, 2 ≤ n ∧ n ≤ answers.length + 2 ∧
      RunsTo (1 + 3 * n) { s with schedule := commandTurns i ((a₀ :: a₁ :: answers).take n) } EndedWithResult := by
    rcases hi with ⟨ra, rfl⟩ | ⟨ra, d, rfl⟩
    · exact run_command_ends (rows := [_, _, _, _]) rfl a₀ a₁ (by simp [hlen]) hwf hb hen
    · exact run_command_ends (rows := [_, _]) rfl a₀ a₁ (by simp [hlen]) hwf hb hen
  exact ⟨n, t, hn, by omega, hrun, hbusy, hseq, hsub, hreq, hok⟩

/-! ## The hang -/

/-- At the completion step of the command `i`, whose phase has not completed, with only turns of ENGINE and polls of
`BUSY` to come (R226). -/
structure Hanging (i : Instr) (s : State) : Prop where
  config : s.cfg.wf = true
  busy : s.busy = true
  command : ∃ w, s.ir = some w ∧ decode w = .ok i
  usesBus : i ≠ .init
  sub : s.sub = true
  notDone : s.phDone = false
  turns : ∀ m ∈ s.schedule, m = .engine ∨ m = .hostRead .busy

theorem hanging_afterTurn {i : Instr} {s : State} (h : Hanging i s) : Hanging i (afterTurn s) :=
  { h with turns := fun m hm => h.turns m (List.mem_of_mem_tail hm) }

/-- ENGINE's turn waits for the phase (R12, R143). -/
theorem engineTurn_of_hanging {i : Instr} {s : State} (h : Hanging i s) : engineTurn s = .next s := by
  obtain ⟨w, hir, hd⟩ := h.command
  rw [engineTurn_of_decode h.busy hir hd]
  exact busCommandsWaitForThePhase i s h.usesBus h.sub h.notDone

/-- The turn passes, ENGINE's in the schedule or after it, or HOST's poll (R14, R17). -/
theorem step_of_hanging {i : Instr} {s : State} (h : Hanging i s) : step s = .next (afterTurn s) := by
  cases hs : s.schedule with
  | nil =>
    rw [step_of_silence h.config hs, afterTurn_of_silence hs]
    exact engineTurn_of_hanging h
  | cons m rest =>
    rw [step_of_schedule h.config hs, ← afterTurn_of_schedule hs]
    rcases h.turns m (hs ▸ List.mem_cons_self) with rfl | rfl
    · exact engineTurn_of_hanging (hanging_afterTurn h)
    · rfl

/-- However long the block hangs, only the turns go by (R226). -/
theorem run_of_hanging {i : Instr} {s : State} (h : Hanging i s) (k : Nat) :
    run k s = .next { s with schedule := s.schedule.drop k } := by
  induction k generalizing s with
  | zero => rfl
  | succ k ih =>
    rw [run_next (step_of_hanging h), ih (hanging_afterTurn h)]
    simp only [afterTurn, List.drop_tail]

/-- The issue step hands a phase to BUS (R143). -/
theorem issueStep_phReq_ne_none (p : Primitive) (s : State) : (issueStep p s).phReq ≠ .none := by
  cases p <;> exact nofun

/-- Settles O54: the hang, turn by turn, and the issue step at the row a command is at. -/
theorem unansweredPhaseHangs : Obligations.UnansweredPhaseHangs := by
  refine ⟨fun k s w i hwf hb hir hd hi hsub _ hdone hturns => ?_, fun i s r hr hsub => ?_⟩
  · exact run_of_hanging ⟨hwf, hb, ⟨w, hir, hd⟩, hi, hsub, hdone, hturns⟩ k
  · obtain ⟨hisub, hidone, hiir, hibusy, -⟩ := issueStep_frame (rowBody r) s
    exact ⟨_, (exec_rowAt hr).trans (runRow_issue r hsub), hibusy, hiir, hisub, issueStep_phReq_ne_none _ s, hidone⟩

end Sys2Proof.Safety
end

section
/-! PROOFS. Reset and rest. The reset event gives the block the registers of `State.reset` and keeps what is not the
block's (O11, R250, R251); at rest every turn of ENGINE and of a BUS agent passes, so a run only uses up the turns
(O12, R252). -/

namespace Sys2Proof.Safety

open Sys2Proof.Machine

/-! ## The reset event -/

/-- A step on the reset turn: every register as after reset, configuration and device kept; of the BUS agent only the
master's wires are let go (R250, R251). -/
theorem step_of_reset {s : State} {rest : List Move} (hwf : s.cfg.wf = true) (hs : s.schedule = .reset :: rest) :
    ∃ wire, step s =
      .next { State.reset with cfg := s.cfg, schedule := rest, bus := { dev := s.bus.dev, wire := wire } } :=
  ⟨_, step_of_schedule hwf hs⟩

/-- Settles O11: the reset event leaves the registers of `State.reset`, whose values are those of R41. -/
theorem resetPutsResetValues : Obligations.ResetPutsResetValues := by
  refine ⟨by simp [State.reset], fun s rest hwf hs => ?_⟩
  obtain ⟨wire, hstep⟩ := step_of_reset hwf hs
  exact ⟨_, hstep, by simp [State.reset]⟩

/-! ## The block at rest -/

/-- ENGINE has no step with `BUSY = 0` (R15, R252). -/
theorem engineTurn_of_idle {s : State} (hb : s.busy = false) : engineTurn s = .next s := by
  simp [engineTurn, hb]

/-- No command in progress, no phase outstanding, and only turns of ENGINE and of BUS agents to come (R252). -/
structure Quiet (s : State) : Prop where
  config : s.cfg.wf = true
  idle : s.busy = false
  noPhase : NoPhase s
  turns : ∀ m ∈ s.schedule, m = .engine ∨ isBusTurn m = true

theorem quiet_afterTurn {s : State} (h : Quiet s) : Quiet (afterTurn s) :=
  { h with turns := fun m hm => h.turns m (List.mem_of_mem_tail hm) }

/-- Neither ENGINE (R15) nor a BUS agent (R16) has a step at rest. -/
theorem step_of_quiet {s : State} (h : Quiet s) : step s = .next (afterTurn s) := by
  cases hs : s.schedule with
  | nil =>
    rw [step_of_silence h.config hs, afterTurn_of_silence hs]
    exact engineTurn_of_idle h.idle
  | cons m rest =>
    rw [step_of_schedule h.config hs, ← afterTurn_of_schedule hs]
    rcases h.turns m (hs ▸ List.mem_cons_self) with rfl | hbus
    · exact engineTurn_of_idle (quiet_afterTurn h).idle
    · exact turn_passes hbus (outstanding_of_noPhase (quiet_afterTurn h).noPhase)

/-- Where `P` makes every step pass and outlasts the turn, a run uses up its turns and changes nothing else. -/
theorem run_of_passing {P : State → Prop} (hpass : ∀ s, P s → step s = .next (afterTurn s))
    (hkeep : ∀ s, P s → P (afterTurn s)) (k : Nat) {s : State} (h : P s) :
    run k s = .next { s with schedule := s.schedule.drop k } := by
  induction k generalizing s with
  | zero => rfl
  | succ k ih =>
    rw [run_next (hpass s h), ih (hkeep s h)]
    simp only [afterTurn, List.drop_tail]

/-- Settles O12: every turn passes at rest, and a turn that passes leaves the block at rest. -/
theorem idleBlockDoesNothing : Obligations.IdleBlockDoesNothing := fun k _ hwf hb hreq hdone hturns =>
  run_of_passing (P := Quiet) (fun _ => step_of_quiet) (fun _ => quiet_afterTurn) k ⟨hwf, hb, ⟨hreq, hdone⟩, hturns⟩

end Sys2Proof.Safety
end
